-- ==== Sys2Proof/Word.lean ====
section
/-! DEFINITION. The word types of the engine. -/

namespace Sys2Proof

/-- An octet (R10). -/
abbrev Byte := BitVec 8

/-- A register of the window, a command word, a host datum: 32 bits (R32, R100). -/
abbrev Word := BitVec 32

/-- A lane of the Keccak state: 64 bits (R6, R41). -/
abbrev Lane := BitVec 64

/-- An F register: 448 bits (R39). -/
abbrev FElem := BitVec 448

/-- The Keccak state: exactly 25 lanes (R41, R130). Lane (i, j) is index i + 5j (R42). -/
abbrev Lanes := Vector Lane 25

/-- The all-zero 25-lane state, `Z25` of R142. -/
def zeroLanes : Lanes := Vector.replicate 25 0

end Sys2Proof
end

