-- ==== Sys2Proof/Syntax.lean ====
section
/-! DEFINITION. The commands of KCE-1 as data: one constructor per row of the opcode map (30_encoding.md R104). -/

namespace Sys2Proof

/-- A 4-bit register field of the command word (R100, R102), used as an unsigned index. It selects F[f], or P[k]
where k < 8 (`Instr.wellFormed`). -/
abbrev RegIdx := BitVec 4

/-- The engine's whole command set (R104, R308). Format N commands take their operands from the ARG registers
(R103) and have no field. -/
inductive Instr where
  | keccakf
  | sinit
  | absorb
  | absorbf
  | squeeze
  | sponge
  | lenc
  | renc
  | encstr
  | bytepad
  | shake256
  | cshake256
  | kmacxof256
  /-- format F3: three F indices -/
  | fmul (fd fa fb : RegIdx)
  /-- format P3: three P indices -/
  | padd (pd pa pb : RegIdx)
  /-- format PS: two P indices and the F index of the scalar -/
  | smul (pd pa fs : RegIdx)
  /-- format P1: one P index -/
  | ldg (pd : RegIdx)
deriving DecidableEq, Repr

end Sys2Proof
end

