-- ==== Sys2Proof/WellFormed.lean ====
section
/-! DEFINITION. Which command terms have a legal word (30_encoding.md R101, R105). -/

namespace Sys2Proof

/-- R101: a P field is a point register index, 0 to 7 (bit 3 of the field is 0). -/
def isPIdx (k : RegIdx) : Bool := k < 8

/-- R105: the fields meet the constraints of the command's format. Every 4-bit value is an F index, so only the
P fields can fail. -/
def Instr.wellFormed : Instr → Bool
  | .keccakf | .sinit | .absorb | .absorbf | .squeeze | .sponge => true
  | .lenc | .renc | .encstr | .bytepad => true
  | .shake256 | .cshake256 | .kmacxof256 => true
  | .fmul _ _ _ => true
  | .padd pd pa pb => isPIdx pd && isPIdx pa && isPIdx pb
  | .smul pd pa _ => isPIdx pd && isPIdx pa
  | .ldg pd => isPIdx pd

end Sys2Proof
end

