-- ==== Sys2Proof/Decode.lean ====
section
/-! DEFINITION. From command words to commands and back (30_encoding.md R100 to R107). The decoder compares the
word with the rows of the opcode table, as R107 says; the encoder lays out the fields, as R100 says. -/

namespace Sys2Proof

/-- Why a word is illegal (R105). The engine reports all of them as ILLEGAL_CMD (R295). -/
inductive Reject where
  /-- OPC is not a listed opcode -/
  | reservedOpcode
  /-- a listed opcode with RSV, bits 31:20, not 0 -/
  | reservedBits
  /-- a listed opcode, RSV = 0, and a register field outside its format: a must-be-zero field that is not 0, or a
  P field of 8 or more -/
  | badField
deriving DecidableEq, Repr

/-! The fields of a command word (R100). -/

def opcField (w : Word) : BitVec 8 := w.extractLsb' 0 8
def rdField (w : Word) : RegIdx := w.extractLsb' 8 4
def raField (w : Word) : RegIdx := w.extractLsb' 12 4
def rbField (w : Word) : RegIdx := w.extractLsb' 16 4
def rsvField (w : Word) : BitVec 12 := w.extractLsb' 20 12

/-- One row of the opcode table: the word selects it when `(w & mask) = pattern` (R107). -/
structure Row where
  mask : Word
  pattern : Word
  build : Word → Instr

/-- R107: the row is selected by the word. -/
def Row.selects (r : Row) (w : Word) : Bool := w &&& r.mask == r.pattern

/-- A row of format N: every bit is fixed (R101). -/
def rowN (opc : Word) (i : Instr) : Row := ⟨0xFFFFFFFF, opc, fun _ => i⟩

/-- The opcode table (R104), with the masks of R101's formats. -/
def opcodeRows : List Row :=
  [ rowN 0x10 .keccakf, rowN 0x11 .sinit, rowN 0x12 .absorb, rowN 0x13 .absorbf, rowN 0x14 .squeeze,
    rowN 0x15 .sponge, rowN 0x20 .lenc, rowN 0x21 .renc, rowN 0x22 .encstr, rowN 0x23 .bytepad,
    rowN 0x30 .shake256, rowN 0x31 .cshake256, rowN 0x32 .kmacxof256,
    ⟨0xFFF000FF, 0x40, fun w => .fmul (rdField w) (raField w) (rbField w)⟩,
    ⟨0xFFF888FF, 0x41, fun w => .padd (rdField w) (raField w) (rbField w)⟩,
    ⟨0xFFF088FF, 0x42, fun w => .smul (rdField w) (raField w) (rbField w)⟩,
    ⟨0xFFFFF8FF, 0x43, fun w => .ldg (rdField w)⟩ ]

/-- The name of a rejected word's defect (R105). -/
def rejectReason (w : Word) : Reject :=
  if opcodeRows.all (fun r => r.pattern.extractLsb' 0 8 != opcField w) then .reservedOpcode
  else if rsvField w != 0 then .reservedBits
  else .badField

/-- R107: the command the word stands for, or the reason why it is illegal. Total on every 32-bit word. -/
def decode (w : Word) : Except Reject Instr :=
  match opcodeRows.find? (fun r => r.selects w) with
  | some r => .ok (r.build w)
  | none => .error (rejectReason w)

/-- R100: RSV = 0, RB, RA, RD and OPC, from bit 31 down to bit 0. -/
def packFields (rb ra rd : RegIdx) (opc : BitVec 8) : Word := 0#12 ++ rb ++ ra ++ rd ++ opc

/-- The operation code of a command (R104). -/
def Instr.opcode : Instr → BitVec 8
  | .keccakf => 0x10
  | .sinit => 0x11
  | .absorb => 0x12
  | .absorbf => 0x13
  | .squeeze => 0x14
  | .sponge => 0x15
  | .lenc => 0x20
  | .renc => 0x21
  | .encstr => 0x22
  | .bytepad => 0x23
  | .shake256 => 0x30
  | .cshake256 => 0x31
  | .kmacxof256 => 0x32
  | .fmul _ _ _ => 0x40
  | .padd _ _ _ => 0x41
  | .smul _ _ _ => 0x42
  | .ldg _ => 0x43

/-- R101, R104: the command word of a command. -/
def encode (i : Instr) : Word :=
  match i with
  | .fmul fd fa fb => packFields fb fa fd i.opcode
  | .padd pd pa pb => packFields pb pa pd i.opcode
  | .smul pd pa fs => packFields fs pa pd i.opcode
  | .ldg pd => packFields 0 0 pd i.opcode
  | .keccakf | .sinit | .absorb | .absorbf | .squeeze | .sponge | .lenc | .renc | .encstr | .bytepad
  | .shake256 | .cshake256 | .kmacxof256 => packFields 0 0 0 i.opcode

/-- The host's question: the command read from the `nbits` low bits of `w`, every bit above them 0. A command is
exactly one 32-bit word (R110), so a number of more than 32 bits is no command. -/
def decodeTableWord (nbits w : Nat) : Option Instr :=
  if w % 2 ^ nbits < 2 ^ 32 then
    match decode (BitVec.ofNat 32 (w % 2 ^ nbits)) with
    | .ok i => some i
    | .error _ => none
  else none

end Sys2Proof
end

