-- ==== Sys2Proof/Machine/Bytes.lean ====
section
/-! DEFINITION. Byte strings, integers and bit fields (00_scope.md R8 to R11). -/

namespace Sys2Proof.Machine

/-- R9: `bitlen(n)`, 0 for n = 0 and otherwise the least k with n < 2^k. -/
def bitlen (n : Nat) : Nat := if n = 0 then 0 else n.log2 + 1

/-- R11: the n-byte little-endian encoding of v. -/
def leBytes (v : Nat) : Nat → List Byte
  | 0 => []
  | n + 1 => BitVec.ofNat 8 v :: leBytes (v / 256) n

/-- R11: the integer a byte string encodes, least significant byte first. -/
def leInt : List Byte → Nat
  | [] => 0
  | b :: bs => b.toNat + 256 * leInt bs

/-- R11: the k-byte big-endian encoding of v. -/
def beBytes (v k : Nat) : List Byte := (leBytes v k).reverse

/-- R10: n zero bytes. -/
def zeroBytes (n : Nat) : List Byte := List.replicate n 0

/-- Word w of a wide register, least significant word first (R39, R41): bits [32w+31 : 32w]. -/
def getWord {n : Nat} (x : BitVec n) (w : Nat) : Word := x.extractLsb' (32 * w) 32

/-- A wide register with its word w replaced (R39, R41). -/
def setWord {n : Nat} (x : BitVec n) (w : Nat) (v : Word) : BitVec n :=
  (x &&& ~~~((0xFFFFFFFF#32).setWidth n <<< (32 * w))) ||| (v.setWidth n <<< (32 * w))

end Sys2Proof.Machine
end

