-- ==== Sys2Proof/Config.lean ====
section
/-! DEFINITION. What an implementation or the platform fixes and the spec leaves OPEN (00_scope.md R7), and the
free values. Every constant here is opaque: no proof can learn a value of it, so a claim holds whatever it is. -/

namespace Sys2Proof.Config

/-- log2(`DMEM_BYTES`) - 10. R7, D4: `DMEM_BYTES` is OPEN, a power of two from 2^10 to 2^31. -/
opaque dmemLog : Fin 22

/-- R7, R34: the size of DMEM in bytes, the parameter `DMEM_BYTES`. -/
def dmemBytes : Nat := 2 ^ (10 + dmemLog.val)

/-- R7, R70: the platform address of the register window (`REG_BASE`, OPEN). -/
opaque regBase : Nat

/-- R7, R70: the platform address of the DMEM window (`DMEM_BASE`, OPEN). -/
opaque dmemBase : Nat

/-- The free value behind a host read that the spec calls unspecified (R88, R335; 93 U5, U6: "any value").
The argument is the number of such reads made before. -/
opaque freeWord : Nat → BitVec 32

end Sys2Proof.Config
end

