-- ==== Sys2Proof/Machine/State.lean ====
section
/-! DEFINITION. The state of the engine (10_state.md R30 to R48) and, apart from it, the host's side of a run: the
delivered access sequence that drives the engine (R83, D33) and what its reads returned. Plain data. -/

namespace Sys2Proof.Machine

/-- STATUS.ECODE (R291). Codes 0x0A to 0xFF are reserved and never produced, so they have no constructor. -/
inductive ErrCode where
  /-- NONE, 0x00 -/
  | noError
  /-- ILLEGAL_CMD, 0x01 -/
  | illegalCmd
  /-- BAD_BITLEN, 0x02 -/
  | badBitlen
  /-- BAD_BLOCKLEN, 0x03 -/
  | badBlocklen
  /-- BAD_WIDTH, 0x04 -/
  | badWidth
  /-- OUT_OF_BOUNDS, 0x05 -/
  | outOfBounds
  /-- OVERLAP, 0x06 -/
  | overlap
  /-- ENCODING_RANGE, 0x07; unreachable in this revision (R184) -/
  | encodingRange
  /-- OPERAND_RANGE, 0x08 -/
  | operandRange
  /-- INVALID_POINT, 0x09 -/
  | invalidPoint
deriving DecidableEq, Repr

/-- The fields of STATUS (R36). Bits 7:4 and 31:16 are RAZ/WI and have no storage. -/
structure Status where
  busy : Bool
  done : Bool
  err : Bool
  viol : Bool
  ecode : ErrCode
deriving DecidableEq, Repr

/-- The two windows the host sees (R70). -/
inductive Window where
  | reg
  | dmem
deriving DecidableEq, Repr

/-- Where a host access goes: a byte offset in a window (R71, R81), or a bus address that the platform's window
bases turn into one (R7, R71). -/
inductive Place where
  | offset (win : Window) (off : Nat)
  | bus (addr : Nat)
deriving DecidableEq, Repr

/-- What an EXPECT pseudo-instruction expects of STATUS (R113). -/
inductive Expectation where
  /-- `EXPECT DONE` -/
  | done
  /-- `EXPECT ERR c` -/
  | err (code : Byte)
deriving DecidableEq, Repr

/-- One event at the engine's boundary. A run's input is a list of these (R83, D33, R342). -/
inductive HostOp where
  /-- a host write of `width` bytes (R72, R73) -/
  | write (pl : Place) (width : Nat) (v : Word)
  /-- a host read of `width` bytes (R72, R73) -/
  | read (pl : Place) (width : Nat)
  /-- the pseudo-instruction WAIT: read STATUS until BUSY = 0 (R113) -/
  | wait
  /-- the pseudo-instruction EXPECT (R113) -/
  | expect (e : Expectation)
  /-- the platform applies reset (R330) -/
  | reset
  /-- the command in flight, if any, completes now: its latency is unspecified (R108, R339), so the input says
  between which host accesses it completes -/
  | engine
deriving DecidableEq, Repr

/-- The host's side of a run. Not engine state: the model's own. -/
structure HostSide where
  /-- events not yet taken, oldest first -/
  inbox : List HostOp
  /-- data returned by the host's reads, oldest first -/
  replies : List Word
  /-- the failed expectation of an expect-stopped run (R341, ending 2) -/
  stopped : Option Expectation
  /-- how many reads have returned an unspecified value: the counter behind `Config.freeWord` -/
  draws : Nat
deriving DecidableEq, Repr

/-- The state of the machine (R32 to R46). ID and DMEMSZ are constants (R33, R34) and have no storage; P0 to P7
are a view of F (R40); the pending command is BUSY and CMD (R45). -/
structure State where
  /-- STATUS (R36) -/
  status : Status
  /-- CMD, the last word issued (R37) -/
  cmd : Word
  /-- RLEN (R35) -/
  rlen : Word
  /-- ARG0 to ARG7 (R38) -/
  arg : Vector Word 8
  /-- STATE, the lanes S[0] to S[24] (R41) -/
  lanes : Lanes
  /-- F0 to F15 (R39) -/
  f : Vector FElem 16
  /-- DMEM (R44): the bytes written since reset, sorted by address; an unlisted byte has no value (R88) -/
  dmem : List Host.Cell
  /-- the private working state of the one-shot commands (R46) -/
  work : Lanes
  /-- the host's side of the run -/
  host : HostSide
deriving DecidableEq, Repr

/-- Why the machine stops with a fault. -/
inductive Fault where
  /-- A command would read a DMEM byte not written since reset (R88, R338; 93 U7). Raised when such a command is
  issued, and by the command's own meaning. Safe: the hardware goes on with unspecified results, of which nothing
  can then be claimed. -/
  | unwrittenInput
deriving DecidableEq, Repr

/-- Why the machine has no meaning for what it is asked. -/
inductive Refusal where
  /-- A command whose meaning is not written yet; raised by `exec` only. Safe. -/
  | notModelled (mnemonic : String)
  /-- A host access of a width the spec gives no meaning (R72, R73; 93 U4). Raised by a host access. Safe. -/
  | accessWidth
  /-- A misaligned host access (R72, R73; 93 U4). Raised by a host access. Safe. -/
  | misaligned
  /-- A host access outside the two windows (R71; 93 U3). Raised by a host access. Safe. -/
  | outsideWindows
deriving DecidableEq, Repr

/-- The outcome of a step. -/
abbrev Result := Host.Outcome State Fault Refusal

/-- STATUS after reset: idle, no error (R47). -/
def Status.reset : Status := ⟨false, false, false, false, .noError⟩

/-- The host's side before a run: nothing delivered, nothing read. -/
def HostSide.start : HostSide := ⟨[], [], none, 0⟩

/-- The machine right after reset (R47, R332): every register 0, no DMEM byte written. -/
def State.reset : State where
  status := Status.reset
  cmd := 0
  rlen := 0
  arg := Vector.replicate 8 0
  lanes := zeroLanes
  f := Vector.replicate 16 0
  dmem := []
  work := zeroLanes
  host := HostSide.start

end Sys2Proof.Machine
end

