-- ==== Sys2Proof/Machine/Flags.lean ====
section
/-! DEFINITION. STATUS: every way its fields are computed and read (10_state.md R36, R48; 60_exceptions.md R291).
Arithmetic sets no flag (R48). -/

namespace Sys2Proof.Machine

/-- R291: the number of an error code. -/
def ErrCode.code : ErrCode → Byte
  | .noError => 0x00
  | .illegalCmd => 0x01
  | .badBitlen => 0x02
  | .badBlocklen => 0x03
  | .badWidth => 0x04
  | .outOfBounds => 0x05
  | .overlap => 0x06
  | .encodingRange => 0x07
  | .operandRange => 0x08
  | .invalidPoint => 0x09

/-- R36: STATUS as the host reads it: ECODE in bits 15:8, then VIOL, ERR, DONE and BUSY in bits 3:0, every other
bit 0. -/
def Status.word (st : Status) : Word :=
  0#16 ++ st.ecode.code ++ 0#4 ++ BitVec.ofBool st.viol ++ BitVec.ofBool st.err ++ BitVec.ofBool st.done
    ++ BitVec.ofBool st.busy

/-- R36, R80: a host write to STATUS clears the RW1C bits DONE, ERR and VIOL that are written as 1. -/
def Status.w1c (st : Status) (v : Word) : Status :=
  { st with done := st.done && !v.getLsbD 1, err := st.err && !v.getLsbD 2, viol := st.viol && !v.getLsbD 3 }

/-- R106: issue. VIOL is unchanged. -/
def Status.issue (st : Status) : Status := { st with busy := true, done := false, err := false, ecode := .noError }

/-- R109: successful completion. -/
def Status.succeed (st : Status) : Status := { st with busy := false, done := true, ecode := .noError }

/-- R296: error completion with code c. DONE stays as issue left it, and VIOL keeps its value. -/
def Status.fail (st : Status) (c : ErrCode) : Status := { st with busy := false, err := true, ecode := c }

/-- R334: a write ignored because the engine is busy. -/
def Status.violate (st : Status) : Status := { st with viol := true }

end Sys2Proof.Machine
end

