-- ==== Sys2Proof/Machine/Ops.lean ====
section
/-! DEFINITION. The shared operations: DMEM, issue, the two completions, and the primitives of the command rules'
pseudocode (00_scope.md R12, R13). -/

namespace Sys2Proof.Machine

/-! ## DMEM (R44, R72, R88) -/

/-- DMEM as the bytes written since reset, strictly rising by address. -/
abbrev Mem := List Host.Cell

/-- The canonical form: addresses strictly rise. An unlisted byte has no value (R88), so no listed byte can equal
it. -/
abbrev Mem.wf (m : Mem) : Prop := m.Pairwise (fun c d => c.1 < d.1)

/-- The byte at address a, if it has been written since reset (R88). -/
def Mem.byte? : Mem → Nat → Option Byte
  | [], _ => none
  | (k, b) :: m, a => if k = a then some b else Mem.byte? m a

/-- Write one byte. -/
def Mem.setByte : Mem → Nat → Byte → Mem
  | [], a, b => [(a, b)]
  | (k, c) :: m, a, b =>
    if a < k then (a, b) :: (k, c) :: m
    else if a = k then (a, b) :: m
    else (k, c) :: Mem.setByte m a b

/-- The n bytes from address a up, if all of them have been written (R12, R88). -/
def Mem.bytes? (m : Mem) (a : Nat) : Nat → Option (List Byte)
  | 0 => some []
  | n + 1 =>
    match m.byte? a with
    | none => none
    | some b =>
      match Mem.bytes? m (a + 1) n with
      | none => none
      | some bs => some (b :: bs)

/-- Write a byte string from address a up (R12). -/
def Mem.setBytes (m : Mem) (a : Nat) : List Byte → Mem
  | [] => m
  | b :: bs => Mem.setBytes (m.setByte a b) (a + 1) bs

/-- R76: the region (a, n) is in bounds: n = 0 or a + n ≤ `DMEM_BYTES`, with no wrap. The middle tests hold or fail
for every allowed `DMEM_BYTES` and spare the opaque parameter; `inBounds_iff` says the rule in its own form. -/
def inBounds (a n : Nat) : Bool :=
  n == 0 || decide (a + n ≤ 2 ^ 10) || (decide (a + n ≤ 2 ^ 31) && decide (a + n ≤ Config.dmemBytes))

/-- R77: two regions overlap. -/
def overlaps (a1 n1 a2 n2 : Nat) : Bool :=
  decide (0 < n1) && decide (0 < n2) && decide (a1 < a2 + n2) && decide (a2 < a1 + n1)

/-! ## Issue and completion (R106, R109, R296) -/

/-- R106: issue of the word W. The snapshot of R14 needs no storage: ARG, STATE, F and DMEM cannot change while the
engine is busy (R334). R46: the private working state is zeroed. -/
def issue (w : Word) (s : State) : State :=
  { s with status := s.status.issue, cmd := w, rlen := 0, work := zeroLanes }

/-- R109: successful completion of a command that wrote n output bytes; the command's writes to STATE, F and DMEM
are already in `s`, and become visible with it. R46: the private working state is zeroed. -/
def complete (n : Nat) (s : State) : State :=
  { s with status := s.status.succeed, rlen := BitVec.ofNat 32 n, work := zeroLanes }

/-- R296, R299: error completion, the engine's one response to a command it cannot complete. Only STATUS changes:
control goes nowhere and nothing is saved (R290); RLEN stays 0, as issue set it. There is no return from it: the
engine is idle again at once (R300). -/
def errorComplete (c : ErrCode) (s : State) : State := { s with status := s.status.fail c, work := zeroLanes }

/-! ## The pseudocode's primitives (R12, R13) -/

/-- R13: `require(cond, CODE)`, before the rest `k` of a command. `k` is a function, so that no evaluation starts the
rest before the check. -/
def require (cond : Bool) (c : ErrCode) (s : State) (k : Unit → Result) : Result :=
  if cond then k () else .next (errorComplete c s)

/-- R13: `result(n)`. -/
def result (n : Nat) (s : State) : Result := .next (complete n s)

/-- R12: `MemRead(a, n)`, before the rest `k` of a command. R338: a byte with no value is a fault. -/
def memRead (s : State) (a n : Nat) (k : List Byte → Result) : Result :=
  match Mem.bytes? s.dmem a n with
  | some x => k x
  | none => .fault .unwrittenInput

/-- R12: `MemWrite(a, |x|, x)`. -/
def memWrite (a : Nat) (x : List Byte) (s : State) : State := { s with dmem := Mem.setBytes s.dmem a x }

end Sys2Proof.Machine
end

