-- ==== Sys2Proof/Machine/Operands.lean ====
section
/-! DEFINITION. Where a command's operands come from: the ARG registers (R38, R103), the F file (R39, R102) and its
view as point registers (R40). -/

namespace Sys2Proof.Machine

/-- R103: ARG[i] as an unsigned integer. -/
def State.argNat (s : State) (i : Fin 8) : Nat := s.arg[i].toNat

/-- R103: the 64-bit operand n of LENC and RENC, ARG[1]·2^32 + ARG[0]. -/
def State.arg64 (s : State) : Nat := s.argNat 1 * 2 ^ 32 + s.argNat 0

/-- R102: F[i]. -/
def State.fRead (s : State) (i : RegIdx) : FElem := s.f[i.toNat]'(i.isLt)

/-- R12: F[i] <- v. -/
def State.fWrite (s : State) (i : RegIdx) (v : FElem) : State := { s with f := s.f.set i.toNat v i.isLt }

/-- A point: a pair of integers (R39, R40). -/
structure Point where
  x : Nat
  y : Nat
deriving DecidableEq, Repr

/-- R40: the F index 2k of the x coordinate of P[k]. -/
def pIdxX (k : RegIdx) : RegIdx := 2 * k

/-- R40: the F index 2k + 1 of the y coordinate of P[k]. -/
def pIdxY (k : RegIdx) : RegIdx := 2 * k + 1

/-- R40: P[k] = (F[2k], F[2k+1]), for k < 8. -/
def State.pRead (s : State) (k : RegIdx) : Point := ⟨(s.fRead (pIdxX k)).toNat, (s.fRead (pIdxY k)).toNat⟩

/-- R40: P[k] <- (x, y), for k < 8. -/
def State.pWrite (s : State) (k : RegIdx) (q : Point) : State :=
  (s.fWrite (pIdxX k) (BitVec.ofNat 448 q.x)).fWrite (pIdxY k) (BitVec.ofNat 448 q.y)

end Sys2Proof.Machine
end

