-- ==== Sys2Proof/Machine/Ed448.lean ====
section
/-! DEFINITION. Ed448-Goldilocks (43_ed448.md R240 to R249, R254) and its commands FMUL, PADD, SMUL and LDG (R250 to
R253). Every value is an unbounded integer reduced mod p as written. -/

namespace Sys2Proof.Machine

/-! ## The field (R240 to R242) -/

/-- R242: p = 2^448 - 2^224 - 1. -/
def fieldPrime : Nat := 2 ^ 448 - 2 ^ 224 - 1

/-- R242: d = -39081 mod p. -/
def curveD : Nat := fieldPrime - 39081

/-- R6, R242: the group order. No command reduces by it (R252). -/
def groupOrder : Nat :=
  2 ^ 446 - 13818066809895115352007386748515426880336692474882178609894547503885

/-- R240: v is a canonical field element. -/
def canonical (v : Nat) : Bool := decide (v < fieldPrime)

/-- R241: (a + b) mod p. -/
def fieldAdd (a b : Nat) : Nat := (a + b) % fieldPrime

/-- R241: (a - b) mod p, for canonical a and b. -/
def fieldSub (a b : Nat) : Nat := (a + (fieldPrime - b)) % fieldPrime

/-- R241: (a · b) mod p. -/
def fieldMul (a b : Nat) : Nat := a * b % fieldPrime

/-- b^e mod m by repeated squaring, for e < 2^fuel. -/
def powMod (m : Nat) : Nat → Nat → Nat → Nat
  | 0, _, _ => 1 % m
  | fuel + 1, b, e =>
    if e = 0 then 1 % m
    else if e % 2 = 1 then b * powMod m fuel (b * b % m) (e / 2) % m
    else powMod m fuel (b * b % m) (e / 2)

/-- R241: a⁻¹ = a^(p-2) mod p. The inverse of 0 is not defined and no command computes it (R247). -/
def fieldInv (a : Nat) : Nat := powMod fieldPrime 448 a (fieldPrime - 2)

/-- R241: a / b = a ⊗ b⁻¹. -/
def fieldDiv (a b : Nat) : Nat := fieldMul a (fieldInv b)

/-! ## The curve (R243 to R249) -/

/-- R243: the generator G = (8, y_G). -/
def generator : Point where
  x := 8
  y := 563400200929088152613609629378641385410102682117258566404750214022059686929583319585040850282322731241505930835997382613319689400286258

/-- R244: the identity O = (0, 1). -/
def identity : Point := ⟨0, 1⟩

/-- R244: -P = ((p - x) mod p, y). -/
def negPoint (q : Point) : Point := ⟨(fieldPrime - q.x) % fieldPrime, q.y⟩

/-- Both coordinates are canonical (R240, R251). -/
def Point.inRange (q : Point) : Bool := canonical q.x && canonical q.y

/-- R245: x, y < p and (x² + y² - 1 - d·x²·y²) mod p = 0, with d = -39081. -/
def onCurve (q : Point) : Bool :=
  q.inRange && decide (((q.x : Int) ^ 2 + (q.y : Int) ^ 2 - 1 - (-39081) * (q.x : Int) ^ 2 * (q.y : Int) ^ 2)
    % (fieldPrime : Int) = 0)

/-- R246: t = d ⊗ x1 ⊗ x2 ⊗ y1 ⊗ y2. -/
def addT (q1 q2 : Point) : Nat :=
  fieldMul (fieldMul (fieldMul (fieldMul curveD q1.x) q2.x) q1.y) q2.y

/-- R246: the sum, when neither denominator is 0. -/
def addFormula (q1 q2 : Point) : Point where
  x := fieldDiv (fieldAdd (fieldMul q1.x q2.y) (fieldMul q1.y q2.x)) (fieldAdd 1 (addT q1 q2))
  y := fieldDiv (fieldSub (fieldMul q1.y q2.y) (fieldMul q1.x q2.x)) (fieldSub 1 (addT q1 q2))

/-- R247: a denominator of R246 is 0. -/
def zeroDenominator (q1 q2 : Point) : Bool :=
  fieldAdd 1 (addT q1 q2) == 0 || fieldSub 1 (addT q1 q2) == 0

/-- R246, R247: point addition; no value when a denominator is 0. -/
def addPoints (q1 q2 : Point) : Option Point :=
  if zeroDenominator q1 q2 then none else some (addFormula q1 q2)

/-- R249: one turn of the ladder: double, then add B if the bit of s is set. -/
def ladderTurn (s i : Nat) (b q : Point) : Option Point :=
  match addPoints q q with
  | none => none
  | some q2 => if s.testBit i then addPoints q2 b else some q2

/-- R249: the turns for bits n - 1 down to 0. -/
def ladder (s : Nat) (b : Point) : Nat → Point → Option Point
  | 0, q => some q
  | n + 1, q =>
    match ladderTurn s n b q with
    | none => none
    | some q' => ladder s b n q'

/-- R249: smul(s, B), left to right from bit bitlen(s) - 2. smul(0, B) = O. -/
def scalarMul (s : Nat) (b : Point) : Option Point :=
  if s = 0 then some identity else ladder s b (bitlen s - 1) b

/-! ## Commands (R250 to R253) -/

/-- The rest of a command that computes a point: no value is INVALID_POINT (R247, R296). -/
def requirePoint (r : Option Point) (s : State) (k : Point → Result) : Result :=
  match r with
  | some q => k q
  | none => .next (errorComplete .invalidPoint s)

/-- R250: FMUL. -/
def execFmul (fd fa fb : RegIdx) (s : State) : Result :=
  let a := (s.fRead fa).toNat
  let b := (s.fRead fb).toNat
  require (canonical a) .operandRange s fun _ =>
  require (canonical b) .operandRange s fun _ =>
  result 0 (s.fWrite fd (BitVec.ofNat 448 (fieldMul a b)))

/-- R251: PADD. A P field of 8 or more has no legal word (R105): such a term is ILLEGAL_CMD. -/
def execPadd (pd pa pb : RegIdx) (s : State) : Result :=
  require (isPIdx pd && isPIdx pa && isPIdx pb) .illegalCmd s fun _ =>
  let q1 := s.pRead pa
  let q2 := s.pRead pb
  require (q1.inRange && q2.inRange) .operandRange s fun _ =>
  require (onCurve q1 && onCurve q2) .invalidPoint s fun _ =>
  requirePoint (addPoints q1 q2) s fun q3 =>
  result 0 (s.pWrite pd q3)

/-- R252: SMUL. A P field of 8 or more has no legal word (R105): such a term is ILLEGAL_CMD. -/
def execSmul (pd pa fs : RegIdx) (s : State) : Result :=
  require (isPIdx pd && isPIdx pa) .illegalCmd s fun _ =>
  let b := s.pRead pa
  let k := (s.fRead fs).toNat
  require b.inRange .operandRange s fun _ =>
  require (onCurve b) .invalidPoint s fun _ =>
  requirePoint (scalarMul k b) s fun q =>
  result 0 (s.pWrite pd q)

/-- R253: LDG. A P field of 8 or more has no legal word (R105): such a term is ILLEGAL_CMD. -/
def execLdg (pd : RegIdx) (s : State) : Result :=
  require (isPIdx pd) .illegalCmd s fun _ =>
  result 0 (s.pWrite pd generator)

end Sys2Proof.Machine
end

