-- ==== Sys2Proof/Machine/Encoder.lean ====
section
/-! DEFINITION. The SP 800-185 encoder (41_sp800185_encoder.md R180 to R184) and its commands LENC, RENC, ENCSTR and
BYTEPAD (R185 to R188). -/

namespace Sys2Proof.Machine

/-- R180: the minimal number of octets of n; 1 for n = 0. -/
def octets (n : Nat) : Nat := max 1 ((bitlen n + 7) / 8)

/-- R180. -/
def leftEncode (n : Nat) : List Byte := BitVec.ofNat 8 (octets n) :: beBytes n (octets n)

/-- R181; right_encode(0) = 00 01 (90_conflicts.md C4). -/
def rightEncode (n : Nat) : List Byte := beBytes n (octets n) ++ [BitVec.ofNat 8 (octets n)]

/-- R182. -/
def encodeString (x : List Byte) : List Byte := leftEncode (8 * x.length) ++ x

/-- R187: the length of encode_string of a string of length n. -/
def encodeStringLen (n : Nat) : Nat := (leftEncode (8 * n)).length + n

/-- R183: bytepad(X, w) for w > 0, with the least number of zeros that makes the length a multiple of w. -/
def bytepad (x : List Byte) (w : Nat) : List Byte :=
  let z := leftEncode w ++ x
  z ++ zeroBytes ((w - z.length % w) % w)

/-- R188: the length of bytepad(X, w) for |X| = n: w · ⌈(|left_encode(w)| + n) / w⌉. -/
def bytepadLen (w n : Nat) : Nat := w * (((leftEncode w).length + n + (w - 1)) / w)

/-- R184: the integers the encoders take are below 2^2040, compared exactly. -/
def encodingLimit : Nat := 2 ^ 2040

/-- R185, R186: the shape of LENC and RENC: the encoding E of the 64-bit n, written at ARG6. The range check is kept
though it cannot fail (R184). -/
def encodeInt (enc : Nat → List Byte) (s : State) : Result :=
  let n := s.arg64
  let o := s.argNat 6
  let e := enc n
  require (decide (n < encodingLimit)) .encodingRange s fun _ =>
  require (inBounds o e.length) .outOfBounds s fun _ =>
  result e.length (memWrite o e s)

/-- R185: LENC. -/
def execLenc (s : State) : Result := encodeInt leftEncode s

/-- R186: RENC. -/
def execRenc (s : State) : Result := encodeInt rightEncode s

/-- R187, R188: the shape of ENCSTR and BYTEPAD after their value checks: input (ARG0, ARG1), output address ARG6,
output length m, output f(input). -/
def encodeRegion (m : Nat) (f : List Byte → List Byte) (s : State) : Result :=
  let a := s.argNat 0
  let n := s.argNat 1
  let o := s.argNat 6
  require (inBounds a n) .outOfBounds s fun _ =>
  require (inBounds o m) .outOfBounds s fun _ =>
  require (!overlaps o m a n) .overlap s fun _ =>
  memRead s a n fun x =>
  result m (memWrite o (f x) s)

/-- R187: ENCSTR. -/
def execEncstr (s : State) : Result := encodeRegion (encodeStringLen (s.argNat 1)) encodeString s

/-- R188: BYTEPAD. -/
def execBytepad (s : State) : Result :=
  let w := s.argNat 2
  require (decide (0 < w)) .badWidth s fun _ =>
  encodeRegion (bytepadLen w (s.argNat 1)) (fun x => bytepad x w) s

end Sys2Proof.Machine
end

