-- ==== Sys2Proof/Machine/Keccak.lean ====
section
/-! DEFINITION. The permutation Keccak-f[1600] (40_keccak_sponge.md R130 to R137). Lane (i, j) is index i + 5j, so
lane k sits in column k mod 5 and row k / 5 (R42). -/

namespace Sys2Proof.Machine

/-- R131: the left rotation of x by k bit positions, 0 ≤ k < 64. A rotation by 0 is x itself (R337). -/
def rotl64 (x : Lane) (k : Nat) : Lane := if k = 0 then x else (x <<< k) ||| (x >>> (64 - k))

/-- R132: C[i], the XOR of the five lanes of column i. -/
def thetaC (A : Lanes) (i : Fin 5) : Lane :=
  A[i.val] ^^^ A[i.val + 5] ^^^ A[i.val + 10] ^^^ A[i.val + 15] ^^^ A[i.val + 20]

/-- R132: D[i] = C[(i+4) mod 5] ^ rotl64(C[(i+1) mod 5], 1). -/
def thetaD (A : Lanes) (i : Fin 5) : Lane := thetaC A (i + 4) ^^^ rotl64 (thetaC A (i + 1)) 1

/-- R132: θ. -/
def theta (A : Lanes) : Lanes :=
  let D : Vector Lane 5 := Vector.ofFn (thetaD A)
  Vector.ofFn fun k : Fin 25 => A[k] ^^^ D[k.val % 5]'(Nat.mod_lt _ (by decide))

/-- R133: the 24 steps of ρ+π, one line of the rule's step table each: the lane B[dst] a step writes, and the count
by which it rotates the lane t it carries. -/
def rhoPiSteps : List (Fin 25 × Nat) :=
  [(10, 1), (7, 3), (11, 6), (17, 10), (18, 15), (3, 21), (5, 28), (16, 36),
   (8, 45), (21, 55), (24, 2), (4, 14), (15, 27), (23, 41), (19, 56), (13, 8),
   (12, 25), (2, 43), (20, 62), (14, 18), (22, 39), (9, 61), (6, 20), (1, 44)]

/-- R133: the table `π_lane`, the steps' destinations. -/
def piLane : List (Fin 25) := rhoPiSteps.map Prod.fst

/-- R133: the table `ρ_rot`, the steps' rotation counts. -/
def rhoRot : List Nat := rhoPiSteps.map Prod.snd

/-- R133: one turn of the ρ+π loop. `p` holds t and B; A is the state before the step. -/
def rhoPiTurn (A : Lanes) (p : Lane × Lanes) (d : Fin 25 × Nat) : Lane × Lanes :=
  (A[d.1], p.2.set d.1 (rotl64 p.1 d.2))

/-- R133: ρ+π. Lane 0 is copied; the loop writes every other lane. -/
def rhoPi (A : Lanes) : Lanes := (rhoPiSteps.foldl (rhoPiTurn A) (A[1], A)).2

/-- R134: χ. -/
def chi (A : Lanes) : Lanes :=
  Vector.ofFn fun k : Fin 25 =>
    A[k] ^^^ (~~~ A[(k.val + 1) % 5 + 5 * (k.val / 5)]'(by omega) &&& A[(k.val + 2) % 5 + 5 * (k.val / 5)]'(by omega))

/-- R135: the table of round constants, line by line as the rule prints it: line k holds RC[k], RC[k + 8] and
RC[k + 16]. Each is an integer value (90_conflicts.md C7). -/
def roundConstLines : List (Lane × Lane × Lane) :=
  [(0x0000000000000001, 0x000000000000008A, 0x8000000000008002),
   (0x0000000000008082, 0x0000000000000088, 0x8000000000000080),
   (0x800000000000808A, 0x0000000080008009, 0x000000000000800A),
   (0x8000000080008000, 0x000000008000000A, 0x800000008000000A),
   (0x000000000000808B, 0x000000008000808B, 0x8000000080008081),
   (0x0000000080000001, 0x800000000000008B, 0x8000000000008080),
   (0x8000000080008081, 0x8000000000008089, 0x0000000080000001),
   (0x8000000000008009, 0x8000000000008003, 0x8000000080008008)]

/-- R135: RC[ir]. -/
def roundConst (ir : Fin 24) : Lane :=
  let line := roundConstLines[ir.val % 8]'(Nat.mod_lt _ (by decide))
  if ir.val < 8 then line.1 else if ir.val < 16 then line.2.1 else line.2.2

/-- R135: ι with round index ir. -/
def iota (A : Lanes) (ir : Fin 24) : Lanes := A.set 0 (A[0] ^^^ roundConst ir)

/-- R136: one round. -/
def keccakRound (A : Lanes) (ir : Fin 24) : Lanes := iota (chi (rhoPi (theta A))) ir

/-- R137: Keccak-f[1600], rounds 0 to 23. -/
def keccakF (A : Lanes) : Lanes := (List.finRange 24).foldl keccakRound A

end Sys2Proof.Machine
end

