-- ==== Sys2Proof/Machine/Sponge.lean ====
section
/-! DEFINITION. The sponge (40_keccak_sponge.md R138 to R143) and its commands KECCAKF, SINIT, ABSORB, ABSORBF,
SQUEEZE and SPONGE (R144 to R149). -/

namespace Sys2Proof.Machine

/-- R6: the rate in bytes; a block. -/
abbrev rateBytes : Nat := 136

/-- R138: a block as 25 lanes, the first 17 from its bytes and the rest 0. -/
def blockLanes (bk : List Byte) : Lanes :=
  Vector.ofFn fun k : Fin 25 =>
    if k.val < 17 then BitVec.ofNat 64 (leInt ((bk.drop (8 * k.val)).take 8)) else 0

/-- R140: lane-wise XOR. -/
def xorLanes (A B : Lanes) : Lanes := Vector.zipWith (· ^^^ ·) A B

/-- R139: what the sponge padding appends to a string of length n. -/
def padTail (n : Nat) : List Byte :=
  if n % rateBytes = 0 then [] else zeroBytes (rateBytes - n % rateBytes - 1) ++ [0x80]

/-- R139: the sponge padding. -/
def pad (x : List Byte) : List Byte := x ++ padTail x.length

/-- R140: absorb m blocks in order: XOR, then permute. -/
def absorbBlocks : Nat → Lanes → List Byte → Lanes
  | 0, A, _ => A
  | m + 1, A, y => absorbBlocks m (keccakF (xorLanes A (blockLanes (y.take rateBytes)))) (y.drop rateBytes)

/-- R140: absorb a whole number of blocks. -/
def absorb (A : Lanes) (y : List Byte) : Lanes := absorbBlocks (y.length / rateBytes) A y

/-- R141: the 136 bytes of lanes 0 to 16, little-endian. -/
def rateOut (A : Lanes) : List Byte := (A.toList.take 17).flatMap fun x => leBytes x.toNat 8

/-- R141: copy a block and permute, n times. -/
def squeezeBlocks : Nat → Lanes → List Byte × Lanes
  | 0, A => ([], A)
  | n + 1, A =>
    let r := squeezeBlocks n (keccakF A)
    (rateOut A ++ r.1, r.2)

/-- R141: ⌈L / 1088⌉, the number of blocks squeezed for L bits. -/
def squeezeCount (L : Nat) : Nat := (L + 1087) / 1088

/-- R141: squeeze L bits, L mod 8 = 0: the output bytes and the state afterwards. -/
def squeeze (A : Lanes) (L : Nat) : List Byte × Lanes :=
  let r := squeezeBlocks (squeezeCount L) A
  (r.1.take (L / 8), r.2)

/-- R142: the sponge function, from the all-zero state. -/
def sponge (x : List Byte) (L : Nat) : List Byte := (squeeze (absorb zeroLanes (pad x)) L).1

/-- The shape of the one-shot commands with one input region (R149, R214): input (ARG0, ARG1), output address
ARG6, output bits L = ARG7, output f(input, L). The function runs on the private state, which is 0 at issue and at
completion (R46); STATE is unchanged. -/
def oneShot1 (f : List Byte → Nat → List Byte) (s : State) : Result :=
  let a := s.argNat 0
  let n := s.argNat 1
  let o := s.argNat 6
  let L := s.argNat 7
  require (L % 8 == 0) .badBitlen s fun _ =>
  require (inBounds a n) .outOfBounds s fun _ =>
  require (inBounds o (L / 8)) .outOfBounds s fun _ =>
  require (!overlaps o (L / 8) a n) .overlap s fun _ =>
  memRead s a n fun x =>
  result (L / 8) (memWrite o (f x L) s)

/-- R144: KECCAKF. -/
def execKeccakf (s : State) : Result := result 0 { s with lanes := keccakF s.lanes }

/-- R145: SINIT. -/
def execSinit (s : State) : Result := result 0 { s with lanes := zeroLanes }

/-- R146: ABSORB. -/
def execAbsorb (s : State) : Result :=
  let a := s.argNat 0
  let n := s.argNat 1
  require (n % rateBytes == 0) .badBlocklen s fun _ =>
  require (inBounds a n) .outOfBounds s fun _ =>
  memRead s a n fun y =>
  result 0 { s with lanes := absorb s.lanes y }

/-- R147: ABSORBF. -/
def execAbsorbf (s : State) : Result :=
  let a := s.argNat 0
  let n := s.argNat 1
  require (inBounds a n) .outOfBounds s fun _ =>
  memRead s a n fun y =>
  result 0 { s with lanes := absorb s.lanes (pad y) }

/-- R148: SQUEEZE. -/
def execSqueeze (s : State) : Result :=
  let o := s.argNat 6
  let L := s.argNat 7
  require (L % 8 == 0) .badBitlen s fun _ =>
  require (inBounds o (L / 8)) .outOfBounds s fun _ =>
  let r := squeeze s.lanes L
  result (L / 8) { memWrite o r.1 s with lanes := r.2 }

/-- R149: SPONGE. -/
def execSponge (s : State) : Result := oneShot1 sponge s

end Sys2Proof.Machine
end

