-- ==== Sys2Proof/Machine/Xof.lean ====
section
/-! DEFINITION. The XOF core (42_xof.md R210 to R213, R217) and its commands SHAKE256, CSHAKE256 and KMACXOF256 (R214
to R216). -/

namespace Sys2Proof.Machine

/-- R210: the domain byte: 0x9F if it fills the last block exactly, else 0x1F. -/
def shakeSep (n : Nat) : Byte := if n % rateBytes = 135 then 0x9F else 0x1F

/-- R210: SHAKE256(in, L). -/
def shake256 (x : List Byte) (L : Nat) : List Byte := sponge (x ++ [shakeSep x.length]) L

/-- R211: prefix ‖ in ‖ 0x04, what cSHAKE256 absorbs when N or S is not empty. -/
def cshakeBody (x nm cs : List Byte) : List Byte :=
  bytepad (encodeString nm ++ encodeString cs) rateBytes ++ x ++ [0x04]

/-- R211: cSHAKE256(in, L, N, S). The literal rule at full-block lengths too (R217, 90_conflicts.md C5). -/
def cshake256 (x : List Byte) (L : Nat) (nm cs : List Byte) : List Byte :=
  if nm.length = 0 ∧ cs.length = 0 then shake256 x L else sponge (cshakeBody x nm cs) L

/-- R10, R212: the four ASCII bytes of "KMAC". -/
def kmacName : List Byte := [0x4B, 0x4D, 0x41, 0x43]

/-- R212: bytepad(encode_string(K), 136) ‖ X ‖ right_encode(0). -/
def kmacPayload (k x : List Byte) : List Byte := bytepad (encodeString k) rateBytes ++ x ++ rightEncode 0

/-- R212: KMACXOF256(K, X, L, S). -/
def kmacxof256 (k x : List Byte) (L : Nat) (cs : List Byte) : List Byte :=
  cshake256 (kmacPayload k x) L kmacName cs

/-- The shape of the one-shot commands with three input regions (R215, R216): inputs (ARG0, ARG1), (ARG2, ARG3) and
(ARG4, ARG5), output address ARG6, output bits L = ARG7. STATE is unchanged. -/
def oneShot3 (f : List Byte → List Byte → List Byte → Nat → List Byte) (s : State) : Result :=
  let o := s.argNat 6
  let L := s.argNat 7
  require (L % 8 == 0) .badBitlen s fun _ =>
  require (inBounds (s.argNat 0) (s.argNat 1)) .outOfBounds s fun _ =>
  require (inBounds (s.argNat 2) (s.argNat 3)) .outOfBounds s fun _ =>
  require (inBounds (s.argNat 4) (s.argNat 5)) .outOfBounds s fun _ =>
  require (inBounds o (L / 8)) .outOfBounds s fun _ =>
  require (!overlaps o (L / 8) (s.argNat 0) (s.argNat 1) && !overlaps o (L / 8) (s.argNat 2) (s.argNat 3)
    && !overlaps o (L / 8) (s.argNat 4) (s.argNat 5)) .overlap s fun _ =>
  memRead s (s.argNat 0) (s.argNat 1) fun x =>
  memRead s (s.argNat 2) (s.argNat 3) fun y =>
  memRead s (s.argNat 4) (s.argNat 5) fun z =>
  result (L / 8) (memWrite o (f x y z L) s)

/-- R214: SHAKE256. -/
def execShake256 (s : State) : Result := oneShot1 shake256 s

/-- R215: CSHAKE256, with in, N and S in ARG order. -/
def execCshake256 (s : State) : Result := oneShot3 (fun x nm cs L => cshake256 x L nm cs) s

/-- R216: KMACXOF256, with K, X and S in ARG order. -/
def execKmacxof256 (s : State) : Result := oneShot3 (fun k x cs L => kmacxof256 k x L cs) s

end Sys2Proof.Machine
end

