-- ==== Sys2Proof/Machine/Dispatch.lean ====
section
/-! DEFINITION. The meaning of every command: one arm per constructor (30_encoding.md R104, R108). -/

namespace Sys2Proof.Machine

def exec (i : Instr) (s : State) : Host.Outcome State Fault Refusal :=
  match i with
  | .keccakf => Sys2Proof.Machine.execKeccakf s
  | .sinit => Sys2Proof.Machine.execSinit s
  | .absorb => Sys2Proof.Machine.execAbsorb s
  | .absorbf => Sys2Proof.Machine.execAbsorbf s
  | .squeeze => Sys2Proof.Machine.execSqueeze s
  | .sponge => Sys2Proof.Machine.execSponge s
  | .lenc => Sys2Proof.Machine.execLenc s
  | .renc => Sys2Proof.Machine.execRenc s
  | .encstr => Sys2Proof.Machine.execEncstr s
  | .bytepad => Sys2Proof.Machine.execBytepad s
  | .shake256 => Sys2Proof.Machine.execShake256 s
  | .cshake256 => Sys2Proof.Machine.execCshake256 s
  | .kmacxof256 => Sys2Proof.Machine.execKmacxof256 s
  | .fmul fd fa fb => Sys2Proof.Machine.execFmul fd fa fb s
  | .padd pd pa pb => Sys2Proof.Machine.execPadd pd pa pb s
  | .smul pd pa fs => Sys2Proof.Machine.execSmul pd pa fs s
  | .ldg pd => Sys2Proof.Machine.execLdg pd s

end Sys2Proof.Machine
end

