-- ==== Sys2Proof/Machine/HostBus.lean ====
section
/-! DEFINITION. The host's accesses: the two windows, the register map, reads and writes while idle and while busy
(10_state.md R32 to R43, 20_memory.md R70 to R80, 70_reset_and_hazards.md R330 to R335). The write of CMD that issues
a command is in Engine.lean. -/

namespace Sys2Proof.Machine

/-! ## Where an access goes -/

/-- R32: the size of the register window in bytes. -/
abbrev regWindowBytes : Nat := 4096

/-- R33: the value of ID. -/
abbrev idValue : Word := 0x4B430007

/-- R34: the value of DMEMSZ. -/
def dmemszValue : Word := BitVec.ofNat 32 Config.dmemBytes

/-- The window and offset of a place, if it lies in a window. A bus address in both windows (a platform that maps
them over each other, R81) lies in neither: DESIGN CHOICE, safe (log entry 2). A bus access is placed by its first byte
alone, so one whose first byte is in one window only and whose later bytes are in both reaches that one window: DESIGN
CHOICE, unsafe (log entry 24). -/
def Place.locate : Place → Option (Window × Nat)
  | .offset .reg off => if off < regWindowBytes then some (.reg, off) else none
  | .offset .dmem off => if inBounds off 1 then some (.dmem, off) else none
  | .bus addr =>
    let inReg := decide (Config.regBase ≤ addr ∧ addr < Config.regBase + regWindowBytes)
    let inDmem := decide (Config.dmemBase ≤ addr ∧ addr < Config.dmemBase + Config.dmemBytes)
    match inReg, inDmem with
    | true, false => some (.reg, addr - Config.regBase)
    | false, true => some (.dmem, addr - Config.dmemBase)
    | _, _ => none

/-- R72, R73: the access widths of a window, in bytes. -/
def Window.allows : Window → Nat → Bool
  | .reg, width => width == 4
  | .dmem, width => width == 1 || width == 2 || width == 4

/-- R71 to R73: a host access the spec gives a meaning, before its effect `k`; any other is refused. DESIGN CHOICE,
unsafe (log entry 22): R73 does not say what a register access is aligned to on a platform whose `REG_BASE` is not a
multiple of 4; the model tests the offset in the window, as R72 says it for DMEM, and not the bus address. -/
def access (pl : Place) (width : Nat) (k : Window → Nat → Result) : Result :=
  match pl.locate with
  | none => .refused .outsideWindows
  | some (win, off) =>
    if win.allows width then
      if off % width = 0 then k win off else .refused .misaligned
    else .refused .accessWidth

/-- What a word of the register window is (R32). -/
inductive RegLoc where
  | id
  | dmemsz
  | status
  | cmd
  | rlen
  | arg (i : Fin 8)
  /-- lane k, low word (w = 0) or high word (w = 1) -/
  | lane (k : Fin 25) (w : Fin 2)
  /-- F register n, word w -/
  | fword (n : Fin 16) (w : Fin 14)
  /-- RAZ/WI: a reserved offset, or word 14 or 15 of an F slot (R43) -/
  | reserved
deriving DecidableEq, Repr

/-- R32: the register map, on a 4-aligned offset. -/
def regAt (off : Nat) : RegLoc :=
  if off = 0x000 then .id
  else if off = 0x004 then .dmemsz
  else if off = 0x008 then .status
  else if off = 0x00C then .cmd
  else if off = 0x010 then .rlen
  else if h : 0x020 ≤ off ∧ off < 0x040 then .arg ⟨(off - 0x020) / 4, by omega⟩
  else if h : 0x100 ≤ off ∧ off < 0x1C8 then .lane ⟨(off - 0x100) / 8, by omega⟩ ⟨off % 8 / 4, by omega⟩
  else if h : 0x200 ≤ off ∧ off < 0x600 ∧ off % 64 < 56 then
    .fword ⟨(off - 0x200) / 64, by omega⟩ ⟨off % 64 / 4, by omega⟩
  else .reserved

/-! ## Reads (R33 to R39, R72, R335) -/

/-- R12, R113: word w of lane k. -/
def State.laneWord (s : State) (k : Fin 25) (w : Fin 2) : Word := getWord s.lanes[k] w.val

/-- R39: word w of F[n]. -/
def State.fWord (s : State) (n : Fin 16) (w : Fin 14) : Word := getWord s.f[n] w.val

/-- The value a register read returns; none where it is unspecified: STATE and F while busy (R335). -/
def regValue (s : State) : RegLoc → Option Word
  | .id => some idValue
  | .dmemsz => some dmemszValue
  | .status => some s.status.word
  | .cmd => some s.cmd
  | .rlen => some s.rlen
  | .arg i => some s.arg[i]
  | .lane k w => if s.status.busy then none else some (s.laneWord k w)
  | .fword n w => if s.status.busy then none else some (s.fWord n w)
  | .reserved => some 0

/-- R72: the value a DMEM read of n bytes returns, zero-extended; none where a byte of it is unspecified: while busy
(R335), or a byte not written since reset (R88). -/
def dmemValue (s : State) (a n : Nat) : Option Word :=
  if s.status.busy then none
  else
    match Mem.bytes? s.dmem a n with
    | some bs => some (BitVec.ofNat 32 (leInt bs))
    | none => none

/-- R72, R88: byte a + i of a DMEM read, from a free word where it has no defined value. -/
def drawnByte (s : State) (free : Word) (a i : Nat) : Byte :=
  if s.status.busy then free.extractLsb' (8 * i) 8
  else
    match Mem.byte? s.dmem (a + i) with
    | some b => b
    | none => free.extractLsb' (8 * i) 8

/-- R88: the value of a DMEM read with an unspecified byte. The bytes that are written keep their values. -/
def drawnValue (s : State) (free : Word) (a n : Nat) : Word :=
  BitVec.ofNat 32 (leInt ((List.range n).map (drawnByte s free a)))

/-- A read returned `v`. No read has another effect (R80). -/
def reply (v : Word) (s : State) : State := { s with host := { s.host with replies := s.host.replies ++ [v] } }

/-- A read returned a value that depends on a free word; the next such read takes the next one. -/
def replyDrawn (v : Word) (s : State) : State :=
  { s with host := { s.host with replies := s.host.replies ++ [v], draws := s.host.draws + 1 } }

/-- A host read of a located, aligned place. -/
def hostRead (s : State) (width : Nat) (win : Window) (off : Nat) : State :=
  match win with
  | .reg =>
    match regValue s (regAt off) with
    | some v => reply v s
    | none => replyDrawn (Config.freeWord s.host.draws) s
  | .dmem =>
    match dmemValue s off width with
    | some v => reply v s
    | none => replyDrawn (drawnValue s (Config.freeWord s.host.draws) off width) s

/-! ## Writes (R33 to R39, R72, R334) -/

/-- R334: a write to CMD, ARG, STATE, F or DMEM is ignored while busy, and sets VIOL. -/
def whenIdle (s t : State) : State :=
  if s.status.busy then { s with status := s.status.violate } else t

/-- A host write to a register other than CMD (R32, R334). Read-only and reserved locations ignore it, busy or not,
and never set VIOL. A write to STATUS takes effect at any time (R36). -/
def regWrite (s : State) (v : Word) : RegLoc → State
  | .status => { s with status := s.status.w1c v }
  | .arg i => whenIdle s { s with arg := s.arg.set i v }
  | .lane k w => whenIdle s { s with lanes := s.lanes.set k (setWord s.lanes[k] w.val v) }
  | .fword n w => whenIdle s { s with f := s.f.set n (setWord s.f[n] w.val v) }
  | .id | .dmemsz | .rlen | .reserved | .cmd => s

/-- R72, R334: a host write of the low n bytes of v to DMEM. -/
def dmemWrite (s : State) (a n : Nat) (v : Word) : State := whenIdle s (memWrite a (leBytes v.toNat n) s)

/-! ## Reset (R330, R331) -/

/-- R330: reset, at any time, a command in flight included (R331). The engine takes its reset state, with no DMEM
byte defined; the host's side of the run goes on. -/
def applyReset (s : State) : State := { State.reset with host := s.host }

end Sys2Proof.Machine
end

