-- ==== Sys2Proof/Machine/Engine.lean ====
section
/-! DEFINITION. The engine's turn and the host's events (30_encoding.md R106 to R109, 60_exceptions.md R295,
70_reset_and_hazards.md R330 to R342). -/

namespace Sys2Proof.Machine

/-- R107, R108, R295: decode the word in CMD, and run the command to its completion; an illegal word completes with
ILLEGAL_CMD. -/
def runCommand (s : State) : Result :=
  match decode s.cmd with
  | .ok i => exec i s
  | .error _ => .next (errorComplete .illegalCmd s)

/-- The engine's turn: the command in flight completes. An idle engine does nothing (R307). -/
def engineTurn (s : State) : Result := if s.status.busy then runCommand s else .next s

/-- R37, R106: a host write of W to CMD while idle. R338: a command that would read unwritten DMEM faults here, at its
issue. DESIGN CHOICE, unsafe (log entry 23): R295 has an illegal word complete "at once", R339 gives every command an
unspecified latency; here an illegal word is in flight (BUSY = 1) after its issue, as any word is, and completes at the
engine's next turn. -/
def issueCommand (w : Word) (s : State) : Result :=
  match runCommand (issue w s) with
  | .fault r => .fault r
  | _ => .next (issue w s)

/-- R37, R334: a host write of W to CMD. -/
def cmdWrite (w : Word) (s : State) : Result :=
  if s.status.busy then .next { s with status := s.status.violate } else issueCommand w s

/-- A host write of a located, aligned place. -/
def hostWrite (s : State) (width : Nat) (v : Word) (win : Window) (off : Nat) : Result :=
  match win with
  | .reg => if regAt off = .cmd then cmdWrite v s else .next (regWrite s v (regAt off))
  | .dmem => .next (dmemWrite s off width v)

/-- R113: EXPECT reads STATUS and checks it. -/
def Expectation.holds (e : Expectation) (st : Status) : Bool :=
  match e with
  | .done => st.done
  | .err c => st.err && st.ecode.code == c

/-- R341, ending 2: a failed EXPECT stops the host's program, and keeps the failed expectation. -/
def checkExpect (e : Expectation) (s : State) : State :=
  if e.holds s.status then s else { s with host := { s.host with stopped := some e } }

/-- One event, already taken from the inbox. WAIT stays in the inbox while the engine is busy, and the engine has
its turn: the command in flight eventually completes (R339). -/
def takeEvent (op : HostOp) (s : State) : Result :=
  match op with
  | .write pl width v => access pl width (hostWrite s width v)
  | .read pl width => access pl width fun win off => .next (hostRead s width win off)
  | .wait =>
    if s.status.busy then runCommand { s with host := { s.host with inbox := .wait :: s.host.inbox } } else .next s
  | .expect e => .next (checkExpect e s)
  | .reset => .next (applyReset s)
  | .engine => engineTurn s

/-- The event is one of the host's own statements, not the engine's or the platform's. -/
def HostOp.ofHost : HostOp → Bool
  | .write _ _ _ | .read _ _ | .wait | .expect _ => true
  | .reset | .engine => false

/-- The state with its oldest event taken out. -/
def popInbox (s : State) : State := { s with host := { s.host with inbox := s.host.inbox.tail } }

/-- One step: the oldest event takes effect. With no event left only the engine moves: the command in flight completes
(R339; R341, a run whose last statement leaves BUSY = 1 is not over), and an idle engine stays as it is (R307). Once an
EXPECT has stopped the program the run is over, and nothing moves: its final state is the state at that statement, a
command in flight included (R341, ending 2). -/
def nextEvent (s : State) : Result :=
  match s.host.stopped, s.host.inbox with
  | some _, _ => .next s
  | none, op :: _ => takeEvent op (popInbox s)
  | none, [] => engineTurn s

/-- The state in which the very next step runs the command word w: w is issued (R106) and it is the engine's turn. -/
def placeCommand (w : Word) (s : State) : State :=
  issue w { s with host := { s.host with inbox := .engine :: s.host.inbox, stopped := none } }

end Sys2Proof.Machine
end

