-- ==== Sys2Proof/Machine/Step.lean ====
section
/-! DEFINITION. The step function, and how a command word is placed so that the next step runs it. -/

namespace Sys2Proof.Machine

/-- One step of the machine (R30: the host and the engine take turns, R83). -/
def step (s : State) : Host.Outcome State Fault Refusal := nextEvent s

/-- The engine fetches nothing (R31): its next command is the word in CMD while BUSY = 1. The word is issued (R106)
and the engine has the next turn, before any event already delivered. -/
def State.withFetchWord (s : State) (nbits w : Nat) : State := placeCommand (BitVec.ofNat 32 (w % 2 ^ nbits)) s

end Sys2Proof.Machine
end

