-- ==== Sys2Proof/Machine/Assembler.lean ====
section
/-! DEFINITION. The host program notation of 30_encoding.md R113, turned into the delivered access sequence, and the runs of
a host program (70_reset_and_hazards.md R341). -/

namespace Sys2Proof.Machine

/-- A statement of a host program (R113). -/
inductive Stmt where
  /-- `ARGi <- v` -/
  | setArg (i : Fin 8) (v : Word)
  /-- `S[k] <- v` -/
  | setLane (k : Fin 25) (v : Lane)
  /-- `F[n] <- v` -/
  | setF (n : Fin 16) (v : FElem)
  /-- `P[k] <- (x, y)` -/
  | setP (k : Fin 8) (x y : FElem)
  /-- `DMEM[a..] <- b0 b1 …` -/
  | setDmem (a : Nat) (bs : List Byte)
  /-- `CMD <- W` -/
  | cmd (w : Word)
  /-- `WAIT` -/
  | wait
  /-- `EXPECT DONE`, `EXPECT ERR c` -/
  | expect (e : Expectation)
  /-- `MNEMONIC operands` -/
  | run (i : Instr)
deriving DecidableEq, Repr

/-- A 32-bit write to the register window. -/
def regStore (off : Nat) (v : Word) : HostOp := .write (.offset .reg off) 4 v

/-- A 32-bit read of the register window. -/
def regLoad (off : Nat) : HostOp := .read (.offset .reg off) 4

/-- R113: fourteen 32-bit writes, one for each word of F[n]. -/
def storeF (n : Nat) (v : FElem) : List HostOp :=
  (List.range 14).map fun w => regStore (0x200 + 64 * n + 4 * w) (getWord v w)

/-- R113: 1-byte writes of the listed bytes to DMEM a, a + 1, … -/
def storeBytes (a : Nat) : List Byte → List HostOp
  | [] => []
  | b :: bs => .write (.offset .dmem a) 1 (b.setWidth 32) :: storeBytes (a + 1) bs

/-- R113: the accesses of a statement. -/
def Stmt.ops : Stmt → List HostOp
  | .setArg i v => [regStore (0x020 + 4 * i.val) v]
  | .setLane k v => [regStore (0x100 + 8 * k.val) (getWord v 0), regStore (0x104 + 8 * k.val) (getWord v 1)]
  | .setF n v => storeF n.val v
  | .setP k x y => storeF (2 * k.val) x ++ storeF (2 * k.val + 1) y
  | .setDmem a bs => storeBytes a bs
  | .cmd w => [regStore 0x00C w]
  | .wait => [.wait]
  | .expect e => [.expect e]
  | .run i => [regStore 0x00C (encode i), .wait]

/-- The accesses of a host program, with no event of the engine or the platform between them (see `Interleaves`). -/
def assemble (prog : List Stmt) : List HostOp := prog.flatMap Stmt.ops

/-! ## Runs (R341): where a run starts, and what comes between the host's accesses -/

/-- `evs` is the list of accesses `ops`, in order, with events of the kinds `between` at any moments: before, between and
after the accesses, any number of them. -/
inductive Interleaves (between : List HostOp) : List HostOp → List HostOp → Prop where
  | nil : Interleaves between [] []
  /-- the host's next access -/
  | host (op : HostOp) {ops evs : List HostOp} : Interleaves between ops evs → Interleaves between (op :: ops) (op :: evs)
  /-- another event comes first -/
  | other (op : HostOp) {ops evs : List HostOp} : op ∈ between → Interleaves between ops evs →
      Interleaves between ops (op :: evs)

/-- R108, R339: the latency of a command is unspecified, so the command in flight may complete between any two accesses. -/
def completions : List HostOp := [.engine]

/-- R330, R342: the platform may also apply reset at any moment (log entry 21: which of the two a claim is about, it says). -/
def completionsAndResets : List HostOp := [.engine, .reset]

/-- The state s with the events of a run delivered, and none of them taken. -/
def startFrom (s : State) (evs : List HostOp) : State := { s with host := { s.host with inbox := evs, stopped := none } }

/-- R341: `s` is the start of a run of the host program `prog` from the stated start state `s0`: BUSY = 0 in s0 (no state
has a fault recorded: a step that faults leaves none), and the events delivered are the program's accesses, in order, with
completions (and resets, if `between` holds them) at any moments. A claim about a run is a claim about every such s. -/
def IsRun (between : List HostOp) (s0 : State) (prog : List Stmt) (s : State) : Prop :=
  s0.status.busy = false ∧ ∃ evs, Interleaves between (assemble prog) evs ∧ s = startFrom s0 evs

/-- One run of a host program from a start state: the one in which a command issued without a WAIT stays in flight until the
next WAIT or the program's end. DESIGN CHOICE, unsafe (log entry 21): it fixes the moments of completion, which R108 and
R339 leave open; `IsRun` is every run of the program. -/
def startRunFrom (s0 : State) (prog : List Stmt) : State := startFrom s0 (assemble prog)

/-- R332, R341: that run from the state right after reset. -/
def startRun (prog : List Stmt) : State := startRunFrom State.reset prog

end Sys2Proof.Machine
end

