-- ==== Sys2Proof/Safety.lean ====
section
/-! DEFINITION. What claims about runs are said in: the invariant, the safe step, reachability and the ends of a run. -/

namespace Sys2Proof.Machine

/-! ## Regions and byte strings, in the rules' own words -/

/-- R76: the region (a, n) is in bounds. -/
def InDmem (a n : Nat) : Prop := n = 0 ∨ a + n ≤ Config.dmemBytes

/-- R77: two regions overlap. -/
def Overlap (a1 n1 a2 n2 : Nat) : Prop := 0 < n1 ∧ 0 < n2 ∧ a1 < a2 + n2 ∧ a2 < a1 + n1

/-- The bytes of DMEM from address a up are x, all written. -/
def HoldsBytes (m : Mem) (a : Nat) (x : List Byte) : Prop :=
  ∀ (j : Nat) (h : j < x.length), m.byte? (a + j) = some x[j]

/-- R103: the ARG registers that hold the address and the length of each input region of a command, in ARG order. -/
def Instr.inputArgs : Instr → List (Fin 8 × Fin 8)
  | .absorb | .absorbf | .sponge | .encstr | .bytepad | .shake256 => [(0, 1)]
  | .cshake256 | .kmacxof256 => [(0, 1), (2, 3), (4, 5)]
  | .keccakf | .sinit | .squeeze | .lenc | .renc => []
  | .fmul _ _ _ | .padd _ _ _ | .smul _ _ _ | .ldg _ => []

/-- A DMEM byte of an input region of the command has not been written since reset (R338). -/
def ReadsUnwritten (i : Instr) (s : State) : Prop :=
  ∃ r ∈ Instr.inputArgs i, ∃ j < s.argNat r.2, Mem.byte? s.dmem (s.argNat r.1 + j) = none

/-! ## What a completed command leaves (R109, R296) -/

/-- R109: the state after a successful completion of a command that wrote n output bytes to DMEM and left STATE, F
and DMEM as given. ARG, CMD, ERR, VIOL and the host's side are unchanged. -/
def succeeded (s : State) (n : Nat) (lanes : Lanes) (f : Vector FElem 16) (dmem : Mem) : State :=
  { s with
    status := { s.status with busy := false, done := true, ecode := .noError }
    rlen := BitVec.ofNat 32 n
    lanes := lanes
    f := f
    dmem := dmem
    work := zeroLanes }

/-- R296: the state after an error completion with code c: only STATUS and the private state differ. -/
def failed (s : State) (c : ErrCode) : State :=
  { s with
    status := { s.status with busy := false, err := true, ecode := c }
    work := zeroLanes }

/-- DMEM after an output string x at address o, and nothing else, has been written to it (R78). -/
structure WroteAt (before after : Mem) (o : Nat) (x : List Byte) : Prop where
  inside : HoldsBytes after o x
  outside : ∀ a, ¬ (o ≤ a ∧ a < o + x.length) → after.byte? a = before.byte? a

/-! ## The invariant -/

/-- What every step keeps of STATUS and RLEN (R35, R36, R109, R296): while busy, DONE, ERR, ECODE and RLEN are 0; DONE
and ERR are never both set; DONE comes with ECODE 0; ERR comes with a code; a code comes with RLEN 0. -/
structure State.StatusInv (s : State) : Prop where
  busy_clear : s.status.busy = true →
    s.status.done = false ∧ s.status.err = false ∧ s.status.ecode = .noError ∧ s.rlen = 0
  done_no_code : s.status.done = true → s.status.err = false ∧ s.status.ecode = .noError
  err_has_code : s.status.err = true → s.status.ecode ≠ .noError
  code_no_output : s.status.ecode ≠ .noError → s.rlen = 0

/-- The invariant of the engine: DMEM is in canonical form and inside DMEM, STATUS is consistent, and the private
working state is zero between steps (R46). -/
structure State.Inv (s : State) : Prop where
  dmem_wf : Mem.wf s.dmem
  dmem_inside : ∀ c ∈ s.dmem, c.1 < Config.dmemBytes
  status : s.StatusInv
  work_zero : s.work = zeroLanes

/-! ## Runs (R341) -/

/-- The step neither faults nor is refused. -/
def State.SafeStep (s : State) : Prop := ∃ t, step s = .next t

/-- Ending 1 at this state: the host has executed its last statement (no event left is the host's), no EXPECT has failed,
and BUSY = 0. An event of the platform that is still delivered comes after the end of the run. A run whose last statement
leaves BUSY = 1 is not over. -/
def State.completed (s : State) : Prop :=
  (∀ op ∈ s.host.inbox, op.ofHost = false) ∧ s.host.stopped = none ∧ s.status.busy = false

/-- Ending 2 at this state, with the failed expectation. A step from it changes nothing (`nextEvent`), so it is the state
at the EXPECT. -/
def State.expectStopped (s : State) (e : Expectation) : Prop := s.host.stopped = some e

/-- The run is over at this state, and its state is final. -/
def State.over (s : State) : Prop := s.completed ∨ ∃ e, s.expectStopped e

/-- The states that a run goes through from `s` on, to its end: no step is taken from a state where the run is over. -/
inductive Leads (s : State) : State → Prop where
  | refl : Leads s s
  | tail {t u : State} : Leads s t → ¬ t.over → step t = .next u → Leads s u

/-- R341: what the final state of a run is: STATUS, CMD, RLEN, ARG, STATE, F and the written bytes of DMEM (R32 to R44).
Neither what the host's reads returned nor the model's other bookkeeping is part of it. -/
structure FinalState where
  status : Status
  cmd : Word
  rlen : Word
  arg : Vector Word 8
  lanes : Lanes
  f : Vector FElem 16
  dmem : List Host.Cell
deriving DecidableEq, Repr

/-- The architectural part of a state (R32 to R44, R341). -/
def State.final (s : State) : FinalState := ⟨s.status, s.cmd, s.rlen, s.arg, s.lanes, s.f, s.dmem⟩

/-- R341: the four ways a run ends. A faulted and a refused run have no final state. -/
inductive RunEnd where
  /-- ending 1: the host has executed its last statement and BUSY = 0 -/
  | completed (final : FinalState)
  /-- ending 2: an EXPECT found a different completion; the state at that statement and the failed expectation -/
  | expectStopped (final : FinalState) (failed : Expectation)
  /-- ending 3: a command read unwritten DMEM (R338) -/
  | faulted (r : Fault)
  /-- ending 4: the host made an access without a meaning (R71 to R73) -/
  | refused (r : Refusal)
deriving DecidableEq, Repr

/-- Ending 3 at this state: the step faults. -/
def State.faulted (s : State) (r : Fault) : Prop := step s = .fault r

/-- Ending 4 at this state: the step is refused. -/
def State.refused (s : State) (r : Refusal) : Prop := step s = .refused r

/-- R341: the run that continues from `s` ends in this way. -/
inductive State.Ends (s : State) : RunEnd → Prop where
  | completed {t : State} : Leads s t → t.completed → State.Ends s (.completed t.final)
  | expectStopped {t : State} {e : Expectation} : Leads s t → t.expectStopped e → State.Ends s (.expectStopped t.final e)
  | faulted {t : State} {r : Fault} : Leads s t → t.faulted r → State.Ends s (.faulted r)
  | refused {t : State} {r : Refusal} : Leads s t → t.refused r → State.Ends s (.refused r)

end Sys2Proof.Machine
end

