-- ==== Sys2Proof/Certificates/Slice0/Obligations.lean ====
section
/-! DEFINITION. The statements about the model, for the provers. Each docstring names the rule it formalises. Every
statement holds for every value of the opaque constants of Config and of the model's own fields (`host.draws`). -/

open Sys2Proof Sys2Proof.Machine

/-! ## Encoding -/

/-- R114: the worked encodings, both ways, and the two words that encode no command. -/
def Obligations.WorkedWordsDecode : Prop :=
  encode (.fmul 3 1 2) = 0x00021340 ∧ decode 0x00021340 = .ok (.fmul 3 1 2) ∧
  encode (.padd 2 0 1) = 0x00010241 ∧ decode 0x00010241 = .ok (.padd 2 0 1) ∧
  encode (.smul 1 0 5) = 0x00050142 ∧ decode 0x00050142 = .ok (.smul 1 0 5) ∧
  encode (.ldg 0) = 0x00000043 ∧ decode 0x00000043 = .ok (.ldg 0) ∧
  encode .kmacxof256 = 0x00000032 ∧ decode 0x00000032 = .ok .kmacxof256 ∧
  (∃ r, decode 0x00000841 = .error r) ∧ (∃ r, decode 0x00100010 = .error r)

/-- R100, R101, R104: decoding the word of a well-formed command gives the command back, with every operand at every
value its format admits. -/
def Obligations.DecodeOfEncode : Prop :=
  ∀ i : Instr, i.wellFormed = true → decode (encode i) = .ok i

/-- R101, R105, R107: a word that decodes is the encoding of what it decodes to, which is well formed; so no bit of a
legal word is ignored. -/
def Obligations.LegalWordIsItsEncoding : Prop :=
  ∀ (w : Word) (i : Instr), decode w = .ok i → i.wellFormed = true ∧ encode i = w

/-- R107: a word is compared with the rows by mask and match; at most one row matches; a matching row gives the
command; if no row matches, the command stops with ILLEGAL_CMD. -/
def Obligations.MatchingRowIsTheCommand : Prop :=
  opcodeRows.Pairwise (fun r r' => ∀ w : Word, ¬ (w &&& r.mask = r.pattern ∧ w &&& r'.mask = r'.pattern)) ∧
  (∀ (w : Word) (r : Row), r ∈ opcodeRows → w &&& r.mask = r.pattern → decode w = .ok (r.build w)) ∧
  ∀ s : State, (∀ r ∈ opcodeRows, ¬ s.cmd &&& r.mask = r.pattern) →
    runCommand s = .next (failed s .illegalCmd)

/-- R101, R105: which words are legal, by opcode and format. -/
def Obligations.LegalWords : Prop :=
  ∀ w : Word, (∃ i, decode w = .ok i) ↔
    rsvField w = 0 ∧
    ((opcField w ∈ [0x10, 0x11, 0x12, 0x13, 0x14, 0x15, 0x20, 0x21, 0x22, 0x23, 0x30, 0x31, 0x32] ∧
        rdField w = 0 ∧ raField w = 0 ∧ rbField w = 0) ∨
      opcField w = 0x40 ∨
      (opcField w = 0x41 ∧ rdField w < 8 ∧ raField w < 8 ∧ rbField w < 8) ∨
      (opcField w = 0x42 ∧ rdField w < 8 ∧ raField w < 8) ∨
      (opcField w = 0x43 ∧ rdField w < 8 ∧ raField w = 0 ∧ rbField w = 0))

/-! ## The step -/

/-- The model's own form of R83 and R307: while the program is not stopped, a step lets the oldest event of host.inbox
take effect; with no event delivered, an idle engine changes nothing. That a run's input is such a list, and the idle
step, are the model's choice (log entry 3), and so is host.stopped (log entry 15). -/
def Obligations.StepTakesOldestEvent : Prop :=
  (∀ (s : State) (op : HostOp) (rest : List HostOp), s.host.stopped = none → s.host.inbox = op :: rest →
    step s = takeEvent op { s with host := { s.host with inbox := rest } }) ∧
  ∀ s : State, s.status.busy = false → s.host.inbox = [] → step s = .next s

/-- When the word in CMD decodes and a command is in flight, the engine's turn executes the decoded command (R107,
R108). When it has its turn is the model's choice (log entries 4 and 15), while no EXPECT has stopped the program: on its
own event, on a WAIT (which stays delivered), and with no event left. -/
def Obligations.StepRunsDecodedCommand : Prop :=
  ∀ (s : State) (i : Instr), s.status.busy = true → decode s.cmd = .ok i →
    (∀ rest, s.host.stopped = none → s.host.inbox = .engine :: rest →
      step s = exec i { s with host := { s.host with inbox := rest } }) ∧
    (∀ rest, s.host.stopped = none → s.host.inbox = .wait :: rest → step s = exec i s) ∧
    (s.host.stopped = none → s.host.inbox = [] → step s = exec i s)

/-- The model's own placing of a command word (log entry 3): the next step executes it, in the state its issue (R106)
leaves. -/
def Obligations.PlacedWordRunsNext : Prop :=
  ∀ (s : State) (w : Word) (i : Instr), decode w = .ok i →
    step (s.withFetchWord 32 w.toNat) =
      exec i { s with
        status := { s.status with busy := true, done := false, err := false, ecode := .noError }
        cmd := w
        rlen := 0
        work := zeroLanes
        host := { s.host with stopped := none } }

/-- R295: an illegal word written to CMD while the engine is idle is issued, and completes with ECODE = 0x01; ARG,
STATE, F and DMEM are not written. The rule's three examples are illegal. That the word is in flight in a state of its own
(t.status.busy = true) and completes at a later turn of the engine is the model's choice (log entry 23): R295 and D48 say
that it completes "at once". -/
def Obligations.IllegalWordCompletes : Prop :=
  (∀ (s : State) (w : Word) (r : Reject), s.status.busy = false → decode w = .error r →
    ∃ t u, takeEvent (regStore 0x00C w) s = .next t ∧ t.cmd = w ∧ t.status.busy = true ∧
      engineTurn t = .next u ∧ u.status.busy = false ∧ u.status.err = true ∧ u.status.done = false ∧
      u.status.ecode.code = 0x01 ∧ u.status.viol = s.status.viol ∧ u.rlen = 0 ∧ u.cmd = w ∧
      u.arg = s.arg ∧ u.lanes = s.lanes ∧ u.f = s.f ∧ u.dmem = s.dmem) ∧
  (∃ r, decode 0x00000000 = .error r) ∧ (∃ r, decode 0x00000841 = .error r) ∧ (∃ r, decode 0x00100010 = .error r)

/-- R37, R106: a write of W to CMD while idle issues it, whatever the word: CMD <- W, BUSY <- 1, DONE, ERR, ECODE and
RLEN <- 0; VIOL and all else the engine holds are unchanged, so the operands the command finds are those at issue. The
premise leaves out only a command that would read unwritten DMEM: its issue is a fault (R338). That an illegal word too
leaves a state with BUSY = 1 is the model's choice (log entry 23). -/
def Obligations.CmdWriteIssues : Prop :=
  ∀ (s : State) (w : Word), s.status.busy = false →
    (∀ i, decode w = .ok i → exec i (issue w s) ≠ .fault .unwrittenInput) →
    takeEvent (regStore 0x00C w) s =
      .next { s with
        status := ⟨true, false, false, s.status.viol, .noError⟩
        cmd := w
        rlen := 0
        work := zeroLanes }

/-- Executing a command is never refused; it faults exactly when none of its checks fails and an input region holds an
unwritten byte; and it faults already at its issue. The fault at issue is R338's; that a command whose check fails
completes with its error instead is the model's deduction (log entry 6). -/
def Obligations.FaultsExactlyOnUnwrittenInput : Prop :=
  (∀ (i : Instr) (s : State),
    (∀ r, exec i s ≠ .refused r) ∧
    (exec i s = .fault .unwrittenInput ↔ (∀ c, exec i s ≠ .next (failed s c)) ∧ ReadsUnwritten i s)) ∧
  ∀ (s : State) (w : Word) (i : Instr), s.status.busy = false → decode w = .ok i →
    exec i (issue w s) = .fault .unwrittenInput →
    takeEvent (regStore 0x00C w) s = .fault .unwrittenInput

/-- A WAIT ends (R113, R339, which give no number of steps), and so does a run, in one way. First clause: if the command
in flight runs to a completion, two steps bring a host that waits to its next event, with BUSY = 0. Second clause (R341):
from every state, so from the start of every run, the run ends as completed, expect-stopped, faulted or refused, and with
one end only, final state and failed expectation included; a completed run is over at the first state where the host has
executed its last statement and BUSY = 0. That the command completes in one step at the WAIT, that the
WAIT stays delivered until then, and that an expect-stopped run moves no more, are the model's choice (log entries 4 and
15). -/
def Obligations.WaitsAndRunsEnd : Prop :=
  (∀ (s u : State) (rest : List HostOp), s.host.stopped = none → s.host.inbox = .wait :: rest →
    s.status.busy = true → runCommand s = .next u →
    ∃ t, Host.Core.run core 2 s = .next t ∧ t.host.inbox = rest ∧ t.status.busy = false ∧
      t = { u with host := { u.host with inbox := rest } }) ∧
  ∀ s : State, ∃ e, s.Ends e ∧ ∀ e', s.Ends e' → e' = e

/-- EXPECT, in the model's own form of R113 and R341: one that finds what it expects changes nothing; one that does not
keeps the state at that statement, with the failed expectation in host.stopped, and from then on nothing changes: no
event is taken, and a command in flight does not complete, so the state at the EXPECT is the final one. The field and the
STATUS read that is not logged are the model's choice (log entry 15). -/
def Obligations.ExpectStopsOnMismatch : Prop :=
  (∀ s : State, s.status.done = true → takeEvent (.expect .done) s = .next s) ∧
  (∀ (s : State) (c : ErrCode), s.status.err = true → s.status.ecode = c →
    takeEvent (.expect (.err c.code)) s = .next s) ∧
  (∀ s : State, s.status.done = false →
    takeEvent (.expect .done) s = .next { s with host := { s.host with stopped := some .done } }) ∧
  (∀ (s : State) (b : Byte), s.status.err = false ∨ s.status.ecode.code ≠ b →
    takeEvent (.expect (.err b)) s = .next { s with host := { s.host with stopped := some (.err b) } }) ∧
  ∀ s : State, s.host.stopped ≠ none → step s = .next s

/-! ## The host's accesses -/

/-- R334: while busy, a write to CMD, ARG, STATE, F words 0 to 13 or any DMEM byte is ignored and sets VIOL; a write
to STATUS takes effect and does not set VIOL; writes to ID, DMEMSZ, RLEN and reserved locations are ignored and do
not set VIOL. -/
def Obligations.BusyWritesIgnored : Prop :=
  ∀ (s : State) (v : Word), s.status.busy = true →
    (∀ off, off % 4 = 0 →
      off = 0x00C ∨ (0x020 ≤ off ∧ off < 0x040) ∨ (0x100 ≤ off ∧ off < 0x1C8) ∨
        (0x200 ≤ off ∧ off < 0x600 ∧ off % 64 < 56) →
      takeEvent (regStore off v) s = .next { s with status := { s.status with viol := true } }) ∧
    (∀ a n, n = 1 ∨ n = 2 ∨ n = 4 → a % n = 0 → a < Config.dmemBytes →
      takeEvent (.write (.offset .dmem a) n v) s = .next { s with status := { s.status with viol := true } }) ∧
    takeEvent (regStore 0x008 v) s = .next { s with status := { s.status with
      done := s.status.done && !v.getLsbD 1
      err := s.status.err && !v.getLsbD 2
      viol := s.status.viol && !v.getLsbD 3 } } ∧
    (∀ off, off % 4 = 0 →
      off = 0x000 ∨ off = 0x004 ∨ (0x010 ≤ off ∧ off < 0x020) ∨ (0x040 ≤ off ∧ off < 0x100) ∨
        (0x1C8 ≤ off ∧ off < 0x200) ∨ (0x200 ≤ off ∧ off < 0x600 ∧ 56 ≤ off % 64) ∨ (0x600 ≤ off ∧ off < 0x1000) →
      takeEvent (regStore off v) s = .next s)

/-- R36: the bits of STATUS as the host reads it, and what a host write to it does at any time. -/
def Obligations.StatusRegister : Prop :=
  (∀ st : Status, st.word.getLsbD 0 = st.busy ∧ st.word.getLsbD 1 = st.done ∧ st.word.getLsbD 2 = st.err ∧
    st.word.getLsbD 3 = st.viol ∧ st.word.extractLsb' 4 4 = 0 ∧ st.word.extractLsb' 8 8 = st.ecode.code ∧
    st.word.extractLsb' 16 16 = 0) ∧
  ∀ (s : State) (v : Word), ∃ st : Status,
    takeEvent (regStore 0x008 v) s = .next { s with status := st } ∧
    st.busy = s.status.busy ∧ st.ecode = s.status.ecode ∧
    st.done = (s.status.done && !v.getLsbD 1) ∧ st.err = (s.status.err && !v.getLsbD 2) ∧
    st.viol = (s.status.viol && !v.getLsbD 3)

/-- R33, R34, R43: ID, DMEMSZ and every reserved location read as the rules say at any time, and a host write to one
changes nothing, VIOL included. Nor does a host write to RLEN, busy or idle (R35's last sentence). -/
def Obligations.ConstantAndReservedRegisters : Prop :=
  ∀ s : State,
    takeEvent (regLoad 0x000) s =
      .next { s with host := { s.host with replies := s.host.replies ++ [0x4B430007] } } ∧
    takeEvent (regLoad 0x004) s =
      .next { s with host := { s.host with replies := s.host.replies ++ [BitVec.ofNat 32 Config.dmemBytes] } } ∧
    (∀ off, off % 4 = 0 →
      (0x014 ≤ off ∧ off < 0x020) ∨ (0x040 ≤ off ∧ off < 0x100) ∨ (0x1C8 ≤ off ∧ off < 0x200) ∨
        (0x200 ≤ off ∧ off < 0x600 ∧ 56 ≤ off % 64) ∨ (0x600 ≤ off ∧ off < 0x1000) →
      takeEvent (regLoad off) s = .next { s with host := { s.host with replies := s.host.replies ++ [0] } } ∧
      ∀ v, takeEvent (regStore off v) s = .next s) ∧
    ∀ v, takeEvent (regStore 0x000 v) s = .next s ∧ takeEvent (regStore 0x004 v) s = .next s ∧
      takeEvent (regStore 0x010 v) s = .next s

/-- R38, R39, R41: while idle, a host write to ARG, a STATE lane word or an F word stores the word there; every other
word of the window keeps its value, and nothing but ARG, STATE and F changes. -/
def Obligations.IdleRegisterStores : Prop :=
  ∀ (s : State) (off : Nat) (v : Word), s.status.busy = false → off % 4 = 0 →
    (0x020 ≤ off ∧ off < 0x040) ∨ (0x100 ≤ off ∧ off < 0x1C8) ∨ (0x200 ≤ off ∧ off < 0x600 ∧ off % 64 < 56) →
    ∃ arg lanes f, takeEvent (regStore off v) s = .next { s with arg := arg, lanes := lanes, f := f } ∧
      regValue { s with arg := arg, lanes := lanes, f := f } (regAt off) = some v ∧
      ∀ off', off' % 4 = 0 → off' < 0x1000 → off' ≠ off →
        regValue { s with arg := arg, lanes := lanes, f := f } (regAt off') = regValue s (regAt off')

/-- R35, R37, R38, R39, R41: while idle, a host read of ARG, of a STATE lane word, of an F word, of CMD, RLEN or
STATUS returns the register's own word: lane k at 0x100 + 8k and 0x104 + 8k, word w of F[n] at 0x200 + 64n + 4w. -/
def Obligations.IdleRegisterReads : Prop :=
  ∀ s : State, s.status.busy = false →
    (∀ i : Fin 8, takeEvent (regLoad (0x020 + 4 * i.val)) s = .next (reply s.arg[i] s)) ∧
    (∀ k : Fin 25, takeEvent (regLoad (0x100 + 8 * k.val)) s = .next (reply (s.lanes[k].extractLsb' 0 32) s) ∧
      takeEvent (regLoad (0x104 + 8 * k.val)) s = .next (reply (s.lanes[k].extractLsb' 32 32) s)) ∧
    (∀ (n : Fin 16) (w : Fin 14), takeEvent (regLoad (0x200 + 64 * n.val + 4 * w.val)) s =
      .next (reply (s.f[n].extractLsb' (32 * w.val) 32) s)) ∧
    takeEvent (regLoad 0x00C) s = .next (reply s.cmd s) ∧
    takeEvent (regLoad 0x010) s = .next (reply s.rlen s) ∧
    takeEvent (regLoad 0x008) s = .next (reply s.status.word s)

/-- Host reads while busy. First clause, R335: STATUS reads BUSY = 1, DONE = 0, ERR = 0, ECODE = 0, RLEN reads 0, CMD
the word in flight and ARG what it holds; ID, DMEMSZ and reserved locations read as always. Second clause, the model's
form of R335's unspecified value (log entry 7): a read of STATE, F or DMEM returns a free value, a function of the
width and of host.draws alone, and the counter advances; so it depends on nothing the engine holds. The premise is the
invariant of STATUS (`StepKeepsInv`). -/
def Obligations.BusyReads : Prop :=
  (∀ s : State, s.status.busy = true → s.StatusInv →
    takeEvent (regLoad 0x008) s = .next (reply (if s.status.viol then 9 else 1) s) ∧
    takeEvent (regLoad 0x00C) s = .next (reply s.cmd s) ∧
    takeEvent (regLoad 0x010) s = .next (reply 0 s) ∧
    takeEvent (regLoad 0x000) s = .next (reply 0x4B430007 s) ∧
    takeEvent (regLoad 0x004) s = .next (reply (BitVec.ofNat 32 Config.dmemBytes) s) ∧
    (∀ off, off % 4 = 0 →
      (0x014 ≤ off ∧ off < 0x020) ∨ (0x040 ≤ off ∧ off < 0x100) ∨ (0x1C8 ≤ off ∧ off < 0x200) ∨
        (0x200 ≤ off ∧ off < 0x600 ∧ 56 ≤ off % 64) ∨ (0x600 ≤ off ∧ off < 0x1000) →
      takeEvent (regLoad off) s = .next (reply 0 s)) ∧
    ∀ i : Fin 8, takeEvent (regLoad (0x020 + 4 * i.val)) s = .next (reply s.arg[i] s)) ∧
  ∃ g : Nat → Nat → Word, ∀ s : State, s.status.busy = true →
    (∀ off, off % 4 = 0 → (0x100 ≤ off ∧ off < 0x1C8) ∨ (0x200 ≤ off ∧ off < 0x600 ∧ off % 64 < 56) →
      takeEvent (regLoad off) s = .next (replyDrawn (g 4 s.host.draws) s)) ∧
    ∀ a n, n = 1 ∨ n = 2 ∨ n = 4 → a % n = 0 → a < Config.dmemBytes →
      takeEvent (.read (.offset .dmem a) n) s = .next (replyDrawn (g n s.host.draws) s)

/-- R72, R75, R87: while idle, an aligned write of n bytes to DMEM stores byte i of the value at a + i and changes no
other byte; and an aligned read of n written bytes returns them composed little-endian, whatever widths wrote them. A
read completes whether the bytes are written or not (R88). -/
def Obligations.DmemAccess : Prop :=
  ∀ (s : State) (a n : Nat), s.status.busy = false → n = 1 ∨ n = 2 ∨ n = 4 → a % n = 0 → a < Config.dmemBytes →
    (∀ v : Word, ∃ m, takeEvent (.write (.offset .dmem a) n v) s = .next { s with dmem := m } ∧
      (∀ i < n, Mem.byte? m (a + i) = some (v.extractLsb' (8 * i) 8)) ∧
      ∀ b, ¬ (a ≤ b ∧ b < a + n) → Mem.byte? m b = Mem.byte? s.dmem b) ∧
    (∀ v : Word, v.toNat < 2 ^ (8 * n) → (∀ i < n, Mem.byte? s.dmem (a + i) = some (v.extractLsb' (8 * i) 8)) →
      takeEvent (.read (.offset .dmem a) n) s = .next (reply v s)) ∧
    ∃ v h, takeEvent (.read (.offset .dmem a) n) s = .next { s with host := h } ∧
      h.replies = s.host.replies ++ [v] ∧ h.inbox = s.host.inbox ∧ h.stopped = s.host.stopped

/-- R71, R72, R73: an access of another width, a misaligned access and an access outside the windows are refused,
busy or idle, read or write. -/
def Obligations.MeaninglessAccessRefused : Prop :=
  ∀ (s : State) (win : Window) (off n : Nat) (v : Word),
    (win = .reg ∧ n ≠ 4) ∨ (win = .dmem ∧ n ≠ 1 ∧ n ≠ 2 ∧ n ≠ 4) ∨ off % n ≠ 0 ∨
      (win = .reg ∧ 0x1000 ≤ off) ∨ (win = .dmem ∧ Config.dmemBytes ≤ off) →
    (∃ r, takeEvent (.write (.offset win off) n v) s = .refused r) ∧
    ∃ r, takeEvent (.read (.offset win off) n) s = .refused r

/-- R70, R71: a bus address in one window, and not in the other, reaches the byte at that offset of the window. An
address in both windows is left out: the model's choice of log entry 2 refuses it. That an access whose first byte is in
one window only is placed by that byte, although later bytes may be in both, is the model's choice (log entry 24). Where REG_BASE is not a multiple of 4,
that a register access by bus address has the alignment of its offset is the model's choice (log entry 22): R73 does not
say which of the two is aligned. -/
def Obligations.BusAddressesReachWindows : Prop :=
  ∀ (s : State) (off n : Nat) (v : Word),
    (off < 4096 → ¬ (Config.dmemBase ≤ Config.regBase + off ∧
        Config.regBase + off < Config.dmemBase + Config.dmemBytes) →
      takeEvent (.write (.bus (Config.regBase + off)) n v) s = takeEvent (.write (.offset .reg off) n v) s ∧
      takeEvent (.read (.bus (Config.regBase + off)) n) s = takeEvent (.read (.offset .reg off) n) s) ∧
    (off < Config.dmemBytes → ¬ (Config.regBase ≤ Config.dmemBase + off ∧
        Config.dmemBase + off < Config.regBase + 4096) →
      takeEvent (.write (.bus (Config.dmemBase + off)) n v) s = takeEvent (.write (.offset .dmem off) n v) s ∧
      takeEvent (.read (.bus (Config.dmemBase + off)) n) s = takeEvent (.read (.offset .dmem off) n) s)

/-- R80: no read of any location has a side effect on the engine. -/
def Obligations.ReadsHaveNoSideEffect : Prop :=
  ∀ (s t : State) (pl : Place) (n : Nat), takeEvent (.read pl n) s = .next t →
    t.host.inbox = s.host.inbox ∧ t.host.stopped = s.host.stopped ∧ t = { s with host := t.host }

/-- R113, R39: the fourteen writes of `F[n] <- v` while idle leave F[n] = v and change nothing else. -/
def Obligations.StoredFRegister : Prop :=
  ∀ (s : State) (n : Fin 16) (v : FElem) (rest : List HostOp), s.status.busy = false → s.host.stopped = none →
    s.host.inbox = (Stmt.setF n v).ops ++ rest →
    Host.Core.run core 14 s = .next { s with f := s.f.set n v, host := { s.host with inbox := rest } }

/-! ## Reset, invariant and whole-machine rules -/

/-- R47, R330, R331: the value of every piece of state right after reset; and reset at any time, a command in flight or
not, gives the engine that state. -/
def Obligations.ResetValues : Prop :=
  (∀ s : State, ∃ h, takeEvent .reset s = .next { State.reset with host := h }) ∧
  State.reset.status.word = 0 ∧ State.reset.status.busy = false ∧ State.reset.cmd = 0 ∧ State.reset.rlen = 0 ∧
  (∀ i : Fin 8, State.reset.arg[i] = 0) ∧ (∀ k : Fin 25, State.reset.lanes[k] = 0) ∧
  (∀ n : Fin 16, State.reset.f[n] = 0) ∧ (∀ k : Fin 25, State.reset.work[k] = 0) ∧
  (∀ a, Mem.byte? State.reset.dmem a = none) ∧
  regValue State.reset (regAt 0x000) = some 0x4B430007 ∧
  regValue State.reset (regAt 0x004) = some (BitVec.ofNat 32 Config.dmemBytes)

/-- The invariant holds right after reset. -/
def Obligations.ResetHasInv : Prop := State.reset.Inv

/-- R35, R36, R46, R109, R296: every step keeps the invariant, from every state that meets it: DMEM stays in canonical
form and inside DMEM; STATUS and RLEN stay consistent; the private working state is zero between steps. -/
def Obligations.StepKeepsInv : Prop :=
  ∀ s t : State, s.Inv → step s = .next t → t.Inv

/-- R14, R334: while busy, a host access changes nothing a command reads or writes: only VIOL, and the flags a STATUS
write clears, can change. -/
def Obligations.OperandsFrozenWhileBusy : Prop :=
  ∀ (s t : State) (op : HostOp), s.status.busy = true →
    (∃ pl n v, op = .write pl n v) ∨ (∃ pl n, op = .read pl n) → takeEvent op s = .next t →
    t.status.busy = true ∧ t.cmd = s.cmd ∧ t.rlen = s.rlen ∧ t.arg = s.arg ∧ t.lanes = s.lanes ∧ t.f = s.f ∧
      t.dmem = s.dmem ∧ t.work = s.work ∧ t.status.ecode = s.status.ecode

/-- R14, R334: a command's results do not depend on when it completes. Whatever reads and writes the host makes in
the busy window, the command leaves the STATE, F, DMEM, ARG, CMD, RLEN, BUSY, DONE, ERR and ECODE it would have left had
it completed at once. The premises on STATUS are its invariant while busy. -/
def Obligations.ResultIndependentOfHostWindow : Prop :=
  ∀ (s t u : State), s.status.busy = true → s.status.done = false → s.status.err = false → s.host.stopped = none →
    (∀ op ∈ s.host.inbox, (∃ pl n v, op = .write pl n v) ∨ (∃ pl n, op = .read pl n)) →
    Host.Core.run core s.host.inbox.length s = .next t → runCommand s = .next u →
    ∃ v, runCommand t = .next v ∧ v.lanes = u.lanes ∧ v.f = u.f ∧ v.dmem = u.dmem ∧ v.arg = u.arg ∧ v.cmd = u.cmd ∧
      v.rlen = u.rlen ∧ v.status.busy = u.status.busy ∧ v.status.done = u.status.done ∧
      v.status.err = u.status.err ∧ v.status.ecode = u.status.ecode

/-- R48, R297: VIOL is set only by a host write while busy, and such a step changes nothing else of the engine; it is
cleared only by a host write to STATUS with bit 3 set, or by reset; so issue and completion never clear it. -/
def Obligations.ViolLatch : Prop :=
  ∀ s t : State, step s = .next t →
    (s.status.viol = false → t.status.viol = true →
      s.status.busy = true ∧ s.host.stopped = none ∧ (∃ pl n v, s.host.inbox.head? = some (.write pl n v)) ∧
      t = { s with status := { s.status with viol := true }, host := t.host }) ∧
    (s.status.viol = true → t.status.viol = false →
      s.host.inbox.head? = some .reset ∨
      ∃ pl n v, s.host.inbox.head? = some (.write pl n v) ∧ pl.locate = some (.reg, 0x008) ∧ v.getLsbD 3 = true)

/-- R36, R48: DONE, ERR and a nonzero ECODE appear only at the completion of a command in flight, which clears BUSY. That
an illegal word is in flight before it completes is the model's choice (log entry 23). -/
def Obligations.OnlyCompletionSetsFlags : Prop :=
  ∀ s t : State, step s = .next t →
    (s.status.done = false ∧ t.status.done = true) ∨ (s.status.err = false ∧ t.status.err = true) ∨
      (t.status.ecode ≠ .noError ∧ t.status.ecode ≠ s.status.ecode) →
    s.status.busy = true ∧ t.status.busy = false ∧ t.status.viol = s.status.viol

/-- R296: a command that ends in error changes only BUSY, ERR and ECODE (and leaves the private state zero): STATE, F,
ARG, CMD, DMEM, RLEN, DONE and VIOL are as they were. -/
def Obligations.ErrorsArePrecise : Prop :=
  ∀ (i : Instr) (s t : State), s.status.err = false → exec i s = .next t → t.status.err = true →
    t.status.ecode ≠ .noError ∧ t.status.busy = false ∧ t.status.done = s.status.done ∧
    t.status.viol = s.status.viol ∧ t.rlen = s.rlen ∧ t.cmd = s.cmd ∧ t.arg = s.arg ∧ t.lanes = s.lanes ∧
    t.f = s.f ∧ t.dmem = s.dmem ∧ t.work = zeroLanes ∧ t.host = s.host

/-- R184, R293: the codes each well-formed command can raise; ENCODING_RANGE is never raised. A term that is not
well formed has no word; it fails with ILLEGAL_CMD (the model's choice, log entry 11). -/
def Obligations.CodesOfEachCommand : Prop :=
  (∀ (i : Instr) (s : State), i.wellFormed = false → exec i s = .next (failed s .illegalCmd)) ∧
  ∀ (i : Instr) (s : State) (c : ErrCode), i.wellFormed = true → c ≠ .noError → exec i s = .next (failed s c) →
    c ≠ .encodingRange ∧
    match i with
    | .keccakf | .sinit | .ldg _ => False
    | .absorb => c ∈ [ErrCode.badBlocklen, .outOfBounds]
    | .absorbf | .lenc | .renc => c ∈ [ErrCode.outOfBounds]
    | .squeeze => c ∈ [ErrCode.badBitlen, .outOfBounds]
    | .sponge | .shake256 | .cshake256 | .kmacxof256 => c ∈ [ErrCode.badBitlen, .outOfBounds, .overlap]
    | .encstr => c ∈ [ErrCode.outOfBounds, .overlap]
    | .bytepad => c ∈ [ErrCode.badWidth, .outOfBounds, .overlap]
    | .fmul _ _ _ => c ∈ [ErrCode.operandRange]
    | .padd _ _ _ | .smul _ _ _ => c ∈ [ErrCode.operandRange, .invalidPoint]

/-! ## Frames -/

/-- R38, R46, R109, R296: every command leaves ARG, CMD, VIOL and the host's side as they were, ends the busy window,
and leaves the private working state zero. -/
def Obligations.CommandsLeaveOperands : Prop :=
  ∀ (i : Instr) (s t : State), exec i s = .next t →
    t.arg = s.arg ∧ t.cmd = s.cmd ∧ t.status.viol = s.status.viol ∧ t.host = s.host ∧ t.status.busy = false ∧
    t.work = zeroLanes ∧ (t.status.done = true ∧ t.status.ecode = .noError ∧ t.status.err = s.status.err ∨
      t.status.err = true ∧ t.status.ecode ≠ .noError ∧ t.status.done = s.status.done ∧ t.rlen = s.rlen)

/-- R39, R41, R46, R78: which of STATE, F and DMEM a command can change. STATE: only KECCAKF, SINIT, ABSORB, ABSORBF
and SQUEEZE. F: only FMUL, PADD, SMUL and LDG. DMEM: only the commands with an output region. -/
def Obligations.CommandFrames : Prop :=
  ∀ (i : Instr) (s t : State), exec i s = .next t →
    (i ∉ [Instr.keccakf, .sinit, .absorb, .absorbf, .squeeze] → t.lanes = s.lanes) ∧
    ((∀ fd fa fb, i ≠ .fmul fd fa fb) → (∀ pd pa pb, i ≠ .padd pd pa pb) → (∀ pd pa fs, i ≠ .smul pd pa fs) →
      (∀ pd, i ≠ .ldg pd) → t.f = s.f) ∧
    (i ∉ [Instr.squeeze, .sponge, .lenc, .renc, .encstr, .bytepad, .shake256, .cshake256, .kmacxof256] →
      ∀ a, Mem.byte? t.dmem a = Mem.byte? s.dmem a)

/-- R35, R44, R78: a command with an output region writes no DMEM byte outside the RLEN bytes from ARG6 up. -/
def Obligations.OutputRegionOnly : Prop :=
  ∀ (i : Instr) (s t : State),
    i ∈ [Instr.squeeze, .sponge, .lenc, .renc, .encstr, .bytepad, .shake256, .cshake256, .kmacxof256] →
    exec i s = .next t →
    ∀ a, ¬ (s.argNat 6 ≤ a ∧ a < s.argNat 6 + t.rlen.toNat) → Mem.byte? t.dmem a = Mem.byte? s.dmem a

/-- R39, R40: FMUL writes no F register but F[fd]; PADD, SMUL and LDG none but F[2pd] and F[2pd+1]. -/
def Obligations.DestinationRegistersOnly : Prop :=
  ∀ (s t : State) (k : RegIdx),
    (∀ fd fa fb, exec (.fmul fd fa fb) s = .next t → k ≠ fd → t.fRead k = s.fRead k) ∧
    (∀ pd pa pb, exec (.padd pd pa pb) s = .next t → k.toNat ≠ 2 * pd.toNat → k.toNat ≠ 2 * pd.toNat + 1 →
      t.fRead k = s.fRead k) ∧
    (∀ pd pa fs, exec (.smul pd pa fs) s = .next t → k.toNat ≠ 2 * pd.toNat → k.toNat ≠ 2 * pd.toNat + 1 →
      t.fRead k = s.fRead k) ∧
    ∀ pd, exec (.ldg pd) s = .next t → k.toNat ≠ 2 * pd.toNat → k.toNat ≠ 2 * pd.toNat + 1 → t.fRead k = s.fRead k

/-! ## The commands: result, completion and error order -/

/-- R144, R145: KECCAKF applies the 24 rounds to STATE, and SINIT zeroes it; both complete on every state. -/
def Obligations.KeccakfAndSinit : Prop :=
  encode .keccakf = 0x00000010 ∧ encode .sinit = 0x00000011 ∧
  ∀ s : State,
    exec .keccakf s = .next (succeeded s 0 (keccakF s.lanes) s.f s.dmem) ∧
    ∃ z : Lanes, (∀ k : Fin 25, z[k] = 0) ∧ exec .sinit s = .next (succeeded s 0 z s.f s.dmem)

/-- R146: ABSORB. -/
def Obligations.AbsorbMeaning : Prop :=
  encode .absorb = 0x00000012 ∧
  ∀ s : State,
    (s.argNat 1 % 136 ≠ 0 → exec .absorb s = .next (failed s .badBlocklen)) ∧
    (s.argNat 1 % 136 = 0 → ¬ InDmem (s.argNat 0) (s.argNat 1) → exec .absorb s = .next (failed s .outOfBounds)) ∧
    ∀ y : List Byte, s.argNat 1 % 136 = 0 → InDmem (s.argNat 0) (s.argNat 1) → y.length = s.argNat 1 →
      HoldsBytes s.dmem (s.argNat 0) y →
      exec .absorb s = .next (succeeded s 0 (absorb s.lanes y) s.f s.dmem)

/-- R147: ABSORBF. -/
def Obligations.AbsorbfMeaning : Prop :=
  encode .absorbf = 0x00000013 ∧
  ∀ s : State,
    (¬ InDmem (s.argNat 0) (s.argNat 1) → exec .absorbf s = .next (failed s .outOfBounds)) ∧
    ∀ y : List Byte, InDmem (s.argNat 0) (s.argNat 1) → y.length = s.argNat 1 →
      HoldsBytes s.dmem (s.argNat 0) y →
      exec .absorbf s = .next (succeeded s 0 (absorb s.lanes (pad y)) s.f s.dmem)

/-- R148: SQUEEZE. -/
def Obligations.SqueezeMeaning : Prop :=
  encode .squeeze = 0x00000014 ∧
  ∀ s : State,
    (s.argNat 7 % 8 ≠ 0 → exec .squeeze s = .next (failed s .badBitlen)) ∧
    (s.argNat 7 % 8 = 0 → ¬ InDmem (s.argNat 6) (s.argNat 7 / 8) →
      exec .squeeze s = .next (failed s .outOfBounds)) ∧
    (s.argNat 7 % 8 = 0 → InDmem (s.argNat 6) (s.argNat 7 / 8) →
      ∃ m, WroteAt s.dmem m (s.argNat 6) (squeeze s.lanes (s.argNat 7)).1 ∧
        (squeeze s.lanes (s.argNat 7)).1.length = s.argNat 7 / 8 ∧
        exec .squeeze s = .next (succeeded s (s.argNat 7 / 8) (squeeze s.lanes (s.argNat 7)).2 s.f m))

/-- R149, R214: SPONGE and SHAKE256, the one-shot commands with one input region. -/
def Obligations.SpongeAndShakeMeaning : Prop :=
  encode .sponge = 0x00000015 ∧ encode .shake256 = 0x00000030 ∧
  ∀ (s : State) (i : Instr) (out : List Byte → List Byte),
    (i = .sponge ∧ out = fun x => sponge x (s.argNat 7)) ∨ (i = .shake256 ∧ out = fun x => shake256 x (s.argNat 7)) →
    (s.argNat 7 % 8 ≠ 0 → exec i s = .next (failed s .badBitlen)) ∧
    (s.argNat 7 % 8 = 0 → ¬ InDmem (s.argNat 0) (s.argNat 1) ∨ ¬ InDmem (s.argNat 6) (s.argNat 7 / 8) →
      exec i s = .next (failed s .outOfBounds)) ∧
    (s.argNat 7 % 8 = 0 → InDmem (s.argNat 0) (s.argNat 1) → InDmem (s.argNat 6) (s.argNat 7 / 8) →
      Overlap (s.argNat 6) (s.argNat 7 / 8) (s.argNat 0) (s.argNat 1) → exec i s = .next (failed s .overlap)) ∧
    ∀ x : List Byte, s.argNat 7 % 8 = 0 → InDmem (s.argNat 0) (s.argNat 1) → InDmem (s.argNat 6) (s.argNat 7 / 8) →
      ¬ Overlap (s.argNat 6) (s.argNat 7 / 8) (s.argNat 0) (s.argNat 1) →
      x.length = s.argNat 1 → HoldsBytes s.dmem (s.argNat 0) x →
      ∃ m, WroteAt s.dmem m (s.argNat 6) (out x) ∧ (out x).length = s.argNat 7 / 8 ∧
        exec i s = .next (succeeded s (s.argNat 7 / 8) s.lanes s.f m)

/-- R215, R216: CSHAKE256 and KMACXOF256, the one-shot commands with three input regions. -/
def Obligations.CshakeAndKmacMeaning : Prop :=
  encode .cshake256 = 0x00000031 ∧ encode .kmacxof256 = 0x00000032 ∧
  ∀ (s : State) (i : Instr) (out : List Byte → List Byte → List Byte → List Byte),
    (i = .cshake256 ∧ out = fun x nm cs => cshake256 x (s.argNat 7) nm cs) ∨
      (i = .kmacxof256 ∧ out = fun k x cs => kmacxof256 k x (s.argNat 7) cs) →
    (s.argNat 7 % 8 ≠ 0 → exec i s = .next (failed s .badBitlen)) ∧
    (s.argNat 7 % 8 = 0 →
      ¬ InDmem (s.argNat 0) (s.argNat 1) ∨ ¬ InDmem (s.argNat 2) (s.argNat 3) ∨
        ¬ InDmem (s.argNat 4) (s.argNat 5) ∨ ¬ InDmem (s.argNat 6) (s.argNat 7 / 8) →
      exec i s = .next (failed s .outOfBounds)) ∧
    (s.argNat 7 % 8 = 0 → InDmem (s.argNat 0) (s.argNat 1) → InDmem (s.argNat 2) (s.argNat 3) →
      InDmem (s.argNat 4) (s.argNat 5) → InDmem (s.argNat 6) (s.argNat 7 / 8) →
      Overlap (s.argNat 6) (s.argNat 7 / 8) (s.argNat 0) (s.argNat 1) ∨
        Overlap (s.argNat 6) (s.argNat 7 / 8) (s.argNat 2) (s.argNat 3) ∨
        Overlap (s.argNat 6) (s.argNat 7 / 8) (s.argNat 4) (s.argNat 5) →
      exec i s = .next (failed s .overlap)) ∧
    ∀ x y z : List Byte, s.argNat 7 % 8 = 0 → InDmem (s.argNat 0) (s.argNat 1) → InDmem (s.argNat 2) (s.argNat 3) →
      InDmem (s.argNat 4) (s.argNat 5) → InDmem (s.argNat 6) (s.argNat 7 / 8) →
      ¬ Overlap (s.argNat 6) (s.argNat 7 / 8) (s.argNat 0) (s.argNat 1) →
      ¬ Overlap (s.argNat 6) (s.argNat 7 / 8) (s.argNat 2) (s.argNat 3) →
      ¬ Overlap (s.argNat 6) (s.argNat 7 / 8) (s.argNat 4) (s.argNat 5) →
      x.length = s.argNat 1 → HoldsBytes s.dmem (s.argNat 0) x →
      y.length = s.argNat 3 → HoldsBytes s.dmem (s.argNat 2) y →
      z.length = s.argNat 5 → HoldsBytes s.dmem (s.argNat 4) z →
      ∃ m, WroteAt s.dmem m (s.argNat 6) (out x y z) ∧ (out x y z).length = s.argNat 7 / 8 ∧
        exec i s = .next (succeeded s (s.argNat 7 / 8) s.lanes s.f m)

/-- R185, R186: LENC and RENC of n = ARG1·2^32 + ARG0. -/
def Obligations.LencAndRencMeaning : Prop :=
  encode .lenc = 0x00000020 ∧ encode .renc = 0x00000021 ∧
  ∀ (s : State) (i : Instr) (e : List Byte),
    (i = .lenc ∧ e = leftEncode (s.argNat 1 * 2 ^ 32 + s.argNat 0)) ∨
      (i = .renc ∧ e = rightEncode (s.argNat 1 * 2 ^ 32 + s.argNat 0)) →
    2 ≤ e.length ∧ e.length ≤ 9 ∧
    (¬ InDmem (s.argNat 6) e.length → exec i s = .next (failed s .outOfBounds)) ∧
    (InDmem (s.argNat 6) e.length →
      ∃ m, WroteAt s.dmem m (s.argNat 6) e ∧ exec i s = .next (succeeded s e.length s.lanes s.f m))

/-- R187: ENCSTR. -/
def Obligations.EncstrMeaning : Prop :=
  encode .encstr = 0x00000022 ∧
  ∀ (s : State) (m : Nat), m = (leftEncode (8 * s.argNat 1)).length + s.argNat 1 →
    (¬ InDmem (s.argNat 0) (s.argNat 1) ∨ ¬ InDmem (s.argNat 6) m → exec .encstr s = .next (failed s .outOfBounds)) ∧
    (InDmem (s.argNat 0) (s.argNat 1) → InDmem (s.argNat 6) m → Overlap (s.argNat 6) m (s.argNat 0) (s.argNat 1) →
      exec .encstr s = .next (failed s .overlap)) ∧
    ∀ x : List Byte, InDmem (s.argNat 0) (s.argNat 1) → InDmem (s.argNat 6) m →
      ¬ Overlap (s.argNat 6) m (s.argNat 0) (s.argNat 1) →
      x.length = s.argNat 1 → HoldsBytes s.dmem (s.argNat 0) x →
      ∃ d, WroteAt s.dmem d (s.argNat 6) (leftEncode (8 * x.length) ++ x) ∧
        exec .encstr s = .next (succeeded s m s.lanes s.f d)

/-- R188: BYTEPAD. The output is left_encode(w) ‖ X and zeros up to the length m. -/
def Obligations.BytepadMeaning : Prop :=
  encode .bytepad = 0x00000023 ∧
  ∀ (s : State) (w m : Nat), w = s.argNat 2 →
    m = w * (((leftEncode w).length + s.argNat 1 + (w - 1)) / w) →
    (w = 0 → exec .bytepad s = .next (failed s .badWidth)) ∧
    (0 < w → ¬ InDmem (s.argNat 0) (s.argNat 1) ∨ ¬ InDmem (s.argNat 6) m →
      exec .bytepad s = .next (failed s .outOfBounds)) ∧
    (0 < w → InDmem (s.argNat 0) (s.argNat 1) → InDmem (s.argNat 6) m →
      Overlap (s.argNat 6) m (s.argNat 0) (s.argNat 1) → exec .bytepad s = .next (failed s .overlap)) ∧
    ∀ x : List Byte, 0 < w → InDmem (s.argNat 0) (s.argNat 1) → InDmem (s.argNat 6) m →
      ¬ Overlap (s.argNat 6) m (s.argNat 0) (s.argNat 1) →
      x.length = s.argNat 1 → HoldsBytes s.dmem (s.argNat 0) x →
      ∃ (d : Mem) (t : Nat), WroteAt s.dmem d (s.argNat 6) (leftEncode w ++ x ++ List.replicate t 0) ∧
        (leftEncode w ++ x ++ List.replicate t (0 : Byte)).length = m ∧
        exec .bytepad s = .next (succeeded s m s.lanes s.f d)

/-- R250: FMUL. -/
def Obligations.FmulMeaning : Prop :=
  ∀ (s : State) (fd fa fb : RegIdx),
    encode (.fmul fd fa fb) =
      0x00000040 ||| (fd.setWidth 32 <<< 8) ||| (fa.setWidth 32 <<< 12) ||| (fb.setWidth 32 <<< 16) ∧
    (fieldPrime ≤ (s.fRead fa).toNat ∨ fieldPrime ≤ (s.fRead fb).toNat →
      exec (.fmul fd fa fb) s = .next (failed s .operandRange)) ∧
    ((s.fRead fa).toNat < fieldPrime → (s.fRead fb).toNat < fieldPrime →
      ∃ v : FElem, v.toNat = (s.fRead fa).toNat * (s.fRead fb).toNat % (2 ^ 448 - 2 ^ 224 - 1) ∧
        exec (.fmul fd fa fb) s = .next (succeeded s 0 s.lanes (s.f.set fd.toNat v fd.isLt) s.dmem))

/-- R251: PADD, for the point registers P[k] = (F[2k], F[2k+1]), k < 8. -/
def Obligations.PaddMeaning : Prop :=
  ∀ (s : State) (pd pa pb : RegIdx) (q1 q2 : Point), pd < 8 → pa < 8 → pb < 8 →
    q1 = ⟨(s.fRead (2 * pa)).toNat, (s.fRead (2 * pa + 1)).toNat⟩ →
    q2 = ⟨(s.fRead (2 * pb)).toNat, (s.fRead (2 * pb + 1)).toNat⟩ →
    encode (.padd pd pa pb) =
      0x00000041 ||| (pd.setWidth 32 <<< 8) ||| (pa.setWidth 32 <<< 12) ||| (pb.setWidth 32 <<< 16) ∧
    (fieldPrime ≤ q1.x ∨ fieldPrime ≤ q1.y ∨ fieldPrime ≤ q2.x ∨ fieldPrime ≤ q2.y →
      exec (.padd pd pa pb) s = .next (failed s .operandRange)) ∧
    (q1.inRange → q2.inRange → ¬ onCurve q1 ∨ ¬ onCurve q2 →
      exec (.padd pd pa pb) s = .next (failed s .invalidPoint)) ∧
    (onCurve q1 → onCurve q2 → addPoints q1 q2 = none →
      exec (.padd pd pa pb) s = .next (failed s .invalidPoint)) ∧
    ∀ q3, onCurve q1 → onCurve q2 → addPoints q1 q2 = some q3 →
      ∃ t : State, exec (.padd pd pa pb) s = .next t ∧ t = succeeded s 0 s.lanes t.f s.dmem ∧
        (t.fRead (2 * pd)).toNat = q3.x ∧ (t.fRead (2 * pd + 1)).toNat = q3.y ∧
        ∀ k : RegIdx, k ≠ 2 * pd → k ≠ 2 * pd + 1 → t.fRead k = s.fRead k

/-- R252: SMUL, for P registers k < 8 and the 448-bit scalar F[fs]. -/
def Obligations.SmulMeaning : Prop :=
  ∀ (s : State) (pd pa fs : RegIdx) (b : Point), pd < 8 → pa < 8 →
    b = ⟨(s.fRead (2 * pa)).toNat, (s.fRead (2 * pa + 1)).toNat⟩ →
    encode (.smul pd pa fs) =
      0x00000042 ||| (pd.setWidth 32 <<< 8) ||| (pa.setWidth 32 <<< 12) ||| (fs.setWidth 32 <<< 16) ∧
    (fieldPrime ≤ b.x ∨ fieldPrime ≤ b.y → exec (.smul pd pa fs) s = .next (failed s .operandRange)) ∧
    (b.inRange → ¬ onCurve b → exec (.smul pd pa fs) s = .next (failed s .invalidPoint)) ∧
    (onCurve b → scalarMul (s.fRead fs).toNat b = none → exec (.smul pd pa fs) s = .next (failed s .invalidPoint)) ∧
    ∀ q, onCurve b → scalarMul (s.fRead fs).toNat b = some q →
      ∃ t : State, exec (.smul pd pa fs) s = .next t ∧ t = succeeded s 0 s.lanes t.f s.dmem ∧
        (t.fRead (2 * pd)).toNat = q.x ∧ (t.fRead (2 * pd + 1)).toNat = q.y ∧
        ∀ k : RegIdx, k ≠ 2 * pd → k ≠ 2 * pd + 1 → t.fRead k = s.fRead k

/-- R253: LDG writes G = (8, y_G), on the curve, to P[pd], k < 8. -/
def Obligations.LdgMeaning : Prop :=
  onCurve generator = true ∧
  ∀ (s : State) (pd : RegIdx), pd < 8 →
    encode (.ldg pd) = 0x00000043 ||| (pd.setWidth 32 <<< 8) ∧
    ∃ t : State, exec (.ldg pd) s = .next t ∧ t = succeeded s 0 s.lanes t.f s.dmem ∧
      t.fRead (2 * pd) = 8 ∧ t.fRead (2 * pd + 1) =
        0xC66F6F0565E6D0B5F2BB263CEBB9F8540EB046F40ED0FFF7F84D84653B428D989AABFF93B6BF700801228094E3DD0C2D1C600E3B0BCCFC32 ∧
      ∀ k : RegIdx, k ≠ 2 * pd → k ≠ 2 * pd + 1 → t.fRead k = s.fRead k

/-! ## The functions the commands compute -/

/-- R137: KF is a bijection on 25-lane states. -/
def Obligations.KeccakFIsBijective : Prop := Function.Injective keccakF ∧ Function.Surjective keccakF

/-- R131, R133, R337: rotl64 moves bit i to bit i + k modulo 64, a rotation by 0 is the identity, and ρ+π is the
table of R133: B[π_lane[i]] is A[src] rotated by ρ_rot[i], where src is 1 and then the entry before; lane 0 is copied. -/
def Obligations.RhoPiIsTheTable : Prop :=
  (∀ x : Lane, rotl64 x 0 = x) ∧
  (∀ (x : Lane) (k i : Nat), k < 64 → i < 64 → (rotl64 x k).getLsbD ((i + k) % 64) = x.getLsbD i) ∧
  ∀ A : Lanes, (rhoPi A)[0] = A[0] ∧
    ∀ i : Fin 24, (rhoPi A)[piLane[i]'i.isLt] =
      rotl64 (A[((1 : Fin 25) :: piLane)[i.val]'(Nat.lt_succ_of_lt i.isLt)]) (rhoRot[i]'i.isLt)

/-- R140, R147: absorbing whole blocks and then a padded rest is absorbing the padded concatenation; so SINIT,
ABSORB and ABSORBF together are the one-shot sponge's absorption. -/
def Obligations.StreamingAbsorb : Prop :=
  ∀ (A : Lanes) (x y : List Byte), x.length % 136 = 0 →
    absorb (absorb A x) (pad y) = absorb A (pad (x ++ y)) ∧
    (y.length % 136 = 0 → absorb (absorb A x) y = absorb A (x ++ y))

/-- R141, R148: squeezing a multiple of 1088 bits and then more continues the output stream without a gap and leaves
the same state, and a shorter output is a prefix of a longer one. -/
def Obligations.SqueezeContinues : Prop :=
  (∀ (A : Lanes) (n L : Nat), L % 8 = 0 →
    (squeeze A (1088 * n + L)).1 = (squeeze A (1088 * n)).1 ++ (squeeze (squeeze A (1088 * n)).2 L).1 ∧
    (squeeze A (1088 * n + L)).2 = (squeeze (squeeze A (1088 * n)).2 L).2) ∧
  ∀ (A : Lanes) (L L' : Nat), L ≤ L' → L % 8 = 0 → L' % 8 = 0 → (squeeze A L).1 <+: (squeeze A L').1

/-- R138, R143: input is XORed into lanes 0 to 16 only, and output is copied from lanes 0 to 16 only. -/
def Obligations.CapacityNeverTouched : Prop :=
  (∀ (A : Lanes) (bk : List Byte) (k : Fin 25), 17 ≤ k.val → (xorLanes A (blockLanes bk))[k] = A[k]) ∧
  (∀ A B : Lanes, (∀ k : Fin 25, k.val < 17 → A[k] = B[k]) → rateOut A = rateOut B) ∧
  ∀ (bk : List Byte) (i : Nat) (hi : i < bk.length), bk.length = 136 →
    (rateOut (blockLanes bk))[i]? = some bk[i]

/-- R180, R181: left_encode and right_encode: the count k, and the k-octet big-endian form of n, minimal (k = 1 for
n = 0), for every n the count octet can describe. -/
def Obligations.IntegerEncoders : Prop :=
  ∀ n : Nat, n < 2 ^ 2040 → ∃ (k : Nat) (be : List Byte),
    leftEncode n = BitVec.ofNat 8 k :: be ∧ rightEncode n = be ++ [BitVec.ofNat 8 k] ∧
    be.length = k ∧ 1 ≤ k ∧ k ≤ 255 ∧ leInt be.reverse = n ∧ (k = 1 ∨ 256 ^ (k - 1) ≤ n)

/-- R183: bytepad appends to left_encode(w) ‖ X the least number of zeros that makes the length a multiple of w. -/
def Obligations.BytepadIsShortest : Prop :=
  ∀ (x : List Byte) (w : Nat), 0 < w → ∃ t : Nat,
    bytepad x w = leftEncode w ++ x ++ List.replicate t 0 ∧ w ∣ (bytepad x w).length ∧
    ∀ t' : Nat, w ∣ (leftEncode w ++ x).length + t' → t ≤ t'

/-- R139, R210, R217: the sponge padding appends nothing to a whole number of blocks; the final block of SHAKE256 in
its three cases; and the bodies of CSHAKE256 (N or S not empty) and KMACXOF256 get no padding exactly at the
full-block lengths. -/
def Obligations.PaddingCases : Prop :=
  (∀ x : List Byte, pad x = x ↔ x.length % 136 = 0) ∧
  (∀ x : List Byte, x.length % 136 = 135 → pad (x ++ [shakeSep x.length]) = x ++ [0x9F]) ∧
  (∀ x : List Byte, x.length % 136 = 134 → pad (x ++ [shakeSep x.length]) = x ++ [0x1F, 0x80]) ∧
  (∀ x : List Byte, x.length % 136 < 134 →
    pad (x ++ [shakeSep x.length]) = x ++ [0x1F] ++ List.replicate (134 - x.length % 136) 0 ++ [0x80]) ∧
  (∀ x nm cs : List Byte, pad (cshakeBody x nm cs) = cshakeBody x nm cs ↔ x.length % 136 = 135) ∧
  ∀ k x cs : List Byte, pad (cshakeBody (kmacPayload k x) kmacName cs) = cshakeBody (kmacPayload k x) kmacName cs ↔
    x.length % 136 = 133

/-- R248, R249: double-and-add, by the bits of the scalar: 0 gives O, 1 gives B, and an appended bit doubles and, if it
is 1, adds B. -/
def Obligations.LadderByBits : Prop :=
  ∀ b : Point, scalarMul 0 b = some ⟨0, 1⟩ ∧ scalarMul 1 b = some b ∧
    ∀ s : Nat, 0 < s →
      scalarMul (2 * s) b = (scalarMul s b).bind (fun q => addPoints q q) ∧
      scalarMul (2 * s + 1) b =
        ((scalarMul s b).bind (fun q => addPoints q q)).bind (fun q => addPoints q b)

/-- R241, R244, R246: the field operations as the rule writes them; the result of an addition is canonical; addition
is commutative; and O is neutral for canonical points. -/
def Obligations.FieldAndAdditionLaws : Prop :=
  (∀ a b : Nat, a < fieldPrime → b < fieldPrime →
    fieldAdd a b = (a + b) % fieldPrime ∧ (fieldSub a b : Int) = ((a : Int) - (b : Int)) % (fieldPrime : Int) ∧
    fieldMul a b = a * b % fieldPrime ∧ fieldInv a = a ^ (fieldPrime - 2) % fieldPrime) ∧
  (∀ q1 q2 q3 : Point, addPoints q1 q2 = some q3 → q3.x < fieldPrime ∧ q3.y < fieldPrime) ∧
  (∀ q1 q2 : Point, addPoints q1 q2 = addPoints q2 q1) ∧
  ∀ q : Point, q.x < fieldPrime → q.y < fieldPrime → addPoints q ⟨0, 1⟩ = some q ∧ addPoints ⟨0, 1⟩ q = some q
end

