-- ==== Sys2Proof/Laws/Decode.lean ====
section
/-! SUPPORT. The fields of an encoded word (R100). -/

namespace Sys2Proof

/-- R100: every bit of an encoded word. -/
theorem getLsbD_packFields (rb ra rd : RegIdx) (opc : BitVec 8) (i : Nat) :
    (packFields rb ra rd opc).getLsbD i =
      if i < 8 then opc.getLsbD i
      else if i - 8 < 4 then rd.getLsbD (i - 8)
      else if i - 8 - 4 < 4 then ra.getLsbD (i - 8 - 4)
      else if i - 8 - 4 - 4 < 4 then rb.getLsbD (i - 8 - 4 - 4)
      else false := by
  show BitVec.getLsbD (w := 12 + 4 + 4 + 4 + 8) (0#12 ++ rb ++ ra ++ rd ++ opc) i = _
  rw [BitVec.getLsbD_append, BitVec.getLsbD_append, BitVec.getLsbD_append, BitVec.getLsbD_append]
  simp only [BitVec.getLsbD_zero]

@[simp] theorem opcField_packFields (rb ra rd : RegIdx) (opc : BitVec 8) :
    opcField (packFields rb ra rd opc) = opc := by
  apply BitVec.eq_of_getLsbD_eq
  intro i hi
  rw [opcField, BitVec.getLsbD_extractLsb', getLsbD_packFields]
  simp [hi]

@[simp] theorem rdField_packFields (rb ra rd : RegIdx) (opc : BitVec 8) :
    rdField (packFields rb ra rd opc) = rd := by
  apply BitVec.eq_of_getLsbD_eq
  intro i hi
  rw [rdField, BitVec.getLsbD_extractLsb', getLsbD_packFields]
  rw [if_neg (show ¬ 8 + i < 8 by omega)]
  rw [if_pos (show 8 + i - 8 < 4 by omega), show 8 + i - 8 = i by omega]
  simp [hi]

@[simp] theorem raField_packFields (rb ra rd : RegIdx) (opc : BitVec 8) :
    raField (packFields rb ra rd opc) = ra := by
  apply BitVec.eq_of_getLsbD_eq
  intro i hi
  rw [raField, BitVec.getLsbD_extractLsb', getLsbD_packFields]
  rw [if_neg (show ¬ 12 + i < 8 by omega)]
  rw [if_neg (show ¬ 12 + i - 8 < 4 by omega)]
  rw [if_pos (show 12 + i - 8 - 4 < 4 by omega), show 12 + i - 8 - 4 = i by omega]
  simp [hi]

@[simp] theorem rbField_packFields (rb ra rd : RegIdx) (opc : BitVec 8) :
    rbField (packFields rb ra rd opc) = rb := by
  apply BitVec.eq_of_getLsbD_eq
  intro i hi
  rw [rbField, BitVec.getLsbD_extractLsb', getLsbD_packFields]
  rw [if_neg (show ¬ 16 + i < 8 by omega)]
  rw [if_neg (show ¬ 16 + i - 8 < 4 by omega)]
  rw [if_neg (show ¬ 16 + i - 8 - 4 < 4 by omega)]
  rw [if_pos (show 16 + i - 8 - 4 - 4 < 4 by omega), show 16 + i - 8 - 4 - 4 = i by omega]
  simp [hi]

@[simp] theorem rsvField_packFields (rb ra rd : RegIdx) (opc : BitVec 8) :
    rsvField (packFields rb ra rd opc) = 0 := by
  apply BitVec.eq_of_getLsbD_eq
  intro i hi
  rw [rsvField, BitVec.getLsbD_extractLsb', getLsbD_packFields]
  rw [if_neg (show ¬ 20 + i < 8 by omega)]
  rw [if_neg (show ¬ 20 + i - 8 < 4 by omega)]
  rw [if_neg (show ¬ 20 + i - 8 - 4 < 4 by omega)]
  rw [if_neg (show ¬ 20 + i - 8 - 4 - 4 < 4 by omega)]
  simp

end Sys2Proof
end

