-- ==== Sys2Proof/Laws/Sponge.lean ====
section
/-! SUPPORT. The lengths the sponge produces, and how absorbing splits over a string of whole blocks. -/

namespace Sys2Proof.Machine

@[simp] theorem length_rateOut (A : Lanes) : (rateOut A).length = rateBytes := by
  have h : ∀ l : List Lane, (l.flatMap fun x => leBytes x.toNat 8).length = 8 * l.length := by
    intro l
    induction l with
    | nil => rfl
    | cons x l ih => simp [ih]; omega
  rw [rateOut, h, List.length_take, Vector.length_toList]
  decide

@[simp] theorem length_squeezeBlocks (n : Nat) (A : Lanes) : (squeezeBlocks n A).1.length = n * rateBytes := by
  induction n generalizing A with
  | zero => simp [squeezeBlocks]
  | succ n ih => simp [squeezeBlocks, ih, Nat.succ_mul, Nat.add_comm]

/-- R141: squeezing L bits gives L/8 bytes. -/
theorem length_squeeze (A : Lanes) (L : Nat) : (squeeze A L).1.length = L / 8 := by
  simp only [squeeze, List.length_take, length_squeezeBlocks, squeezeCount, rateBytes]
  omega

theorem length_sponge (x : List Byte) (L : Nat) : (sponge x L).length = L / 8 := length_squeeze _ _

@[simp] theorem length_pad (x : List Byte) :
    (pad x).length = (x.length + 135) / 136 * 136 := by
  unfold pad padTail
  split <;> simp [rateBytes] at * <;> omega

theorem length_pad_mod (x : List Byte) : (pad x).length % rateBytes = 0 := by
  rw [length_pad]; exact Nat.mul_mod_left _ _

theorem absorbBlocks_append (m k : Nat) (A : Lanes) (x y : List Byte) (h : x.length = m * rateBytes) :
    absorbBlocks (m + k) A (x ++ y) = absorbBlocks k (absorbBlocks m A x) y := by
  induction m generalizing A x with
  | zero =>
    have : x = [] := List.length_eq_zero_iff.1 (by simpa using h)
    subst this
    simp [absorbBlocks]
  | succ m ih =>
    have hl : rateBytes ≤ x.length := by rw [h, Nat.succ_mul]; omega
    rw [show m + 1 + k = (m + k) + 1 by omega, absorbBlocks, absorbBlocks, List.take_append_of_le_length hl,
      List.drop_append_of_le_length hl]
    exact ih _ _ (by rw [List.length_drop, h, Nat.succ_mul]; omega)

end Sys2Proof.Machine
end

