-- ==== Sys2Proof/Laws/Encoder.lean ====
section
/-! SUPPORT. The lengths of the encodings and of the XOF outputs, in the form the bounds checks use them. -/

namespace Sys2Proof.Machine

@[simp] theorem length_leftEncode (n : Nat) : (leftEncode n).length = octets n + 1 := by simp [leftEncode]

@[simp] theorem length_rightEncode (n : Nat) : (rightEncode n).length = octets n + 1 := by simp [rightEncode]

@[simp] theorem length_encodeString (x : List Byte) : (encodeString x).length = encodeStringLen x.length := by
  simp [encodeString, encodeStringLen]

theorem roundUp_eq (n w : Nat) (h : 0 < w) : n + (w - n % w) % w = w * ((n + (w - 1)) / w) := by
  have hd := Nat.div_add_mod n w
  have hm := Nat.mod_lt n h
  by_cases h0 : n % w = 0
  · have e : n + (w - 1) = w - 1 + w * (n / w) := by omega
    rw [h0, Nat.sub_zero, Nat.mod_self, e, Nat.add_mul_div_left _ _ h, Nat.div_eq_of_lt (by omega)]
    simp only [Nat.zero_add]; omega
  · have e : n + (w - 1) = (n % w - 1) + w * (n / w + 1) := by rw [Nat.mul_add]; omega
    rw [Nat.mod_eq_of_lt (by omega : w - n % w < w), e, Nat.add_mul_div_left _ _ h, Nat.div_eq_of_lt (by omega),
      Nat.zero_add, Nat.mul_add]
    omega

/-- R183, R188: the length BYTEPAD computes is that of its output. -/
theorem length_bytepad (x : List Byte) {w : Nat} (h : 0 < w) : (bytepad x w).length = bytepadLen w x.length := by
  simp only [bytepad, List.length_append, length_zeroBytes, bytepadLen]
  exact roundUp_eq _ w h

theorem length_shake256 (x : List Byte) (L : Nat) : (shake256 x L).length = L / 8 := length_sponge _ _

theorem length_cshake256 (x : List Byte) (L : Nat) (nm cs : List Byte) : (cshake256 x L nm cs).length = L / 8 := by
  unfold cshake256
  split
  · exact length_shake256 _ _
  · exact length_sponge _ _

theorem length_kmacxof256 (k x : List Byte) (L : Nat) (cs : List Byte) : (kmacxof256 k x L cs).length = L / 8 :=
  length_cshake256 _ _ _ _

end Sys2Proof.Machine
end

