-- ==== Sys2Proof/Laws/Field.lean ====
section
/-! SUPPORT. The field operations in the rules' own words (R241). -/

namespace Sys2Proof.Machine

theorem fieldPrime_pos : 0 < fieldPrime := by decide +kernel

/-- R242: every canonical value fits an F register. -/
theorem fieldPrime_lt : fieldPrime < 2 ^ 448 := by decide +kernel

/-- Repeated squaring computes the power. -/
theorem powMod_eq (m fuel b e : Nat) (h : e < 2 ^ fuel) : powMod m fuel b e = b ^ e % m := by
  induction fuel generalizing b e with
  | zero =>
    have : e = 0 := by simpa using h
    simp [powMod, this]
  | succ fuel ih =>
    have he : e / 2 < 2 ^ fuel := by rw [Nat.pow_succ] at h; omega
    have hsq : (b * b % m) ^ (e / 2) % m = b ^ (2 * (e / 2)) % m := by
      rw [← Nat.pow_mod, ← pow_two, ← Nat.pow_mul]
    unfold powMod
    split
    · next h0 => simp [h0]
    · split
      · next h1 =>
        rw [ih _ _ he, hsq, Nat.mul_mod_mod, ← Nat.pow_succ', show (2 * (e / 2)).succ = e by omega]
      · next h1 =>
        rw [ih _ _ he, hsq, show 2 * (e / 2) = e by omega]

/-- R241: a⁻¹ = a^(p-2) mod p. -/
theorem fieldInv_eq (a : Nat) : fieldInv a = a ^ (fieldPrime - 2) % fieldPrime :=
  powMod_eq _ _ _ _ (Nat.lt_of_le_of_lt (Nat.sub_le _ _) fieldPrime_lt)

theorem fieldAdd_lt (a b : Nat) : fieldAdd a b < fieldPrime := Nat.mod_lt _ fieldPrime_pos
theorem fieldSub_lt (a b : Nat) : fieldSub a b < fieldPrime := Nat.mod_lt _ fieldPrime_pos
theorem fieldMul_lt (a b : Nat) : fieldMul a b < fieldPrime := Nat.mod_lt _ fieldPrime_pos
theorem fieldDiv_lt (a b : Nat) : fieldDiv a b < fieldPrime := fieldMul_lt _ _

end Sys2Proof.Machine
end

