-- ==== Sys2Proof/Laws/State.lean ====
section
/-! SUPPORT. What each update of the state leaves in each field: one lemma per field per update, true by rfl. -/

namespace Sys2Proof.Machine

@[simp] theorem issue_status (w : Word) (s : State) : (issue w s).status = s.status.issue := rfl
@[simp] theorem issue_cmd (w : Word) (s : State) : (issue w s).cmd = w := rfl
@[simp] theorem issue_rlen (w : Word) (s : State) : (issue w s).rlen = 0 := rfl
@[simp] theorem issue_arg (w : Word) (s : State) : (issue w s).arg = s.arg := rfl
@[simp] theorem issue_lanes (w : Word) (s : State) : (issue w s).lanes = s.lanes := rfl
@[simp] theorem issue_f (w : Word) (s : State) : (issue w s).f = s.f := rfl
@[simp] theorem issue_dmem (w : Word) (s : State) : (issue w s).dmem = s.dmem := rfl
@[simp] theorem issue_work (w : Word) (s : State) : (issue w s).work = zeroLanes := rfl
@[simp] theorem issue_host (w : Word) (s : State) : (issue w s).host = s.host := rfl

@[simp] theorem complete_status (n : Nat) (s : State) : (complete n s).status = s.status.succeed := rfl
@[simp] theorem complete_cmd (n : Nat) (s : State) : (complete n s).cmd = s.cmd := rfl
@[simp] theorem complete_rlen (n : Nat) (s : State) : (complete n s).rlen = BitVec.ofNat 32 n := rfl
@[simp] theorem complete_arg (n : Nat) (s : State) : (complete n s).arg = s.arg := rfl
@[simp] theorem complete_lanes (n : Nat) (s : State) : (complete n s).lanes = s.lanes := rfl
@[simp] theorem complete_f (n : Nat) (s : State) : (complete n s).f = s.f := rfl
@[simp] theorem complete_dmem (n : Nat) (s : State) : (complete n s).dmem = s.dmem := rfl
@[simp] theorem complete_work (n : Nat) (s : State) : (complete n s).work = zeroLanes := rfl
@[simp] theorem complete_host (n : Nat) (s : State) : (complete n s).host = s.host := rfl

@[simp] theorem errorComplete_status (c : ErrCode) (s : State) : (errorComplete c s).status = s.status.fail c := rfl
@[simp] theorem errorComplete_cmd (c : ErrCode) (s : State) : (errorComplete c s).cmd = s.cmd := rfl
@[simp] theorem errorComplete_rlen (c : ErrCode) (s : State) : (errorComplete c s).rlen = s.rlen := rfl
@[simp] theorem errorComplete_arg (c : ErrCode) (s : State) : (errorComplete c s).arg = s.arg := rfl
@[simp] theorem errorComplete_lanes (c : ErrCode) (s : State) : (errorComplete c s).lanes = s.lanes := rfl
@[simp] theorem errorComplete_f (c : ErrCode) (s : State) : (errorComplete c s).f = s.f := rfl
@[simp] theorem errorComplete_dmem (c : ErrCode) (s : State) : (errorComplete c s).dmem = s.dmem := rfl
@[simp] theorem errorComplete_work (c : ErrCode) (s : State) : (errorComplete c s).work = zeroLanes := rfl
@[simp] theorem errorComplete_host (c : ErrCode) (s : State) : (errorComplete c s).host = s.host := rfl

@[simp] theorem memWrite_status (a : Nat) (x : List Byte) (s : State) : (memWrite a x s).status = s.status := rfl
@[simp] theorem memWrite_cmd (a : Nat) (x : List Byte) (s : State) : (memWrite a x s).cmd = s.cmd := rfl
@[simp] theorem memWrite_rlen (a : Nat) (x : List Byte) (s : State) : (memWrite a x s).rlen = s.rlen := rfl
@[simp] theorem memWrite_arg (a : Nat) (x : List Byte) (s : State) : (memWrite a x s).arg = s.arg := rfl
@[simp] theorem memWrite_lanes (a : Nat) (x : List Byte) (s : State) : (memWrite a x s).lanes = s.lanes := rfl
@[simp] theorem memWrite_f (a : Nat) (x : List Byte) (s : State) : (memWrite a x s).f = s.f := rfl
@[simp] theorem memWrite_dmem (a : Nat) (x : List Byte) (s : State) : (memWrite a x s).dmem = Mem.setBytes s.dmem a x := rfl
@[simp] theorem memWrite_work (a : Nat) (x : List Byte) (s : State) : (memWrite a x s).work = s.work := rfl
@[simp] theorem memWrite_host (a : Nat) (x : List Byte) (s : State) : (memWrite a x s).host = s.host := rfl

@[simp] theorem State.fWrite_status (s : State) (i : RegIdx) (v : FElem) : (s.fWrite i v).status = s.status := rfl
@[simp] theorem State.fWrite_cmd (s : State) (i : RegIdx) (v : FElem) : (s.fWrite i v).cmd = s.cmd := rfl
@[simp] theorem State.fWrite_rlen (s : State) (i : RegIdx) (v : FElem) : (s.fWrite i v).rlen = s.rlen := rfl
@[simp] theorem State.fWrite_arg (s : State) (i : RegIdx) (v : FElem) : (s.fWrite i v).arg = s.arg := rfl
@[simp] theorem State.fWrite_lanes (s : State) (i : RegIdx) (v : FElem) : (s.fWrite i v).lanes = s.lanes := rfl
@[simp] theorem State.fWrite_f (s : State) (i : RegIdx) (v : FElem) : (s.fWrite i v).f = s.f.set i.toNat v i.isLt := rfl
@[simp] theorem State.fWrite_dmem (s : State) (i : RegIdx) (v : FElem) : (s.fWrite i v).dmem = s.dmem := rfl
@[simp] theorem State.fWrite_work (s : State) (i : RegIdx) (v : FElem) : (s.fWrite i v).work = s.work := rfl
@[simp] theorem State.fWrite_host (s : State) (i : RegIdx) (v : FElem) : (s.fWrite i v).host = s.host := rfl

@[simp] theorem popInbox_status (s : State) : (popInbox s).status = s.status := rfl
@[simp] theorem popInbox_cmd (s : State) : (popInbox s).cmd = s.cmd := rfl
@[simp] theorem popInbox_rlen (s : State) : (popInbox s).rlen = s.rlen := rfl
@[simp] theorem popInbox_arg (s : State) : (popInbox s).arg = s.arg := rfl
@[simp] theorem popInbox_lanes (s : State) : (popInbox s).lanes = s.lanes := rfl
@[simp] theorem popInbox_f (s : State) : (popInbox s).f = s.f := rfl
@[simp] theorem popInbox_dmem (s : State) : (popInbox s).dmem = s.dmem := rfl
@[simp] theorem popInbox_work (s : State) : (popInbox s).work = s.work := rfl
@[simp] theorem popInbox_host (s : State) : (popInbox s).host = { s.host with inbox := s.host.inbox.tail } := rfl

@[simp] theorem reply_status (v : Word) (s : State) : (reply v s).status = s.status := rfl
@[simp] theorem reply_cmd (v : Word) (s : State) : (reply v s).cmd = s.cmd := rfl
@[simp] theorem reply_rlen (v : Word) (s : State) : (reply v s).rlen = s.rlen := rfl
@[simp] theorem reply_arg (v : Word) (s : State) : (reply v s).arg = s.arg := rfl
@[simp] theorem reply_lanes (v : Word) (s : State) : (reply v s).lanes = s.lanes := rfl
@[simp] theorem reply_f (v : Word) (s : State) : (reply v s).f = s.f := rfl
@[simp] theorem reply_dmem (v : Word) (s : State) : (reply v s).dmem = s.dmem := rfl
@[simp] theorem reply_work (v : Word) (s : State) : (reply v s).work = s.work := rfl
@[simp] theorem reply_host (v : Word) (s : State) : (reply v s).host = { s.host with replies := s.host.replies ++ [v] } := rfl

@[simp] theorem replyDrawn_status (v : Word) (s : State) : (replyDrawn v s).status = s.status := rfl
@[simp] theorem replyDrawn_cmd (v : Word) (s : State) : (replyDrawn v s).cmd = s.cmd := rfl
@[simp] theorem replyDrawn_rlen (v : Word) (s : State) : (replyDrawn v s).rlen = s.rlen := rfl
@[simp] theorem replyDrawn_arg (v : Word) (s : State) : (replyDrawn v s).arg = s.arg := rfl
@[simp] theorem replyDrawn_lanes (v : Word) (s : State) : (replyDrawn v s).lanes = s.lanes := rfl
@[simp] theorem replyDrawn_f (v : Word) (s : State) : (replyDrawn v s).f = s.f := rfl
@[simp] theorem replyDrawn_dmem (v : Word) (s : State) : (replyDrawn v s).dmem = s.dmem := rfl
@[simp] theorem replyDrawn_work (v : Word) (s : State) : (replyDrawn v s).work = s.work := rfl
@[simp] theorem replyDrawn_host (v : Word) (s : State) : (replyDrawn v s).host = { s.host with replies := s.host.replies ++ [v], draws := s.host.draws + 1 } := rfl

@[simp] theorem applyReset_status (s : State) : (applyReset s).status = State.reset.status := rfl
@[simp] theorem applyReset_cmd (s : State) : (applyReset s).cmd = State.reset.cmd := rfl
@[simp] theorem applyReset_rlen (s : State) : (applyReset s).rlen = State.reset.rlen := rfl
@[simp] theorem applyReset_arg (s : State) : (applyReset s).arg = State.reset.arg := rfl
@[simp] theorem applyReset_lanes (s : State) : (applyReset s).lanes = State.reset.lanes := rfl
@[simp] theorem applyReset_f (s : State) : (applyReset s).f = State.reset.f := rfl
@[simp] theorem applyReset_dmem (s : State) : (applyReset s).dmem = State.reset.dmem := rfl
@[simp] theorem applyReset_work (s : State) : (applyReset s).work = State.reset.work := rfl
@[simp] theorem applyReset_host (s : State) : (applyReset s).host = s.host := rfl

@[simp] theorem Status.issue_busy (st : Status) : (st.issue).busy = true := rfl
@[simp] theorem Status.issue_done (st : Status) : (st.issue).done = false := rfl
@[simp] theorem Status.issue_err (st : Status) : (st.issue).err = false := rfl
@[simp] theorem Status.issue_viol (st : Status) : (st.issue).viol = st.viol := rfl
@[simp] theorem Status.issue_ecode (st : Status) : (st.issue).ecode = .noError := rfl

@[simp] theorem Status.succeed_busy (st : Status) : (st.succeed).busy = false := rfl
@[simp] theorem Status.succeed_done (st : Status) : (st.succeed).done = true := rfl
@[simp] theorem Status.succeed_err (st : Status) : (st.succeed).err = st.err := rfl
@[simp] theorem Status.succeed_viol (st : Status) : (st.succeed).viol = st.viol := rfl
@[simp] theorem Status.succeed_ecode (st : Status) : (st.succeed).ecode = .noError := rfl

@[simp] theorem Status.fail_busy (st : Status) (c : ErrCode) : (st.fail c).busy = false := rfl
@[simp] theorem Status.fail_done (st : Status) (c : ErrCode) : (st.fail c).done = st.done := rfl
@[simp] theorem Status.fail_err (st : Status) (c : ErrCode) : (st.fail c).err = true := rfl
@[simp] theorem Status.fail_viol (st : Status) (c : ErrCode) : (st.fail c).viol = st.viol := rfl
@[simp] theorem Status.fail_ecode (st : Status) (c : ErrCode) : (st.fail c).ecode = c := rfl

@[simp] theorem Status.violate_busy (st : Status) : (st.violate).busy = st.busy := rfl
@[simp] theorem Status.violate_done (st : Status) : (st.violate).done = st.done := rfl
@[simp] theorem Status.violate_err (st : Status) : (st.violate).err = st.err := rfl
@[simp] theorem Status.violate_viol (st : Status) : (st.violate).viol = true := rfl
@[simp] theorem Status.violate_ecode (st : Status) : (st.violate).ecode = st.ecode := rfl

@[simp] theorem Status.w1c_busy (st : Status) (v : Word) : (st.w1c v).busy = st.busy := rfl
@[simp] theorem Status.w1c_done (st : Status) (v : Word) : (st.w1c v).done = (st.done && !v.getLsbD 1) := rfl
@[simp] theorem Status.w1c_err (st : Status) (v : Word) : (st.w1c v).err = (st.err && !v.getLsbD 2) := rfl
@[simp] theorem Status.w1c_viol (st : Status) (v : Word) : (st.w1c v).viol = (st.viol && !v.getLsbD 3) := rfl
@[simp] theorem Status.w1c_ecode (st : Status) (v : Word) : (st.w1c v).ecode = st.ecode := rfl

/-- A point write touches F only. -/
theorem State.pWrite_eq (s : State) (k : RegIdx) (q : Point) :
    s.pWrite k q = { s with f := (s.pWrite k q).f } := rfl

@[simp] theorem State.pWrite_status (s : State) (k : RegIdx) (q : Point) : (s.pWrite k q).status = s.status := rfl
@[simp] theorem State.pWrite_cmd (s : State) (k : RegIdx) (q : Point) : (s.pWrite k q).cmd = s.cmd := rfl
@[simp] theorem State.pWrite_rlen (s : State) (k : RegIdx) (q : Point) : (s.pWrite k q).rlen = s.rlen := rfl
@[simp] theorem State.pWrite_arg (s : State) (k : RegIdx) (q : Point) : (s.pWrite k q).arg = s.arg := rfl
@[simp] theorem State.pWrite_lanes (s : State) (k : RegIdx) (q : Point) : (s.pWrite k q).lanes = s.lanes := rfl
@[simp] theorem State.pWrite_dmem (s : State) (k : RegIdx) (q : Point) : (s.pWrite k q).dmem = s.dmem := rfl
@[simp] theorem State.pWrite_work (s : State) (k : RegIdx) (q : Point) : (s.pWrite k q).work = s.work := rfl
@[simp] theorem State.pWrite_host (s : State) (k : RegIdx) (q : Point) : (s.pWrite k q).host = s.host := rfl

/-- An ignored write sets VIOL; any other takes effect (R334). -/
theorem whenIdle_cases (s t : State) :
    (s.status.busy = true ∧ whenIdle s t = { s with status := s.status.violate }) ∨
      (s.status.busy = false ∧ whenIdle s t = t) := by
  unfold whenIdle
  cases h : s.status.busy <;> simp

/-- A failed EXPECT only marks the run as stopped. -/
theorem checkExpect_cases (e : Expectation) (s : State) :
    (e.holds s.status = true ∧ checkExpect e s = s) ∨
      (e.holds s.status = false ∧ checkExpect e s = { s with host := { s.host with stopped := some e } }) := by
  unfold checkExpect
  cases h : e.holds s.status <;> simp

end Sys2Proof.Machine
end

