-- ==== Sys2Proof/Laws/Memory.lean ====
section
/-! SUPPORT. The laws of DMEM: read after write, every operation keeps the canonical form, and the region tests in
the rules' own words (R76, R77). -/

namespace Sys2Proof.Machine

/-! ## One byte -/

theorem Mem.byte?_setByte_same (m : Mem) (a : Nat) (b : Byte) : (Mem.setByte m a b).byte? a = some b := by
  induction m with
  | nil => simp [Mem.setByte, Mem.byte?]
  | cons c m ih =>
    obtain ⟨k, v⟩ := c
    simp only [Mem.setByte]
    split
    · simp [Mem.byte?]
    · split
      · simp [Mem.byte?]
      · rename_i h1 h2
        have : ¬ k = a := fun h => h2 h.symm
        simp [Mem.byte?, this, ih]

theorem Mem.byte?_setByte_other (m : Mem) (a a' : Nat) (b : Byte) (h : a' ≠ a) :
    (Mem.setByte m a b).byte? a' = m.byte? a' := by
  induction m with
  | nil => simp [Mem.setByte, Mem.byte?, h.symm]
  | cons c m ih =>
    obtain ⟨k, v⟩ := c
    simp only [Mem.setByte]
    split
    · simp [Mem.byte?, h.symm]
    · split
      · rename_i h1 h2
        subst h2
        simp [Mem.byte?, h.symm]
      · simp [Mem.byte?, ih]

/-- R87: a byte reads as the last value written to it. -/
theorem Mem.byte?_setByte (m : Mem) (a a' : Nat) (b : Byte) :
    (Mem.setByte m a b).byte? a' = if a' = a then some b else m.byte? a' := by
  split
  · next h => rw [h, Mem.byte?_setByte_same]
  · next h => exact Mem.byte?_setByte_other m a a' b h

theorem Mem.mem_setByte {m : Mem} {a : Nat} {b : Byte} {c : Host.Cell} (h : c ∈ Mem.setByte m a b) :
    c = (a, b) ∨ c ∈ m := by
  induction m with
  | nil => simp [Mem.setByte] at h; exact .inl h
  | cons d m ih =>
    obtain ⟨k, v⟩ := d
    simp only [Mem.setByte] at h
    split at h
    · simpa using h
    · split at h
      · rcases List.mem_cons.1 h with h | h
        · exact .inl h
        · exact .inr (List.mem_cons_of_mem _ h)
      · rcases List.mem_cons.1 h with h | h
        · exact .inr (by simp [h])
        · rcases ih h with h | h
          · exact .inl h
          · exact .inr (List.mem_cons_of_mem _ h)

theorem Mem.wf_nil : Mem.wf [] := List.Pairwise.nil

/-- Writing a byte keeps the canonical form. -/
theorem Mem.wf_setByte {m : Mem} (h : m.wf) (a : Nat) (b : Byte) : (Mem.setByte m a b).wf := by
  induction m with
  | nil => simp [Mem.setByte, Mem.wf]
  | cons d m ih =>
    obtain ⟨k, v⟩ := d
    have hk := List.pairwise_cons.1 h
    simp only [Mem.setByte]
    split
    · next hlt =>
      refine List.pairwise_cons.2 ⟨fun c hc => ?_, h⟩
      rcases List.mem_cons.1 hc with rfl | hc
      · exact hlt
      · exact Nat.lt_trans hlt (hk.1 c hc)
    · split
      · next heq =>
        subst heq
        exact List.pairwise_cons.2 ⟨hk.1, hk.2⟩
      · next hnlt hne =>
        refine List.pairwise_cons.2 ⟨fun c hc => ?_, ih hk.2⟩
        rcases Mem.mem_setByte hc with rfl | hc
        · exact Nat.lt_of_le_of_ne (Nat.not_lt.1 hnlt) (fun e => hne e.symm)
        · exact hk.1 c hc

/-! ## Byte strings -/

theorem Mem.byte?_setBytes_outside (m : Mem) (a : Nat) (x : List Byte) (a' : Nat)
    (h : a' < a ∨ a + x.length ≤ a') : (Mem.setBytes m a x).byte? a' = m.byte? a' := by
  induction x generalizing m a with
  | nil => rfl
  | cons b x ih =>
    simp only [List.length_cons] at h
    rw [Mem.setBytes, ih _ _ (by omega), Mem.byte?_setByte_other _ _ _ _ (by omega)]

theorem Mem.byte?_setBytes_inside (m : Mem) (a : Nat) (x : List Byte) (j : Nat) (h : j < x.length) :
    (Mem.setBytes m a x).byte? (a + j) = some x[j] := by
  induction x generalizing m a j with
  | nil => simp at h
  | cons b x ih =>
    rw [Mem.setBytes]
    cases j with
    | zero => rw [Mem.byte?_setBytes_outside _ _ _ _ (by omega)]; simpa using Mem.byte?_setByte_same m a b
    | succ j =>
      have := ih (m.setByte a b) (a + 1) j (by simpa using h)
      rw [show a + (j + 1) = a + 1 + j by omega, this]; simp

theorem Mem.wf_setBytes {m : Mem} (h : m.wf) (a : Nat) (x : List Byte) : (Mem.setBytes m a x).wf := by
  induction x generalizing m a with
  | nil => exact h
  | cons b x ih => exact ih (Mem.wf_setByte h a b) (a + 1)

theorem Mem.mem_setBytes {m : Mem} {a : Nat} {x : List Byte} {c : Host.Cell} (h : c ∈ Mem.setBytes m a x) :
    (a ≤ c.1 ∧ c.1 < a + x.length) ∨ c ∈ m := by
  induction x generalizing m a with
  | nil => exact .inr h
  | cons b x ih =>
    rcases ih h with h | h
    · left; simp only [List.length_cons]; omega
    · rcases Mem.mem_setByte h with rfl | h
      · left; simp
      · exact .inr h

/-- `bytes?` gives a string exactly when every byte of the region has its value in it. -/
theorem Mem.bytes?_eq_some_iff (m : Mem) (a n : Nat) (x : List Byte) :
    Mem.bytes? m a n = some x ↔ x.length = n ∧ HoldsBytes m a x := by
  induction n generalizing a x with
  | zero =>
    constructor
    · intro h; cases h; exact ⟨rfl, fun j h => by simp at h⟩
    · rintro ⟨h, -⟩; rw [List.length_eq_zero_iff.1 h]; rfl
  | succ n ih =>
    rw [Mem.bytes?]
    constructor
    · intro h
      split at h
      · cases h
      · next b hb =>
        split at h
        · cases h
        · next bs hbs =>
          cases h
          obtain ⟨hl, hh⟩ := (ih _ _).1 hbs
          refine ⟨by simp [hl], fun j hj => ?_⟩
          cases j with
          | zero => simpa using hb
          | succ j =>
            have := hh j (by simpa using hj)
            rw [show a + (j + 1) = a + 1 + j by omega, this]; simp
    · rintro ⟨hl, hh⟩
      cases x with
      | nil => simp at hl
      | cons b x =>
        have h0 := hh 0 (by simp)
        simp only [Nat.add_zero, List.getElem_cons_zero] at h0
        have hr : Mem.bytes? m (a + 1) n = some x := (ih _ _).2 ⟨by simpa using hl, fun j hj => by
          have := hh (j + 1) (by simpa using hj)
          rw [show a + 1 + j = a + (j + 1) by omega, this]; simp⟩
        rw [h0, hr]

/-- `bytes?` gives none exactly when some byte of the region has no value. -/
theorem Mem.bytes?_eq_none_iff (m : Mem) (a n : Nat) :
    Mem.bytes? m a n = none ↔ ∃ j < n, m.byte? (a + j) = none := by
  induction n generalizing a with
  | zero => simp [Mem.bytes?]
  | succ n ih =>
    rw [Mem.bytes?]
    cases hb : m.byte? a with
    | none => simpa using ⟨0, by simp, by simpa using hb⟩
    | some b =>
      have hr : (∃ j < n, m.byte? (a + 1 + j) = none) ↔ ∃ j < n + 1, m.byte? (a + j) = none := by
        constructor
        · rintro ⟨j, hj, h⟩
          exact ⟨j + 1, by omega, by rw [show a + (j + 1) = a + 1 + j by omega]; exact h⟩
        · rintro ⟨j, hj, h⟩
          cases j with
          | zero => simp [hb] at h
          | succ j => exact ⟨j, by omega, by rw [show a + 1 + j = a + (j + 1) by omega]; exact h⟩
      rw [← hr, ← ih]
      cases Mem.bytes? m (a + 1) n <;> simp

/-! ## Regions -/

theorem dmemBytes_ge : 2 ^ 10 ≤ Config.dmemBytes :=
  Nat.pow_le_pow_right (by decide) (Nat.le_add_right 10 _)

theorem dmemBytes_le : Config.dmemBytes ≤ 2 ^ 31 :=
  Nat.pow_le_pow_right (by decide) (by have := Config.dmemLog.isLt; omega)

/-- `DMEM_BYTES` is a multiple of 4, so an aligned access never straddles its end. -/
theorem four_dvd_dmemBytes : 4 ∣ Config.dmemBytes :=
  ⟨2 ^ (8 + Config.dmemLog.val), by
    rw [Config.dmemBytes, show 10 + Config.dmemLog.val = 2 + (8 + Config.dmemLog.val) by omega, Nat.pow_add]⟩

/-- R76 in its own words. -/
theorem inBounds_iff (a n : Nat) : inBounds a n = true ↔ InDmem a n := by
  have h1 := dmemBytes_ge
  have h2 := dmemBytes_le
  simp only [inBounds, InDmem, Bool.or_eq_true, Bool.and_eq_true, decide_eq_true_eq, beq_iff_eq]
  omega

/-- R77 in its own words. -/
theorem overlaps_iff (a1 n1 a2 n2 : Nat) : overlaps a1 n1 a2 n2 = true ↔ Overlap a1 n1 a2 n2 := by
  simp [overlaps, Overlap, Bool.and_eq_true, and_assoc]

end Sys2Proof.Machine
end

