-- ==== Sys2Proof/Laws/Ops.lean ====
section
/-! SUPPORT. What each shared operation of the command rules can do, said once. -/

namespace Sys2Proof.Machine

@[simp] theorem require_true (c : ErrCode) (s : State) (k : Unit → Result) : require true c s k = k () := rfl

@[simp] theorem require_false (c : ErrCode) (s : State) (k : Unit → Result) :
    require false c s k = .next (errorComplete c s) := rfl

/-- `require` either ends the command with its code or goes on; to show P of it, show P of both. -/
theorem require_elim {P : Result → Prop} {cond : Bool} {c : ErrCode} {s : State} {k : Unit → Result}
    (stop : cond = false → P (.next (errorComplete c s))) (go : cond = true → P (k ())) :
    P (require cond c s k) := by
  cases cond
  · exact stop rfl
  · exact go rfl

/-- `MemRead` either faults, on a byte not written, or goes on with the bytes of the region. -/
theorem memRead_elim {P : Result → Prop} {s : State} {a n : Nat} {k : List Byte → Result}
    (stop : (∃ j < n, Mem.byte? s.dmem (a + j) = none) → P (.fault .unwrittenInput))
    (go : ∀ x : List Byte, x.length = n → HoldsBytes s.dmem a x → P (k x)) : P (memRead s a n k) := by
  unfold memRead
  cases h : Mem.bytes? s.dmem a n with
  | none => exact stop ((Mem.bytes?_eq_none_iff _ _ _).1 h)
  | some x =>
    obtain ⟨hl, hx⟩ := (Mem.bytes?_eq_some_iff _ _ _ _).1 h
    exact go x hl hx

/-- `MemRead` of a region that holds x goes on with x. -/
theorem memRead_of_holds {s : State} {a n : Nat} {x : List Byte} (k : List Byte → Result)
    (hl : x.length = n) (hx : HoldsBytes s.dmem a x) : memRead s a n k = k x := by
  unfold memRead
  rw [(Mem.bytes?_eq_some_iff _ _ _ _).2 ⟨hl, hx⟩]

/-- A command's own failure is the error completion of R296. -/
theorem errorComplete_eq_failed (c : ErrCode) (s : State) : errorComplete c s = failed s c := rfl

/-- A completion of writes to STATE, F and DMEM is the successful completion of R109. -/
theorem result_eq_succeeded (s : State) (n : Nat) (lanes : Lanes) (f : Vector FElem 16) (dmem : Mem) :
    result n { s with lanes := lanes, f := f, dmem := dmem } = .next (succeeded s n lanes f dmem) := rfl

/-- R78: `MemWrite` writes its string and nothing else. -/
theorem wroteAt_setBytes (m : Mem) (o : Nat) (x : List Byte) : WroteAt m (Mem.setBytes m o x) o x where
  inside j h := Mem.byte?_setBytes_inside m o x j h
  outside a h := Mem.byte?_setBytes_outside m o x a (by omega)

end Sys2Proof.Machine
end

