-- ==== Sys2Proof/Laws/Exec.lean ====
section
/-! SUPPORT. What executing a command can do, said once: it fails with a code, it faults on unwritten input, or it
completes, with new values of STATE, F and DMEM only where its rule gives it some (`Writes`). Later proofs cite
`exec_cases` and do not unfold `exec`. -/

namespace Sys2Proof.Machine

/-- The commands that write STATE (R41). -/
def Instr.writesLanes : Instr → Bool
  | .keccakf | .sinit | .absorb | .absorbf | .squeeze => true
  | .sponge | .lenc | .renc | .encstr | .bytepad | .shake256 | .cshake256 | .kmacxof256 => false
  | .fmul _ _ _ | .padd _ _ _ | .smul _ _ _ | .ldg _ => false

/-- The commands that write F (R39). -/
def Instr.writesF : Instr → Bool
  | .keccakf | .sinit | .absorb | .absorbf | .squeeze | .sponge | .lenc | .renc | .encstr | .bytepad => false
  | .shake256 | .cshake256 | .kmacxof256 => false
  | .fmul _ _ _ | .padd _ _ _ | .smul _ _ _ | .ldg _ => true

/-- The commands with an output region, at ARG6 (R103). -/
def Instr.hasOutput : Instr → Bool
  | .squeeze | .sponge | .lenc | .renc | .encstr | .bytepad | .shake256 | .cshake256 | .kmacxof256 => true
  | .keccakf | .sinit | .absorb | .absorbf => false
  | .fmul _ _ _ | .padd _ _ _ | .smul _ _ _ | .ldg _ => false

/-- What a command that completes, with RLEN = n, has written: STATE, F and DMEM only where its rule gives it something
to write, and to DMEM one string x, in bounds, at ARG6. -/
structure Writes (i : Instr) (s : State) (n : Nat) (lanes : Lanes) (f : Vector FElem 16) (dmem : Mem) : Prop where
  lanes_eq : Instr.writesLanes i = false → lanes = s.lanes
  f_eq : Instr.writesF i = false → f = s.f
  dmem_eq : Instr.hasOutput i = false → n = 0 ∧ dmem = s.dmem
  output : Instr.hasOutput i = true →
    ∃ x : List Byte, InDmem (s.argNat 6) x.length ∧ n = x.length ∧ dmem = Mem.setBytes s.dmem (s.argNat 6) x

/-- The three ways a command ends. -/
inductive Ends (i : Instr) (s : State) : Result → Prop where
  | failed (c : ErrCode) (hc : c ≠ .noError) : Ends i s (.next (failed s c))
  | fault (h : ReadsUnwritten i s) : Ends i s (.fault .unwrittenInput)
  | succeeded (n : Nat) (lanes : Lanes) (f : Vector FElem 16) (dmem : Mem) (h : Writes i s n lanes f dmem) :
      Ends i s (.next (succeeded s n lanes f dmem))

/-- A completion that writes no DMEM. -/
theorem Ends.noOutput {i : Instr} {s : State} {lanes : Lanes} {f : Vector FElem 16}
    (ho : Instr.hasOutput i = false) (hl : Instr.writesLanes i = false → lanes = s.lanes)
    (hf : Instr.writesF i = false → f = s.f) :
    Ends i s (result 0 { s with lanes := lanes, f := f }) :=
  .succeeded 0 lanes f s.dmem ⟨hl, hf, fun _ => ⟨rfl, rfl⟩, fun h => by rw [ho] at h; cases h⟩

/-- A completion that writes x, in bounds, at ARG6. -/
theorem Ends.output {i : Instr} {s : State} {n : Nat} {lanes : Lanes} {x : List Byte}
    (ho : Instr.hasOutput i = true) (hl : Instr.writesLanes i = false → lanes = s.lanes)
    (hn : x.length = n) (hb : inBounds (s.argNat 6) n = true) :
    Ends i s (result n { memWrite (s.argNat 6) x s with lanes := lanes }) :=
  .succeeded n lanes s.f _ ⟨hl, fun _ => rfl, fun h => (by rw [ho] at h; cases h),
    fun _ => ⟨x, by rw [hn]; exact (inBounds_iff _ _).1 hb, hn.symm, rfl⟩⟩

theorem Ends.require {i : Instr} {s : State} {cond : Bool} {c : ErrCode} {k : Unit → Result}
    (hc : c ≠ .noError) (h : cond = true → Ends i s (k ())) : Ends i s (require cond c s k) :=
  require_elim (P := Ends i s) (fun _ => .failed c hc) h

theorem Ends.memRead {i : Instr} {s : State} {p q : Fin 8} {k : List Byte → Result}
    (hr : (p, q) ∈ Instr.inputArgs i) (h : ∀ x : List Byte, x.length = s.argNat q → Ends i s (k x)) :
    Ends i s (memRead s (s.argNat p) (s.argNat q) k) :=
  memRead_elim (P := Ends i s) (fun hj => .fault ⟨(p, q), hr, hj⟩) (fun x hx _ => h x hx)

theorem Ends.requirePoint {i : Instr} {s : State} {r : Option Point} {k : Point → Result}
    (h : ∀ q, Ends i s (k q)) : Ends i s (requirePoint r s k) := by
  cases r with
  | none => exact .failed .invalidPoint (by decide)
  | some q => exact h q

theorem Ends.oneShot1 {i : Instr} {s : State} {g : List Byte → Nat → List Byte}
    (hr : (0, 1) ∈ Instr.inputArgs i) (ho : Instr.hasOutput i = true)
    (hg : ∀ x L, (g x L).length = L / 8) : Ends i s (oneShot1 g s) := by
  unfold Sys2Proof.Machine.oneShot1
  refine .require (by decide) fun _ => ?_
  refine .require (by decide) fun _ => ?_
  refine .require (by decide) fun hb => ?_
  refine .require (by decide) fun _ => ?_
  exact .memRead hr fun _ _ => .output ho (fun _ => rfl) (hg _ _) hb

theorem Ends.oneShot3 {i : Instr} {s : State} {g : List Byte → List Byte → List Byte → Nat → List Byte}
    (h0 : (0, 1) ∈ Instr.inputArgs i) (h1 : (2, 3) ∈ Instr.inputArgs i) (h2 : (4, 5) ∈ Instr.inputArgs i)
    (ho : Instr.hasOutput i = true) (hg : ∀ x y z L, (g x y z L).length = L / 8) : Ends i s (oneShot3 g s) := by
  unfold Sys2Proof.Machine.oneShot3
  refine .require (by decide) fun _ => ?_
  refine .require (by decide) fun _ => ?_
  refine .require (by decide) fun _ => ?_
  refine .require (by decide) fun _ => ?_
  refine .require (by decide) fun hb => ?_
  refine .require (by decide) fun _ => ?_
  exact .memRead h0 fun _ _ => .memRead h1 fun _ _ => .memRead h2 fun _ _ =>
    .output ho (fun _ => rfl) (hg _ _ _ _) hb

theorem Ends.encodeRegion {i : Instr} {s : State} {m : Nat} {g : List Byte → List Byte}
    (hr : (0, 1) ∈ Instr.inputArgs i) (ho : Instr.hasOutput i = true)
    (hg : ∀ x : List Byte, x.length = s.argNat 1 → (g x).length = m) : Ends i s (encodeRegion m g s) := by
  unfold Sys2Proof.Machine.encodeRegion
  refine .require (by decide) fun _ => ?_
  refine .require (by decide) fun hb => ?_
  refine .require (by decide) fun _ => ?_
  exact .memRead hr fun x hx => .output ho (fun _ => rfl) (hg x hx) hb

theorem Ends.encodeInt {i : Instr} {s : State} {enc : Nat → List Byte} (ho : Instr.hasOutput i = true) :
    Ends i s (encodeInt enc s) := by
  unfold Sys2Proof.Machine.encodeInt
  refine .require (by decide) fun _ => ?_
  refine .require (by decide) fun hb => ?_
  exact .output ho (fun _ => rfl) rfl hb

/-- Every command ends in one of the three ways. -/
theorem exec_ends (i : Instr) (s : State) : Ends i s (exec i s) := by
  cases i with
  | keccakf =>
    simp only [exec, execKeccakf]
    exact .noOutput rfl (fun h => by cases h) (fun _ => rfl)
  | sinit =>
    simp only [exec, execSinit]
    exact .noOutput rfl (fun h => by cases h) (fun _ => rfl)
  | absorb =>
    simp only [exec, execAbsorb]
    refine .require (by decide) fun _ => ?_
    refine .require (by decide) fun _ => ?_
    exact .memRead (by decide) fun _ _ => .noOutput rfl (fun h => by cases h) (fun _ => rfl)
  | absorbf =>
    simp only [exec, execAbsorbf]
    refine .require (by decide) fun _ => ?_
    exact .memRead (by decide) fun _ _ => .noOutput rfl (fun h => by cases h) (fun _ => rfl)
  | squeeze =>
    simp only [exec, execSqueeze]
    refine .require (by decide) fun _ => ?_
    refine .require (by decide) fun hb => ?_
    exact .output rfl (fun h => by cases h) (length_squeeze _ _) hb
  | sponge =>
    simp only [exec, execSponge]
    exact .oneShot1 (by decide) rfl length_sponge
  | lenc =>
    simp only [exec, execLenc]
    exact .encodeInt rfl
  | renc =>
    simp only [exec, execRenc]
    exact .encodeInt rfl
  | encstr =>
    simp only [exec, execEncstr]
    exact .encodeRegion (by decide) rfl fun x hx => by rw [length_encodeString, hx]
  | bytepad =>
    simp only [exec, execBytepad]
    refine .require (by decide) fun hw => ?_
    exact .encodeRegion (by decide) rfl fun x hx => by rw [length_bytepad x (of_decide_eq_true hw), hx]
  | shake256 =>
    simp only [exec, execShake256]
    exact .oneShot1 (by decide) rfl length_shake256
  | cshake256 =>
    simp only [exec, execCshake256]
    exact .oneShot3 (by decide) (by decide) (by decide) rfl fun _ _ _ _ => length_cshake256 _ _ _ _
  | kmacxof256 =>
    simp only [exec, execKmacxof256]
    exact .oneShot3 (by decide) (by decide) (by decide) rfl fun _ _ _ _ => length_kmacxof256 _ _ _ _
  | fmul fd fa fb =>
    simp only [exec, execFmul]
    refine .require (by decide) fun _ => ?_
    refine .require (by decide) fun _ => ?_
    exact .noOutput rfl (fun _ => rfl) (fun h => by cases h)
  | padd pd pa pb =>
    simp only [exec, execPadd]
    refine .require (by decide) fun _ => ?_
    refine .require (by decide) fun _ => ?_
    refine .require (by decide) fun _ => ?_
    exact .requirePoint fun _ => .noOutput rfl (fun _ => rfl) (fun h => by cases h)
  | smul pd pa fs =>
    simp only [exec, execSmul]
    refine .require (by decide) fun _ => ?_
    refine .require (by decide) fun _ => ?_
    refine .require (by decide) fun _ => ?_
    exact .requirePoint fun _ => .noOutput rfl (fun _ => rfl) (fun h => by cases h)
  | ldg pd =>
    simp only [exec, execLdg]
    refine .require (by decide) fun _ => ?_
    exact .noOutput rfl (fun _ => rfl) (fun h => by cases h)

/-- `exec_ends` as a disjunction. -/
theorem exec_cases (i : Instr) (s : State) :
    (∃ c, c ≠ .noError ∧ exec i s = .next (failed s c)) ∨
      (exec i s = .fault .unwrittenInput ∧ ReadsUnwritten i s) ∨
      ∃ n lanes f dmem, exec i s = .next (succeeded s n lanes f dmem) ∧ Writes i s n lanes f dmem := by
  have h := exec_ends i s
  generalize exec i s = r at h
  cases h with
  | failed c hc => exact .inl ⟨c, hc, rfl⟩
  | fault h => exact .inr (.inl ⟨rfl, h⟩)
  | succeeded n l f m hw => exact .inr (.inr ⟨n, l, f, m, rfl, hw⟩)

/-- The engine's turn on the word in CMD ends in the same ways; an illegal word fails (R295). -/
theorem runCommand_cases (s : State) :
    (∃ c, c ≠ .noError ∧ runCommand s = .next (failed s c)) ∨ runCommand s = .fault .unwrittenInput ∨
      ∃ n lanes f dmem, runCommand s = .next (succeeded s n lanes f dmem) ∧
        (dmem = s.dmem ∨ ∃ x : List Byte,
          InDmem (s.argNat 6) x.length ∧ dmem = Mem.setBytes s.dmem (s.argNat 6) x) := by
  unfold runCommand
  cases decode s.cmd with
  | error r => exact .inl ⟨.illegalCmd, by decide, rfl⟩
  | ok i =>
    rcases exec_cases i s with h | h | h
    · exact .inl h
    · exact .inr (.inl h.1)
    · obtain ⟨n, l, f, m, h, hw⟩ := h
      refine .inr (.inr ⟨n, l, f, m, h, ?_⟩)
      cases ho : Instr.hasOutput i with
      | false => exact .inl (hw.dmem_eq ho).2
      | true =>
        obtain ⟨x, hx, -, hm⟩ := hw.output ho
        exact .inr ⟨x, hx, hm⟩

/-- A write of CMD while idle either issues the word or faults, on unwritten input, at issue (R106, R338). -/
theorem issueCommand_cases (w : Word) (s : State) :
    issueCommand w s = .next (issue w s) ∨
      (issueCommand w s = .fault .unwrittenInput ∧ runCommand (issue w s) = .fault .unwrittenInput) := by
  unfold issueCommand
  rcases runCommand_cases (issue w s) with ⟨c, -, h⟩ | h | ⟨n, l, f, m, h, -⟩
  · left; rw [h]
  · right; rw [h]; exact ⟨rfl, rfl⟩
  · left; rw [h]

/-- A host access that takes effect is one the spec gives a meaning (R71 to R73); the others are refused. -/
theorem access_cases (pl : Place) (width : Nat) (k : Window → Nat → Result) :
    (∃ win off, pl.locate = some (win, off) ∧ win.allows width = true ∧ off % width = 0 ∧
      access pl width k = k win off) ∨ ∃ r, access pl width k = .refused r := by
  unfold access
  cases hl : pl.locate with
  | none => exact .inr ⟨_, rfl⟩
  | some p =>
    obtain ⟨win, off⟩ := p
    cases ha : win.allows width with
    | false => exact .inr ⟨.accessWidth, by simp [ha]⟩
    | true =>
      by_cases hm : off % width = 0
      · exact .inl ⟨win, off, rfl, ha, hm, by simp [ha, hm]⟩
      · exact .inr ⟨.misaligned, by simp [ha, hm]⟩

end Sys2Proof.Machine
end

