-- ==== Sys2Proof/Laws/Host.lean ====
section
/-! SUPPORT. What a step does, event by event, and where an aligned host access lands (R32, R72, R73). -/

namespace Sys2Proof.Machine

/-! ## Words of wide registers (R39, R41) -/

/-- Bit i of a wide register after its word w is replaced. -/
theorem getLsbD_setWord {n : Nat} (x : BitVec n) (w : Nat) (v : Word) (i : Nat) (hi : i < n) :
    (setWord x w v).getLsbD i =
      if 32 * w ≤ i ∧ i < 32 * w + 32 then v.getLsbD (i - 32 * w) else x.getLsbD i := by
  have hones : ∀ j, (0xFFFFFFFF#32 : BitVec 32).getLsbD j = decide (j < 32) := fun j => by
    rw [show (0xFFFFFFFF#32 : BitVec 32) = BitVec.allOnes 32 by decide, BitVec.getLsbD_allOnes]
  simp only [setWord, BitVec.getLsbD_or, BitVec.getLsbD_and, BitVec.getLsbD_not, BitVec.getLsbD_shiftLeft,
    BitVec.getLsbD_setWidth, hones, hi, decide_true, Bool.true_and]
  by_cases h1 : i < 32 * w
  · simp [h1, show ¬ 32 * w ≤ i by omega]
  · by_cases h2 : i < 32 * w + 32
    · simp [h1, h2, show 32 * w ≤ i by omega, show i - 32 * w < 32 by omega, show i - 32 * w < n by omega]
    · have : v.getLsbD (i - 32 * w) = false := BitVec.getLsbD_of_ge _ _ (by omega)
      simp [h2, this, show ¬ i - 32 * w < 32 by omega]

theorem getWord_setWord_same {n : Nat} (x : BitVec n) (w : Nat) (v : Word) (h : 32 * w + 32 ≤ n) :
    getWord (setWord x w v) w = v := by
  apply BitVec.eq_of_getLsbD_eq
  intro i hi
  rw [getWord, BitVec.getLsbD_extractLsb', getLsbD_setWord _ _ _ _ (by omega)]
  simp [hi]

theorem getWord_setWord_other {n : Nat} (x : BitVec n) (w w' : Nat) (v : Word) (h : w' ≠ w) (h' : 32 * w' + 32 ≤ n) :
    getWord (setWord x w v) w' = getWord x w' := by
  apply BitVec.eq_of_getLsbD_eq
  intro i hi
  rw [getWord, getWord, BitVec.getLsbD_extractLsb', BitVec.getLsbD_extractLsb', getLsbD_setWord _ _ _ _ (by omega),
    if_neg (by omega)]

/-! ## Where an access lands -/

theorem access_reg {off : Nat} (ha : off % 4 = 0) (hlt : off < 0x1000) (k : Window → Nat → Result) :
    access (.offset .reg off) 4 k = k .reg off := by
  simp [access, Place.locate, regWindowBytes, Window.allows, hlt, ha]

theorem access_dmem {a n : Nat} (hn : n = 1 ∨ n = 2 ∨ n = 4) (ha : a % n = 0) (hlt : a < Config.dmemBytes)
    (k : Window → Nat → Result) : access (.offset .dmem a) n k = k .dmem a := by
  have hb : inBounds a 1 = true := (inBounds_iff a 1).2 (.inr hlt)
  have hw : (n == 1 || n == 2 || n == 4) = true := by simp [Bool.or_eq_true]; omega
  simp [access, Place.locate, Window.allows, hb, hw, ha]

theorem takeEvent_regStore {off : Nat} (ha : off % 4 = 0) (hlt : off < 0x1000) (v : Word) (s : State) :
    takeEvent (regStore off v) s = hostWrite s 4 v .reg off := by
  simp only [takeEvent, regStore]; exact access_reg ha hlt _

theorem takeEvent_regLoad {off : Nat} (ha : off % 4 = 0) (hlt : off < 0x1000) (s : State) :
    takeEvent (regLoad off) s = .next (hostRead s 4 .reg off) := by
  simp only [takeEvent, regLoad]; exact access_reg ha hlt _

theorem takeEvent_dmemStore {a n : Nat} (hn : n = 1 ∨ n = 2 ∨ n = 4) (ha : a % n = 0) (hlt : a < Config.dmemBytes)
    (v : Word) (s : State) : takeEvent (.write (.offset .dmem a) n v) s = .next (dmemWrite s a n v) := by
  simp only [takeEvent]; exact access_dmem hn ha hlt _

theorem takeEvent_dmemLoad {a n : Nat} (hn : n = 1 ∨ n = 2 ∨ n = 4) (ha : a % n = 0) (hlt : a < Config.dmemBytes)
    (s : State) : takeEvent (.read (.offset .dmem a) n) s = .next (hostRead s n .dmem a) := by
  simp only [takeEvent]; exact access_dmem hn ha hlt _

/-! ## The register map (R32) -/

theorem regAt_arg {off : Nat} (h : 0x020 ≤ off ∧ off < 0x040) : regAt off = .arg ⟨(off - 0x020) / 4, by omega⟩ := by
  simp only [regAt]
  rw [if_neg (by omega), if_neg (by omega), if_neg (by omega), if_neg (by omega), if_neg (by omega), dif_pos h]

theorem regAt_lane {off : Nat} (h : 0x100 ≤ off ∧ off < 0x1C8) :
    regAt off = .lane ⟨(off - 0x100) / 8, by omega⟩ ⟨off % 8 / 4, by omega⟩ := by
  simp only [regAt]
  rw [if_neg (by omega), if_neg (by omega), if_neg (by omega), if_neg (by omega), if_neg (by omega),
    dif_neg (by omega), dif_pos h]

theorem regAt_fword {off : Nat} (h : 0x200 ≤ off ∧ off < 0x600 ∧ off % 64 < 56) :
    regAt off = .fword ⟨(off - 0x200) / 64, by omega⟩ ⟨off % 64 / 4, by omega⟩ := by
  simp only [regAt]
  rw [if_neg (by omega), if_neg (by omega), if_neg (by omega), if_neg (by omega), if_neg (by omega),
    dif_neg (by omega), dif_neg (by omega), dif_pos h]

/-- R43: the reserved offsets. -/
theorem regAt_reserved {off : Nat} (h : (0x011 ≤ off ∧ off < 0x020) ∨ (0x040 ≤ off ∧ off < 0x100) ∨
    (0x1C8 ≤ off ∧ off < 0x200) ∨ (0x200 ≤ off ∧ off < 0x600 ∧ 56 ≤ off % 64) ∨ 0x600 ≤ off) :
    regAt off = .reserved := by
  simp only [regAt]
  rw [if_neg (by omega), if_neg (by omega), if_neg (by omega), if_neg (by omega), if_neg (by omega),
    dif_neg (by omega), dif_neg (by omega), dif_neg (by omega)]

/-- Only offset 0x00C is CMD. -/
theorem regAt_eq_cmd {off : Nat} : regAt off = .cmd ↔ off = 0x00C := by
  constructor
  · intro h
    simp only [regAt] at h
    split at h
    · cases h
    split at h
    · cases h
    split at h
    · cases h
    split at h
    · assumption
    split at h
    · cases h
    split at h
    · cases h
    split at h
    · cases h
    split at h
    · cases h
    · cases h
  · rintro rfl; rfl

/-- A write to a register other than CMD is the write of `regWrite`. -/
theorem hostWrite_reg {off : Nat} (h : off ≠ 0x00C) (s : State) (v : Word) :
    hostWrite s 4 v .reg off = .next (regWrite s v (regAt off)) := by
  simp [hostWrite, mt regAt_eq_cmd.1 h]

/-! ## A step, event by event -/

theorem step_event {s : State} {op : HostOp} {rest : List HostOp} (hs : s.host.stopped = none)
    (hi : s.host.inbox = op :: rest) : step s = takeEvent op (popInbox s) := by
  simp only [step, nextEvent, hs, hi]

theorem step_no_event {s : State} (hs : s.host.stopped = none) (hi : s.host.inbox = []) : step s = engineTurn s := by
  simp only [step, nextEvent, hs, hi]

/-- An expect-stopped run is over (R341). -/
theorem step_stopped {s : State} {e : Expectation} (hs : s.host.stopped = some e) : step s = .next s := by
  simp only [step, nextEvent, hs]

theorem engineTurn_busy {s : State} (h : s.status.busy = true) : engineTurn s = runCommand s := by
  simp [engineTurn, h]

theorem engineTurn_idle {s : State} (h : s.status.busy = false) : engineTurn s = .next s := by
  simp [engineTurn, h]

/-- A WAIT on a busy engine stays delivered, and the engine has its turn (R339). -/
theorem step_wait_busy {s : State} {rest : List HostOp} (hs : s.host.stopped = none)
    (hi : s.host.inbox = .wait :: rest) (hb : s.status.busy = true) : step s = runCommand s := by
  obtain ⟨st, c, r, a, l, f, d, w, ⟨i, rp, sp, dr⟩⟩ := s
  simp only at hs hi hb
  subst hs hi
  simp only [step, nextEvent, takeEvent, popInbox, hb, if_true, List.tail_cons]

theorem runCommand_legal {s : State} {i : Instr} (h : decode s.cmd = .ok i) : runCommand s = exec i s := by
  simp only [runCommand, h]

theorem runCommand_illegal {s : State} {r : Reject} (h : decode s.cmd = .error r) :
    runCommand s = .next (failed s .illegalCmd) := by
  simp only [runCommand, h]; rfl

/-- A command, and the engine's turn, leave the host's side, CMD, ARG and VIOL alone and end the busy window. -/
theorem runCommand_frame {s t : State} (h : runCommand s = .next t) :
    t.host = s.host ∧ t.cmd = s.cmd ∧ t.arg = s.arg ∧ t.status.viol = s.status.viol ∧ t.status.busy = false := by
  rcases runCommand_cases s with ⟨c, -, hc⟩ | hc | ⟨n, l, f, m, hc, -⟩
  · rw [h] at hc; cases hc; exact ⟨rfl, rfl, rfl, rfl, rfl⟩
  · rw [h] at hc; cases hc
  · rw [h] at hc; cases hc; exact ⟨rfl, rfl, rfl, rfl, rfl⟩

end Sys2Proof.Machine
end

