-- ==== Sys2Proof/Laws/PerInstr.lean ====
section
/-! SUPPORT. Statements about every command, made one constructor at a time. -/

namespace Sys2Proof.Laws.EncodedFields

/-- R100, R104: the encoded word carries the command's opcode, and its RSV field is 0. -/
def Statement (i : Instr) : Prop := opcField (encode i) = i.opcode ∧ rsvField (encode i) = 0

/-- Both hold of any word laid out by its fields. -/
theorem ofPack (rb ra rd : RegIdx) (opc : BitVec 8) :
    opcField (packFields rb ra rd opc) = opc ∧ rsvField (packFields rb ra rd opc) = 0 :=
  ⟨opcField_packFields rb ra rd opc, rsvField_packFields rb ra rd opc⟩

theorem keccakf : Statement .keccakf := ofPack _ _ _ _
theorem sinit : Statement .sinit := ofPack _ _ _ _
theorem absorb : Statement .absorb := ofPack _ _ _ _
theorem absorbf : Statement .absorbf := ofPack _ _ _ _
theorem squeeze : Statement .squeeze := ofPack _ _ _ _
theorem sponge : Statement .sponge := ofPack _ _ _ _
theorem lenc : Statement .lenc := ofPack _ _ _ _
theorem renc : Statement .renc := ofPack _ _ _ _
theorem encstr : Statement .encstr := ofPack _ _ _ _
theorem bytepad : Statement .bytepad := ofPack _ _ _ _
theorem shake256 : Statement .shake256 := ofPack _ _ _ _
theorem cshake256 : Statement .cshake256 := ofPack _ _ _ _
theorem kmacxof256 : Statement .kmacxof256 := ofPack _ _ _ _
theorem fmul (fd fa fb : RegIdx) : Statement (.fmul fd fa fb) := ofPack _ _ _ _
theorem padd (pd pa pb : RegIdx) : Statement (.padd pd pa pb) := ofPack _ _ _ _
theorem smul (pd pa fs : RegIdx) : Statement (.smul pd pa fs) := ofPack _ _ _ _
theorem ldg (pd : RegIdx) : Statement (.ldg pd) := ofPack _ _ _ _

end Sys2Proof.Laws.EncodedFields
end

