-- ==== Sys2Proof/Laws/Step.lean ====
section
/-! SUPPORT. What a step can do to the engine, said once (`step_effect`). Later proofs about every step cite it and do
not unfold `step`. -/

namespace Sys2Proof.Machine

/-- Offset 0x008 is STATUS, and no other. -/
theorem regAt_eq_status {off : Nat} : regAt off = .status ↔ off = 0x008 := by
  constructor
  · intro h
    simp only [regAt] at h
    split at h
    · cases h
    split at h
    · cases h
    split at h
    · assumption
    split at h
    · cases h
    split at h
    · cases h
    split at h
    · cases h
    split at h
    · cases h
    split at h
    · cases h
    · cases h
  · rintro rfl; rfl

/-- A located DMEM place is a byte of DMEM. -/
theorem locate_dmem_lt {pl : Place} {off : Nat} (h : pl.locate = some (.dmem, off)) : off < Config.dmemBytes := by
  cases pl with
  | offset w o =>
    cases w <;> simp only [Place.locate] at h <;> split at h <;> cases h
    next hb =>
      rcases (inBounds_iff _ _).1 hb with hb | hb
      · cases hb
      · exact hb
  | bus ad =>
    simp only [Place.locate] at h
    split at h
    · cases h
    · next h1 h2 =>
      cases h
      have := of_decide_eq_true h2
      omega
    · cases h

/-- An aligned access of an allowed width that starts in DMEM ends in DMEM. -/
theorem aligned_inside {off n : Nat} (hn : Window.dmem.allows n = true) (hm : off % n = 0)
    (hlt : off < Config.dmemBytes) : off + n ≤ Config.dmemBytes := by
  have h4 := four_dvd_dmemBytes
  have hc : n = 1 ∨ n = 2 ∨ n = 4 := by
    simp only [Window.allows, Bool.or_eq_true, beq_iff_eq] at hn; omega
  rcases hc with rfl | rfl | rfl <;> omega

/-- The engine's side of a step: everything but the host's side, which is `h` afterwards. -/
inductive Effect (s : State) : State → Prop where
  /-- nothing but the host's side: a read, an ignored write that sets nothing, EXPECT, WAIT on an idle engine, an idle
  engine's turn, a run that is over -/
  | hostOnly (h : HostSide) : Effect s { s with host := h }
  /-- a host write of STATUS (R36) -/
  | statusWrite (pl : Place) (n : Nat) (v : Word) (h : HostSide) (hi : s.host.inbox.head? = some (.write pl n v))
      (hp : pl.locate = some (.reg, 0x008)) : Effect s { s with status := s.status.w1c v, host := h }
  /-- a host write ignored because the engine is busy (R334) -/
  | ignoredWrite (pl : Place) (n : Nat) (v : Word) (h : HostSide) (hs : s.host.stopped = none)
      (hi : s.host.inbox.head? = some (.write pl n v)) (hb : s.status.busy = true) :
      Effect s { s with status := s.status.violate, host := h }
  /-- a host write of CMD (R106) -/
  | issued (w : Word) (h : HostSide) (hb : s.status.busy = false) : Effect s (issue w { s with host := h })
  /-- a host write of ARG, STATE or F -/
  | regStored (arg : Vector Word 8) (lanes : Lanes) (f : Vector FElem 16) (h : HostSide) (hb : s.status.busy = false) :
      Effect s { s with arg := arg, lanes := lanes, f := f, host := h }
  /-- a host write of DMEM (R72) -/
  | dmemStored (a : Nat) (x : List Byte) (h : HostSide) (hb : s.status.busy = false)
      (hx : a + x.length ≤ Config.dmemBytes) : Effect s { s with dmem := Mem.setBytes s.dmem a x, host := h }
  /-- reset (R330) -/
  | reset (h : HostSide) (hi : s.host.inbox.head? = some .reset) : Effect s { State.reset with host := h }
  /-- the command in flight completes (R109, R295, R296) -/
  | completed (t : State) (h : HostSide) (hb : s.status.busy = true) (hr : runCommand { s with host := h } = .next t) :
      Effect s t

theorem effect_engineTurn {s t : State} {h : HostSide} (he : engineTurn { s with host := h } = .next t) :
    Effect s t := by
  unfold engineTurn at he
  split at he
  · next hb => exact .completed t h hb he
  · cases he; exact .hostOnly h

theorem effect_write {s t : State} {h : HostSide} {pl : Place} {n : Nat} {v : Word} (hs : s.host.stopped = none)
    (hi : s.host.inbox.head? = some (.write pl n v)) (he : takeEvent (.write pl n v) { s with host := h } = .next t) :
    Effect s t := by
  simp only [takeEvent] at he
  rcases access_cases pl n (hostWrite { s with host := h } n v) with ⟨win, off, hloc, hal, hmod, ha⟩ | ⟨r, ha⟩
  · rw [ha] at he
    cases win with
    | reg =>
      simp only [hostWrite] at he
      split at he
      · unfold cmdWrite at he
        cases hb : s.status.busy with
        | true => simp only [hb, if_true] at he; cases he; exact .ignoredWrite pl n v h hs hi hb
        | false =>
          simp only [hb] at he
          rcases issueCommand_cases v { s with host := h } with hc | ⟨hc, -⟩
          · rw [if_neg (by simp), hc] at he; cases he; exact .issued v h hb
          · rw [if_neg (by simp), hc] at he; cases he
      · cases he
        cases hr : regAt off with
        | status =>
          have := regAt_eq_status.1 hr
          subst this
          exact .statusWrite pl n v h hi hloc
        | id | dmemsz | rlen | reserved | cmd => exact .hostOnly h
        | arg i =>
          cases hb : s.status.busy <;> simp only [regWrite, whenIdle, hb]
          · exact .regStored _ _ _ h hb
          · exact .ignoredWrite pl n v h hs hi hb
        | lane k w =>
          cases hb : s.status.busy <;> simp only [regWrite, whenIdle, hb]
          · exact .regStored _ _ _ h hb
          · exact .ignoredWrite pl n v h hs hi hb
        | fword k w =>
          cases hb : s.status.busy <;> simp only [regWrite, whenIdle, hb]
          · exact .regStored _ _ _ h hb
          · exact .ignoredWrite pl n v h hs hi hb
    | dmem =>
      simp only [hostWrite, dmemWrite] at he
      cases he
      cases hb : s.status.busy <;> simp only [whenIdle, hb]
      · refine .dmemStored off _ h hb ?_
        rw [length_leBytes]
        exact aligned_inside hal hmod (locate_dmem_lt hloc)
      · exact .ignoredWrite pl n v h hs hi hb
  · rw [ha] at he; cases he

/-- Everything a step can do. -/
theorem step_effect {s t : State} (h : step s = .next t) : Effect s t := by
  cases hst : s.host.stopped with
  | some e =>
    rw [step_stopped hst] at h
    cases h; exact .hostOnly s.host
  | none =>
    cases hin : s.host.inbox with
    | nil =>
      rw [step_no_event hst hin] at h
      exact effect_engineTurn (h := s.host) h
    | cons op rest =>
      rw [step_event hst hin] at h
      have hh : s.host.inbox.head? = some op := by rw [hin]; rfl
      cases op with
      | write pl n v => exact effect_write hst hh h
      | read pl n =>
        simp only [takeEvent] at h
        rcases access_cases pl n (fun win off => .next (hostRead (popInbox s) n win off)) with
          ⟨_, _, -, -, -, ha⟩ | ⟨_, ha⟩
        · rw [ha] at h; cases h
          unfold hostRead
          split <;> split <;> exact .hostOnly _
        · rw [ha] at h; cases h
      | wait =>
        simp only [takeEvent] at h
        split at h
        · next hb => exact .completed t _ hb h
        · cases h; exact .hostOnly _
      | expect e =>
        simp only [takeEvent] at h; cases h
        rcases checkExpect_cases e (popInbox s) with ⟨-, hc⟩ | ⟨-, hc⟩ <;> rw [hc] <;> exact .hostOnly _
      | reset =>
        simp only [takeEvent] at h; cases h
        exact .reset _ hh
      | engine => exact effect_engineTurn h

end Sys2Proof.Machine
end

