-- ==== Sys2Proof/Laws/Run.lean ====
section
/-! SUPPORT. Runs (R341): how a step shortens what is left of a run, where a run ends, and that a state leads to
the states of one run only. -/

namespace Sys2Proof.Machine

/-! ## What a step leaves of the run -/

theorem hostWrite_host {s t : State} {n : Nat} {v : Word} {win : Window} {off : Nat}
    (h : hostWrite s n v win off = .next t) : t.host = s.host := by
  cases win with
  | reg =>
    simp only [hostWrite] at h
    split at h
    · unfold cmdWrite at h
      split at h
      · cases h; rfl
      · rcases issueCommand_cases v s with hc | ⟨hc, -⟩ <;> rw [hc] at h <;> cases h
        rfl
    · cases h
      cases regAt off <;> simp only [regWrite, whenIdle] <;> split <;> rfl
  | dmem =>
    simp only [hostWrite, dmemWrite, whenIdle] at h
    split at h <;> cases h <;> rfl

/-- An event that is taken leaves the later ones delivered. A WAIT on a busy engine is not taken: it stays, and the command
completes (R339). -/
theorem takeEvent_inbox {op : HostOp} {s t : State} (h : takeEvent op s = .next t) :
    t.host.inbox = s.host.inbox ∨
      (s.status.busy = true ∧ t.status.busy = false ∧ t.host.inbox = op :: s.host.inbox) := by
  cases op with
  | write pl n v =>
    simp only [takeEvent] at h
    rcases access_cases pl n (hostWrite s n v) with ⟨_, _, -, -, -, ha⟩ | ⟨_, ha⟩ <;> rw [ha] at h
    · rw [hostWrite_host h]; exact .inl rfl
    · cases h
  | read pl n =>
    simp only [takeEvent] at h
    rcases access_cases pl n (fun win off => .next (hostRead s n win off)) with ⟨_, _, -, -, -, ha⟩ | ⟨_, ha⟩ <;>
      rw [ha] at h <;> cases h
    left
    unfold hostRead
    split <;> split <;> rfl
  | wait =>
    simp only [takeEvent] at h
    split at h
    · next hb =>
      obtain ⟨hh, -, -, -, hbt⟩ := runCommand_frame h
      exact .inr ⟨hb, hbt, by rw [hh]⟩
    · cases h; exact .inl rfl
  | expect e =>
    cases h
    rcases checkExpect_cases e s with ⟨-, hc⟩ | ⟨-, hc⟩ <;> rw [hc] <;> exact .inl rfl
  | reset => cases h; exact .inl rfl
  | engine =>
    simp only [takeEvent, engineTurn] at h
    split at h
    · rw [(runCommand_frame h).1]; exact .inl rfl
    · cases h; exact .inl rfl

/-- What is left of a run: its events, and the command in flight. -/
def State.left (s : State) : Nat := 2 * s.host.inbox.length + s.status.busy.toNat

/-- Every step of a run that is not over shortens what is left of it. -/
theorem step_left {s t : State} (h : step s = .next t) (hs : s.host.stopped = none) :
    s.completed ∨ t.left < s.left := by
  cases hin : s.host.inbox with
  | nil =>
    rw [step_no_event hs hin] at h
    cases hb : s.status.busy with
    | false => exact .inl ⟨by simp [hin], hs, hb⟩
    | true =>
      rw [engineTurn_busy hb] at h
      obtain ⟨hh, -, -, -, hbt⟩ := runCommand_frame h
      right
      simp [State.left, hh, hbt, hb]
  | cons op rest =>
    rw [step_event hs hin] at h
    have hp : (popInbox s).host.inbox = rest := by simp [popInbox, hin]
    right
    rcases takeEvent_inbox h with ht | ⟨hb, hbt, ht⟩
    · have := Bool.toNat_le t.status.busy
      simp only [State.left, ht, hp, hin, List.length_cons]; omega
    · have : s.status.busy = true := hb
      simp [State.left, ht, hin, hbt, this]

/-- The host's accesses with nothing between them are one interleaving of every kind. -/
theorem interleaves_self (between ops : List HostOp) : Interleaves between ops ops := by
  induction ops with
  | nil => exact .nil
  | cons op _ ih => exact .host op ih

/-! ## Where a run ends -/

/-- Nothing faults and nothing is refused after a completed run's last statement: what is left is the platform's. -/
theorem step_completed {s : State} (h : s.completed) : s.SafeStep := by
  obtain ⟨hin, hs, hb⟩ := h
  cases hi : s.host.inbox with
  | nil => exact ⟨s, by rw [step_no_event hs hi, engineTurn_idle hb]⟩
  | cons op rest =>
    have ho := hin op (by rw [hi]; exact List.mem_cons_self)
    unfold State.SafeStep
    rw [step_event hs hi]
    cases op with
    | write | read | wait | expect => cases ho
    | reset => exact ⟨_, rfl⟩
    | engine => exact ⟨_, engineTurn_idle hb⟩

/-- A run that is over has not faulted and is not refused. -/
theorem step_over {s : State} (h : s.over) : s.SafeStep := by
  rcases h with h | ⟨e, h⟩
  · exact step_completed h
  · exact ⟨s, step_stopped h⟩

theorem Leads.cases_head {s u : State} (h : Leads s u) : u = s ∨ ∃ t, ¬ s.over ∧ step s = .next t ∧ Leads t u := by
  induction h with
  | refl => exact .inl rfl
  | tail _ ho hstep ih =>
    rcases ih with rfl | ⟨t, hs, ht, hl⟩
    · exact .inr ⟨_, ho, hstep, .refl⟩
    · exact .inr ⟨t, hs, ht, .tail hl ho hstep⟩

theorem Leads.head {s t u : State} (ho : ¬ s.over) (h : step s = .next t) (hl : Leads t u) : Leads s u := by
  induction hl with
  | refl => exact .tail .refl ho h
  | tail _ ho' hstep ih => exact .tail ih ho' hstep

/-- A run goes no further where it is over, where it faults and where it is refused. -/
theorem Leads.last {s t : State} (h : s.over ∨ ¬ s.SafeStep) (hl : Leads s t) : t = s := by
  rcases hl.cases_head with rfl | ⟨u, ho, hu, -⟩
  · rfl
  · rcases h with h | h
    · exact absurd h ho
    · exact absurd ⟨u, hu⟩ h

/-- A state leads to the states of one run only. -/
theorem Leads.linear {s t u : State} (ht : Leads s t) (hu : Leads s u) : Leads t u ∨ Leads u t := by
  induction ht with
  | refl => exact .inl hu
  | tail _ ho hstep ih =>
    rcases ih with ih | ih
    · rcases ih.cases_head with rfl | ⟨c, -, hc, hl⟩
      · exact .inr (.tail .refl ho hstep)
      · rw [hstep] at hc; cases hc; exact .inl hl
    · exact .inr (.tail ih ho hstep)

/-- A run has one last state. -/
theorem Leads.last_unique {s t u : State} (ht : Leads s t) (hu : Leads s u) (h : t.over ∨ ¬ t.SafeStep)
    (h' : u.over ∨ ¬ u.SafeStep) : t = u := by
  rcases ht.linear hu with hl | hl
  · exact (hl.last h).symm
  · exact hl.last h'

end Sys2Proof.Machine
end

