-- ==== Sys2Proof/Laws/Snapshot.lean ====
section
/-! SUPPORT. R14: what a command does depends on ARG, STATE, F and DMEM only. Two states that agree in them give the same
code, the same fault or the same results (`exec_agree`). -/

namespace Sys2Proof.Machine

/-- The operands of a command are the same in both states. -/
structure SameOperands (s t : State) : Prop where
  arg : t.arg = s.arg
  lanes : t.lanes = s.lanes
  f : t.f = s.f
  dmem : t.dmem = s.dmem

/-- The two outcomes are the same command outcome, each over its own state. -/
inductive Agree (s t : State) : Result → Result → Prop where
  | failed (c : ErrCode) : Agree s t (.next (failed s c)) (.next (failed t c))
  | fault : Agree s t (.fault .unwrittenInput) (.fault .unwrittenInput)
  | succeeded (n : Nat) (lanes : Lanes) (f : Vector FElem 16) (dmem : Mem) :
      Agree s t (.next (succeeded s n lanes f dmem)) (.next (succeeded t n lanes f dmem))

theorem SameOperands.argNat {s t : State} (h : SameOperands s t) (i : Fin 8) : t.argNat i = s.argNat i := by
  simp only [State.argNat, h.arg]

theorem SameOperands.fRead {s t : State} (h : SameOperands s t) (i : RegIdx) : t.fRead i = s.fRead i := by
  simp only [State.fRead, h.f]

theorem SameOperands.pRead {s t : State} (h : SameOperands s t) (i : RegIdx) : t.pRead i = s.pRead i := by
  simp only [State.pRead, h.fRead]

theorem SameOperands.arg64 {s t : State} (h : SameOperands s t) : t.arg64 = s.arg64 := by
  simp only [State.arg64, h.argNat]

theorem Agree.require {s t : State} {cond : Bool} {c : ErrCode} {k k' : Unit → Result}
    (h : Agree s t (k ()) (k' ())) : Agree s t (require cond c s k) (require cond c t k') := by
  cases cond
  · exact .failed c
  · exact h

theorem Agree.memRead {s t : State} (hm : t.dmem = s.dmem) {a n : Nat} {k k' : List Byte → Result}
    (h : ∀ x, Agree s t (k x) (k' x)) : Agree s t (memRead s a n k) (memRead t a n k') := by
  simp only [Sys2Proof.Machine.memRead, hm]
  cases Mem.bytes? s.dmem a n with
  | none => exact .fault
  | some x => exact h x

theorem Agree.requirePoint {s t : State} {r : Option Point} {k k' : Point → Result}
    (h : ∀ q, Agree s t (k q) (k' q)) : Agree s t (requirePoint r s k) (requirePoint r t k') := by
  cases r with
  | none => exact .failed .invalidPoint
  | some q => exact h q

theorem Agree.output {s t : State} (ho : SameOperands s t) (n o : Nat) (x : List Byte) :
    Agree s t (result n (memWrite o x s)) (result n (memWrite o x t)) := by
  have h : result n (memWrite o x t) = .next (Sys2Proof.Machine.succeeded t n s.lanes s.f (Mem.setBytes s.dmem o x)) := by
    rw [← ho.lanes, ← ho.f, ← ho.dmem]; rfl
  rw [h]
  exact .succeeded n s.lanes s.f _

theorem Agree.lanes {s t : State} (ho : SameOperands s t) (A : Lanes) :
    Agree s t (result 0 { s with lanes := A }) (result 0 { t with lanes := A }) := by
  have h : result 0 { t with lanes := A } = .next (Sys2Proof.Machine.succeeded t 0 A s.f s.dmem) := by
    rw [← ho.f, ← ho.dmem]; rfl
  rw [h]
  exact .succeeded 0 A s.f s.dmem

theorem Agree.fRegs {s t : State} (ho : SameOperands s t) (g : State → State)
    (hg : ∀ u, g u = { u with f := (g u).f }) (hf : (g t).f = (g s).f) :
    Agree s t (result 0 (g s)) (result 0 (g t)) := by
  have h : result 0 (g t) = .next (Sys2Proof.Machine.succeeded t 0 s.lanes (g s).f s.dmem) := by
    rw [hg t, hf, ← ho.lanes, ← ho.dmem]; rfl
  have h' : result 0 (g s) = .next (Sys2Proof.Machine.succeeded s 0 s.lanes (g s).f s.dmem) := by
    rw [hg s]; rfl
  rw [h, h']
  exact .succeeded 0 s.lanes (g s).f s.dmem

theorem Agree.oneShot1 {s t : State} (ho : SameOperands s t) (g : List Byte → Nat → List Byte) :
    Agree s t (oneShot1 g s) (oneShot1 g t) := by
  simp only [Sys2Proof.Machine.oneShot1, ho.argNat]
  exact .require (.require (.require (.require (.memRead ho.dmem fun x => .output ho _ _ _))))

theorem Agree.oneShot3 {s t : State} (ho : SameOperands s t)
    (g : List Byte → List Byte → List Byte → Nat → List Byte) : Agree s t (oneShot3 g s) (oneShot3 g t) := by
  simp only [Sys2Proof.Machine.oneShot3, ho.argNat]
  exact .require (.require (.require (.require (.require (.require (.memRead ho.dmem fun _ =>
    .memRead ho.dmem fun _ => .memRead ho.dmem fun _ => .output ho _ _ _))))))

theorem Agree.encodeInt {s t : State} (ho : SameOperands s t) (enc : Nat → List Byte) :
    Agree s t (encodeInt enc s) (encodeInt enc t) := by
  simp only [Sys2Proof.Machine.encodeInt, ho.argNat, ho.arg64]
  exact .require (.require (.output ho _ _ _))

theorem Agree.encodeRegion {s t : State} (ho : SameOperands s t) (m : Nat) (g : List Byte → List Byte) :
    Agree s t (encodeRegion m g s) (encodeRegion m g t) := by
  simp only [Sys2Proof.Machine.encodeRegion, ho.argNat]
  exact .require (.require (.require (.memRead ho.dmem fun _ => .output ho _ _ _)))

theorem Agree.point {s t : State} (ho : SameOperands s t) (k : RegIdx) (q : Point) :
    Agree s t (result 0 (s.pWrite k q)) (result 0 (t.pWrite k q)) :=
  .fRegs ho (fun u => u.pWrite k q) (fun u => State.pWrite_eq u k q) (by
    simp only [State.pWrite, State.fWrite, ho.f])

/-- R14: the same operands give the same outcome, whatever CMD, STATUS, RLEN and the host's side are. -/
theorem exec_agree {s t : State} (ho : SameOperands s t) (i : Instr) : Agree s t (exec i s) (exec i t) := by
  cases i with
  | keccakf => simp only [exec, execKeccakf, ho.lanes]; exact .lanes ho _
  | sinit => simp only [exec, execSinit]; exact .lanes ho _
  | absorb =>
    simp only [exec, execAbsorb, ho.argNat, ho.lanes]
    exact .require (.require (.memRead ho.dmem fun _ => .lanes ho _))
  | absorbf =>
    simp only [exec, execAbsorbf, ho.argNat, ho.lanes]
    exact .require (.memRead ho.dmem fun _ => .lanes ho _)
  | squeeze =>
    simp only [exec, execSqueeze, ho.argNat, ho.lanes]
    refine .require (.require ?_)
    have h : ∀ (n o : Nat) (x : List Byte) (A : Lanes),
        Agree s t (result n { memWrite o x s with lanes := A }) (result n { memWrite o x t with lanes := A }) := by
      intro n o x A
      have h : result n { memWrite o x t with lanes := A } =
          .next (succeeded t n A s.f (Mem.setBytes s.dmem o x)) := by rw [← ho.f, ← ho.dmem]; rfl
      rw [h]
      exact .succeeded n A s.f _
    exact h _ _ _ _
  | sponge => simp only [exec, execSponge]; exact .oneShot1 ho _
  | lenc => simp only [exec, execLenc]; exact .encodeInt ho _
  | renc => simp only [exec, execRenc]; exact .encodeInt ho _
  | encstr => simp only [exec, execEncstr, ho.argNat]; exact .encodeRegion ho _ _
  | bytepad =>
    simp only [exec, execBytepad, ho.argNat]
    exact .require (.encodeRegion ho _ _)
  | shake256 => simp only [exec, execShake256]; exact .oneShot1 ho _
  | cshake256 => simp only [exec, execCshake256]; exact .oneShot3 ho _
  | kmacxof256 => simp only [exec, execKmacxof256]; exact .oneShot3 ho _
  | fmul fd fa fb =>
    simp only [exec, execFmul, ho.fRead]
    refine .require (.require (.fRegs ho (fun u => u.fWrite fd _) (fun u => rfl) ?_))
    simp only [State.fWrite, ho.f]
  | padd pd pa pb =>
    simp only [exec, execPadd, ho.pRead]
    exact .require (.require (.require (.requirePoint fun _ => .point ho _ _)))
  | smul pd pa fs =>
    simp only [exec, execSmul, ho.pRead, ho.fRead]
    exact .require (.require (.require (.requirePoint fun _ => .point ho _ _)))
  | ldg pd =>
    simp only [exec, execLdg]
    exact .require (.point ho _ _)

/-- R14: the same word and operands give the same turn of the engine. -/
theorem runCommand_agree {s t : State} (ho : SameOperands s t) (hc : t.cmd = s.cmd) :
    Agree s t (runCommand s) (runCommand t) := by
  simp only [runCommand, hc]
  cases decode s.cmd with
  | error r => exact .failed .illegalCmd
  | ok i => exact exec_agree ho i

end Sys2Proof.Machine
end

