-- ==== Sys2Proof/Tests/Slice0.lean ====
section
/-! SUPPORT. The model's own tests. Expected values are the vectors of 95_test_vectors.md or the rules' own examples
(each test names its source). Then one witness for each statement with hypotheses: a concrete input that meets them. -/

namespace Sys2Proof.Tests
open Sys2Proof.Machine

-- one theorem at a time: a thread for each of them waiting on the kernel would need too much memory
set_option Elab.async false

/-! ## Small states -/

/-- After reset, with the ARG registers and some DMEM bytes set. -/
def withArgs (arg : Vector Word 8) (m : Mem) : State := { State.reset with arg := arg, dmem := m }

/-- After reset, with some F registers set. -/
def withF (l : List (RegIdx × Nat)) : State :=
  l.foldl (fun s p => s.fWrite p.1 (BitVec.ofNat 448 p.2)) State.reset

/-- After reset, idle, with delivered events. -/
def idleWith (ops : List HostOp) : State := { State.reset with host := { HostSide.start with inbox := ops } }

/-- The word w is in flight, with delivered events. -/
def busyWith (w : Word) (ops : List HostOp) : State := issue w (idleWith ops)

/-- The command ended in a next state with the property p. -/
def after (r : Result) (p : State → Bool) : Bool :=
  match r with
  | .next t => p t
  | _ => false

/-- The command ended with the error c and left STATE, F and DMEM as they were in s. -/
def failsWith (s : State) (c : ErrCode) (r : Result) : Bool :=
  after r fun t => t.status.err && t.status.ecode == c && t.lanes == s.lanes && t.f == s.f && t.dmem == s.dmem

/-! ## Well-formedness: each P field of 8 or more is refused (R105), and 7 is not -/

theorem smoke_padd_pd : Instr.wellFormed (.padd 8 0 0) = false := by decide
theorem smoke_padd_pa : Instr.wellFormed (.padd 0 8 0) = false := by decide
theorem smoke_padd_pb : Instr.wellFormed (.padd 0 0 8) = false := by decide
theorem smoke_smul_pd : Instr.wellFormed (.smul 8 0 0) = false := by decide
theorem smoke_smul_pa : Instr.wellFormed (.smul 0 8 0) = false := by decide
theorem smoke_ldg_pd : Instr.wellFormed (.ldg 8) = false := by decide
theorem smoke_largest : Instr.wellFormed (.smul 7 7 15) = true ∧ Instr.wellFormed (.fmul 15 15 15) = true := by decide

/-! ## Decoding: each row's word, written out from R104 and the bit patterns of R101 (and R114, V-ST2) -/

theorem decode_keccakf : decode 0b000000000000_0000_0000_0000_00010000 = .ok .keccakf := by decide
theorem decode_sinit : decode 0b000000000000_0000_0000_0000_00010001 = .ok .sinit := by decide
theorem decode_absorb : decode 0b000000000000_0000_0000_0000_00010010 = .ok .absorb := by decide
theorem decode_absorbf : decode 0b000000000000_0000_0000_0000_00010011 = .ok .absorbf := by decide
theorem decode_squeeze : decode 0b000000000000_0000_0000_0000_00010100 = .ok .squeeze := by decide
theorem decode_sponge : decode 0b000000000000_0000_0000_0000_00010101 = .ok .sponge := by decide
theorem decode_lenc : decode 0b000000000000_0000_0000_0000_00100000 = .ok .lenc := by decide
theorem decode_renc : decode 0b000000000000_0000_0000_0000_00100001 = .ok .renc := by decide
theorem decode_encstr : decode 0b000000000000_0000_0000_0000_00100010 = .ok .encstr := by decide
theorem decode_bytepad : decode 0b000000000000_0000_0000_0000_00100011 = .ok .bytepad := by decide
theorem decode_shake256 : decode 0b000000000000_0000_0000_0000_00110000 = .ok .shake256 := by decide
theorem decode_cshake256 : decode 0b000000000000_0000_0000_0000_00110001 = .ok .cshake256 := by decide
theorem decode_kmacxof256 : decode 0b000000000000_0000_0000_0000_00110010 = .ok .kmacxof256 := by decide
theorem decode_fmul : decode 0b000000000000_0010_0001_0011_01000000 = .ok (.fmul 3 1 2) := by decide
theorem decode_padd : decode 0b000000000000_0001_0000_0010_01000001 = .ok (.padd 2 0 1) := by decide
theorem decode_smul : decode 0b000000000000_0101_0000_0001_01000010 = .ok (.smul 1 0 5) := by decide
theorem decode_smul_largest : decode 0x000F7742 = .ok (.smul 7 7 15) := by decide
theorem decode_ldg : decode 0b000000000000_0000_0000_0111_01000011 = .ok (.ldg 7) := by decide

/-- V-ST2: the illegal words, by kind of defect. -/
theorem decode_illegal :
    decode 0x00000000 = .error .reservedOpcode ∧ decode 0x00000016 = .error .reservedOpcode ∧
    decode 0x00000044 = .error .reservedOpcode ∧ decode 0x00000110 = .error .badField ∧
    decode 0x00000841 = .error .badField ∧ decode 0x00080041 = .error .badField ∧
    decode 0x00100010 = .error .reservedBits ∧ decode 0x80000040 = .error .reservedBits ∧
    decode 0x00008042 = .error .badField ∧ decode 0x00000843 = .error .badField := by decide

/-- R110: more than 32 bits is no command. -/
theorem decodeTableWord_long : decodeTableWord 64 (2 ^ 32 + 0x10) = none ∧ decodeTableWord 32 0x10 = some .keccakf := by
  decide

/-! ## The functions -/

/-- V-K5. -/
theorem test_rotl64 : rotl64 0x0123456789ABCDEF 0 = 0x0123456789ABCDEF ∧
    rotl64 0x8000000000000001 1 = 3 ∧ rotl64 1 63 = 0x8000000000000000 ∧
    rotl64 0x0123456789ABCDEF 56 = 0xEF0123456789ABCD := by decide

/-- V-K2, after θ and ρπ and χ: the state S[0] = 1. -/
theorem test_theta_rhoPi_chi :
    (theta (zeroLanes.set 0 1))[24] = 2 ∧ (theta (zeroLanes.set 0 1))[21] = 1 ∧
    (rhoPi (theta (zeroLanes.set 0 1)))[15] = 0x10000000 ∧
    (chi (rhoPi (theta (zeroLanes.set 0 1))))[4] = 0x0000100000008000 ∧
    (chi (rhoPi (theta (zeroLanes.set 0 1))))[13] = 0x202 := by decide +kernel

/-- V-K2, after round 0, and R135: a round constant with its top bit set. -/
theorem test_round : (keccakRound (zeroLanes.set 0 1) 0)[0] = 0 ∧ (keccakRound (zeroLanes.set 0 1) 0)[22] = 0x10000000004 ∧
    (keccakRound zeroLanes 23)[0] = 0x8000000080008008 := by decide +kernel

/-- R135 and R133: entries of the tables at the ends of the columns. -/
theorem test_tables : roundConst 0 = 1 ∧ roundConst 7 = 0x8000000000008009 ∧ roundConst 8 = 0x8A ∧
    roundConst 15 = 0x8000000000008003 ∧ roundConst 16 = 0x8000000000008002 ∧ roundConst 23 = 0x8000000080008008 ∧
    piLane.length = 24 ∧ piLane[9]? = some 21 ∧ rhoRot[9]? = some 55 ∧ piLane[23]? = some 1 ∧ rhoRot[23]? = some 44 := by
  decide

/-- V-S1. -/
theorem test_blockLanes :
    (blockLanes ((List.range 136).map (BitVec.ofNat 8)))[0] = 0x0706050403020100 ∧
    (blockLanes ((List.range 136).map (BitVec.ofNat 8)))[16] = 0x8786858483828180 ∧
    (blockLanes ((List.range 136).map (BitVec.ofNat 8)))[17] = 0 := by decide +kernel

/-- V-S4. -/
theorem test_padTail : padTail 0 = [] ∧ padTail 134 = [0, 0x80] ∧ padTail 135 = [0x80] ∧ padTail 136 = [] ∧
    (padTail 137).length = 135 := by decide +kernel

/-- V-N1 and V-N2. -/
theorem test_encode : leftEncode 0 = [1, 0] ∧ leftEncode 136 = [1, 0x88] ∧ leftEncode 256 = [2, 1, 0] ∧
    leftEncode (2 ^ 32) = [5, 1, 0, 0, 0, 0] ∧ rightEncode 0 = [0, 1] ∧ rightEncode 256 = [1, 0, 2] ∧
    rightEncode (2 ^ 64 - 1) = [0xFF, 0xFF, 0xFF, 0xFF, 0xFF, 0xFF, 0xFF, 0xFF, 8] := by decide +kernel

/-- V-N3 and V-N4. -/
theorem test_strings : encodeString kmacName = [1, 0x20, 0x4B, 0x4D, 0x41, 0x43] ∧
    bytepad [0xAA] 4 = [1, 4, 0xAA, 0] ∧ bytepad [] 1 = [1, 1] ∧ (bytepad [] 136).length = 136 ∧
    bytepad kmacName 6 = [1, 6, 0x4B, 0x4D, 0x41, 0x43] := by decide +kernel

/-! ## The commands, at most two tests each -/

/-- V-K6: SINIT of S[3] = 0x1234. -/
theorem test_sinit : after (exec .sinit { State.reset with lanes := zeroLanes.set 3 0x1234 })
    (fun t => t.lanes == zeroLanes && t.status.word == 2) = true := by decide +kernel

/-- V-S7: an empty region is in bounds at any address; STATE is unchanged. -/
theorem test_absorb_empty : after (exec .absorb (withArgs #v[0xFFFFFFFF, 0, 0, 0, 0, 0, 0, 0] []))
    (fun t => t.lanes == zeroLanes && t.status.word == 2) = true := by decide +kernel

/-- V-S7: the length check comes before the bounds check. -/
theorem test_absorb_badBlocklen : failsWith State.reset .badBlocklen
    (exec .absorb (withArgs #v[0xFFFFFFFF, 135, 0, 0, 0, 0, 0, 0] [])) = true := by decide +kernel

/-- R147: the empty string is absorbed without a permutation. -/
theorem test_absorbf_empty : after (exec .absorbf State.reset) (fun t => t.lanes == zeroLanes) = true := by
  decide +kernel

/-- R76: no wrap at 2^32; out of bounds for every allowed size of DMEM. -/
theorem test_absorbf_noWrap : failsWith State.reset .outOfBounds
    (exec .absorbf (withArgs #v[0xFFFFFFFF, 1, 0, 0, 0, 0, 0, 0] [])) = true := by decide +kernel

/-- V-S6: L = 0 writes nothing and leaves STATE. -/
theorem test_squeeze_nothing : after (exec .squeeze State.reset)
    (fun t => t.dmem == [] && t.rlen == 0 && t.lanes == zeroLanes) = true := by decide +kernel

/-- V-S7: L = 12. -/
theorem test_squeeze_badBitlen : failsWith State.reset .badBitlen
    (exec .squeeze (withArgs #v[0, 0, 0, 0, 0, 0, 0, 12] [])) = true := by decide +kernel

/-- V-S3: the empty input gives the zero state's lanes. -/
theorem test_sponge_empty : after (exec .sponge (withArgs #v[0xFFFFFFFF, 0, 0, 0, 0, 0, 0x100, 256] []))
    (fun t => t.rlen == 32 && Mem.bytes? t.dmem 0x100 32 == some (zeroBytes 32) && t.dmem.length == 32) = true := by
  decide +kernel

/-- V-S7: the output overlaps the last input byte. -/
theorem test_sponge_overlap : failsWith State.reset .overlap
    (exec .sponge (withArgs #v[0, 16, 0, 0, 0, 0, 15, 256] [])) = true := by decide +kernel

/-- V-N5: n = 2^32, from ARG1. -/
theorem test_lenc : after (exec .lenc (withArgs #v[0, 1, 0, 0, 0, 0, 0x200, 0] []))
    (fun t => t.rlen == 6 && Mem.bytes? t.dmem 0x200 6 == some [5, 1, 0, 0, 0, 0]) = true := by decide +kernel

/-- V-N5. -/
theorem test_renc : after (exec .renc (withArgs #v[0, 0, 0, 0, 0, 0, 0x200, 0] []))
    (fun t => t.rlen == 2 && Mem.bytes? t.dmem 0x200 2 == some [0, 1]) = true := by decide +kernel

/-- "KMAC" at DMEM 0x300, as in V-N5. -/
def kmacAt300 : Mem := [(0x300, 0x4B), (0x301, 0x4D), (0x302, 0x41), (0x303, 0x43)]

/-- V-N5: the regions touch and do not overlap. -/
theorem test_encstr : after (exec .encstr (withArgs #v[0x300, 4, 0, 0, 0, 0, 0x2FA, 0] kmacAt300))
    (fun t => t.rlen == 6 && Mem.bytes? t.dmem 0x2FA 6 == some [1, 0x20, 0x4B, 0x4D, 0x41, 0x43]) = true := by
  decide +kernel

/-- V-N5: one address later they overlap, and nothing is written. -/
theorem test_encstr_overlap : failsWith (withArgs #v[0x300, 4, 0, 0, 0, 0, 0x2FB, 0] kmacAt300) .overlap
    (exec .encstr (withArgs #v[0x300, 4, 0, 0, 0, 0, 0x2FB, 0] kmacAt300)) = true := by decide +kernel

/-- V-N5. -/
theorem test_bytepad : after (exec .bytepad (withArgs #v[0x300, 4, 8, 0, 0, 0, 0x200, 0] kmacAt300))
    (fun t => t.rlen == 8 && Mem.bytes? t.dmem 0x200 8 == some [1, 8, 0x4B, 0x4D, 0x41, 0x43, 0, 0]) = true := by
  decide +kernel

/-- V-N5: BAD_WIDTH comes first. -/
theorem test_bytepad_badWidth : failsWith State.reset .badWidth
    (exec .bytepad (withArgs #v[0, 0, 0, 0, 0, 0, 0xFFFFFFFF, 0] [])) = true := by decide +kernel

/-- V-X4: L = 0 writes nothing. -/
theorem test_shake256_nothing : after (exec .shake256 State.reset)
    (fun t => t.dmem == [] && t.rlen == 0 && t.status.word == 2) = true := by decide +kernel

/-- R338: an input byte never written is a fault. -/
theorem test_shake256_unwritten :
    (match exec .shake256 (withArgs #v[0, 1, 0, 0, 0, 0, 0x100, 8] []) with
      | .fault .unwrittenInput => true
      | _ => false) = true := by decide +kernel

/-- R211: the bytes the cSHAKE body holds for in = ε, N = ε, S = "x": 0188 ‖ 0100 ‖ 010878 ‖ zeros ‖ 04. -/
theorem test_cshake_body : (cshakeBody [] [] [0x78]).take 8 = [1, 0x88, 1, 0, 1, 8, 0x78, 0] ∧
    (cshakeBody [] [] [0x78]).drop 136 = [4] := by decide +kernel

/-- V-C4: with ARG3 = ARG5 = 0 the addresses ARG2 and ARG4 may be anything. -/
theorem test_cshake256_anyAddress : after
    (exec .cshake256 (withArgs #v[0, 0, 0xFFFFFFFF, 0, 0xFFFFFFFF, 0, 0x100, 0] [])) (fun t => t.status.word == 2) = true := by
  decide +kernel

/-- R212: the payload ends in right_encode(0) = 00 01. -/
theorem test_kmac_payload : (kmacPayload [] [0xAB]).drop 134 = [0, 0, 0xAB, 0, 1] := by decide +kernel

/-- V-M9: BAD_BITLEN is checked before OUT_OF_BOUNDS, and 0xFFFFFFC1 + 64 does not wrap. -/
theorem test_kmacxof256_order :
    failsWith State.reset .badBitlen (exec .kmacxof256 (withArgs #v[0, 0, 0, 0, 0, 0, 0xFFFFFFC1, 511] [])) = true ∧
    failsWith State.reset .outOfBounds (exec .kmacxof256 (withArgs #v[0, 0, 0, 0, 0, 0, 0xFFFFFFC1, 512] [])) = true := by
  decide +kernel

/-- V-F3 and V-F8: reduction at the top bit, and all three fields equal. -/
theorem test_fmul : after (exec (.fmul 3 1 2) (withF [(1, 2 ^ 447), (2, 2)])) (fun t => t.fRead 3 == 2 ^ 224 + 1) = true ∧
    after (exec (.fmul 5 5 5) (withF [(5, 3)])) (fun t => t.fRead 5 == 9) = true := by decide +kernel

/-- V-F7: p is not canonical, p - 1 is. -/
theorem test_fmul_range : failsWith (withF [(1, fieldPrime)]) .operandRange (exec (.fmul 3 1 2) (withF [(1, fieldPrime)])) = true ∧
    after (exec (.fmul 3 1 1) (withF [(1, fieldPrime - 1)])) (fun t => t.fRead 3 == 1) = true := by decide +kernel

/-- V-Ed4: (1, 0) + (1, 0) = (0, p - 1), over the operand itself. -/
theorem test_padd : after (exec (.padd 1 1 1) (withF [(2, 1), (3, 0)]))
    (fun t => t.fRead 2 == 0 && (t.fRead 3).toNat == fieldPrime - 1) = true := by decide +kernel

/-- V-Ed13: both operands are checked, and every coordinate before any on-curve check. -/
theorem test_padd_errors :
    failsWith (withF [(0, 0), (1, 1), (2, 8), (3, 1)]) .invalidPoint
      (exec (.padd 2 0 1) (withF [(0, 0), (1, 1), (2, 8), (3, 1)])) = true ∧
    failsWith (withF [(0, fieldPrime), (1, 1)]) .operandRange
      (exec (.padd 2 0 1) (withF [(0, fieldPrime), (1, 1)])) = true := by decide +kernel

/-- V-Ed9: s = 0 gives O; and s = 2 doubles (V-Ed4, V-Ed5), with the scalar in a coordinate of the result. -/
theorem test_smul :
    after (exec (.smul 1 0 4) (withF [(0, 1), (1, 0)])) (fun t => t.fRead 2 == 0 && t.fRead 3 == 1) = true ∧
    after (exec (.smul 1 0 2) (withF [(0, 1), (1, 0), (2, 2)]))
      (fun t => t.fRead 2 == 0 && (t.fRead 3).toNat == fieldPrime - 1) = true := by decide +kernel

/-- V-Ed13: the base is checked even for s = 0. -/
theorem test_smul_invalid : failsWith State.reset .invalidPoint (exec (.smul 1 0 4) State.reset) = true := by
  decide +kernel

/-- V-Ed1: `LDG p7` writes F14 and F15. -/
theorem test_ldg : after (exec (.ldg 7) State.reset) (fun t => t.fRead 14 == 8 && t.fRead 15 ==
    0xC66F6F0565E6D0B5F2BB263CEBB9F8540EB046F40ED0FFF7F84D84653B428D989AABFF93B6BF700801228094E3DD0C2D1C600E3B0BCCFC32)
    = true := by decide +kernel

/-! ## The interface -/

/-- A placed word runs as the first command after reset, and an illegal one ends with ILLEGAL_CMD (STATUS 0x104). -/
theorem test_placed :
    after (step (State.reset.withFetchWord 32 0x43)) (fun t => t.fRead 0 == 8 && t.status.word == 2) = true ∧
    after (step (State.reset.withFetchWord 32 0x841)) (fun t => t.status.word == 0x104) = true := by decide +kernel

/-- V-ST3: reset before completion. -/
theorem test_reset_busy : after (step (busyWith 0x10 [.reset]))
    (fun t => t.status.word == 0 && t.cmd == 0 && t.lanes == zeroLanes) = true := by decide +kernel

/-- R75: a 4-byte write of 0x0403021F at 0; offset 0 holds 1F, offset 3 holds 04. -/
theorem test_dmem_bytes : after (step (idleWith [.write (.offset .dmem 0) 4 0x0403021F]))
    (fun t => t.dmem == [(0, 0x1F), (1, 0x02), (2, 0x03), (3, 0x04)]) = true := by decide +kernel

/-- R39: word 13 of F15 is its top word; word 14 is padding. -/
theorem test_f_words :
    after (step (idleWith [regStore (0x200 + 64 * 15 + 52) 0xC0000001])) (fun t => t.fRead 15 == 0xC0000001 <<< 416) = true ∧
    after (step (idleWith [regStore (0x200 + 64 * 15 + 56) 1])) (fun t => t.f == State.reset.f) = true := by decide +kernel

/-- R41: the two words of lane 24. -/
theorem test_lane_words :
    after (step (idleWith [regStore 0x1C4 0x80000000])) (fun t => t.lanes[24] == 0x8000000000000000) = true ∧
    after (step (idleWith [regStore 0x1C0 1])) (fun t => t.lanes[24] == 1) = true := by decide +kernel

/-- R334: an ARG write while busy is ignored and sets VIOL; a write of 1 to VIOL clears it, busy or not. -/
theorem test_viol : after (step (busyWith 0x10 [regStore 0x020 7])) (fun t => t.arg[0] == 0 && t.status.word == 9) = true ∧
    after (step { busyWith 0x10 [regStore 0x008 8] with status := ⟨true, false, false, true, .noError⟩ })
      (fun t => t.status.word == 1) = true := by decide +kernel

/-- R72: a misaligned 2-byte access, and a 2-byte register access, are refused. -/
theorem test_refused :
    (match step (idleWith [.read (.offset .dmem 1) 2]) with | .refused .misaligned => true | _ => false) = true ∧
    (match step (idleWith [.read (.offset .reg 0) 2]) with | .refused .accessWidth => true | _ => false) = true := by
  decide +kernel

/-- R341, ending 2: an EXPECT that fails while KECCAKF is in flight ends the run in the state at that statement: BUSY = 1. -/
theorem test_expect_stopped : State.Ends (busyWith 0x10 [.expect .done, .engine])
    (.expectStopped (busyWith 0x10 []).final .done) :=
  .expectStopped (t := checkExpect .done (busyWith 0x10 [.engine])) (.tail .refl (by
    rintro (⟨-, -, h⟩ | ⟨_, h⟩)
    · cases h
    · cases h) rfl) rfl

/-- R341, ending 1: a run ends when the host has executed its last statement and BUSY = 0; a reset after that is not of the
run, so the final state still has DONE = 1. -/
theorem test_completed_before_reset :
    State.Ends (complete 0 (idleWith [.expect .done, .reset])) (.completed (complete 0 State.reset).final) :=
  .completed (t := complete 0 (idleWith [.reset])) (.tail .refl (by
    rintro (⟨h, -, -⟩ | ⟨_, h⟩)
    · exact absurd (h (.expect .done) (by decide)) (by decide)
    · cases h) rfl) ⟨by decide, rfl, rfl⟩

/-- R339, R341: a run of `CMD <- 0x11`, `ARG0 <- 7` may be one in which the command completes before the ARG write. -/
theorem test_isRun : IsRun completions State.reset [.cmd 0x11, .setArg 0 7]
    (startFrom State.reset [regStore 0x00C 0x11, .engine, regStore 0x020 7]) :=
  ⟨rfl, _, .host _ (.other _ (by decide) (.host _ .nil)), rfl⟩

/-- R341: and the one `startRun` fixes is another. -/
theorem test_startRun (prog : List Stmt) : IsRun completions State.reset prog (startRun prog) :=
  ⟨rfl, _, interleaves_self _ _, rfl⟩

/-! ## Witnesses: concrete inputs that meet the hypotheses of each statement of Obligations.lean, clause by clause

A statement without hypotheses needs none; clauses over numbers are met at their boundary values. -/

theorem witness_DecodeOfEncode : Instr.wellFormed (.padd 7 7 7) = true ∧ Instr.wellFormed (.fmul 15 15 15) = true := by
  decide

theorem witness_LegalWordIsItsEncoding : decode 0x000F7742 = .ok (.smul 7 7 15) := by decide

theorem witness_MatchingRowIsTheCommand :
    (∃ r ∈ opcodeRows, (0x000F7742 : Word) &&& r.mask = r.pattern) ∧
    ∀ r ∈ opcodeRows, ¬ State.reset.cmd &&& r.mask = r.pattern := by decide

theorem witness_StepTakesOldestEvent :
    ((idleWith [.wait]).host.stopped = none ∧ (idleWith [.wait]).host.inbox = .wait :: []) ∧
    State.reset.status.busy = false ∧ State.reset.host.inbox = [] := by decide

theorem witness_StepRunsDecodedCommand :
    ((busyWith 0x43 [.engine]).status.busy = true ∧ decode (busyWith 0x43 [.engine]).cmd = .ok (.ldg 0) ∧
      (busyWith 0x43 [.engine]).host.stopped = none ∧ (busyWith 0x43 [.engine]).host.inbox = .engine :: []) ∧
    (busyWith 0x43 [.wait]).host.inbox = .wait :: [] ∧
    ((busyWith 0x43 []).host.stopped = none ∧ (busyWith 0x43 []).host.inbox = []) := by decide

theorem witness_PlacedWordRunsNext : decode 0x43 = .ok (.ldg 0) := by decide

theorem witness_IllegalWordCompletes : State.reset.status.busy = false ∧ decode 0x841 = .error .badField := by decide

theorem witness_CmdWriteIssues : State.reset.status.busy = false ∧
    ∀ i, decode 0x11 = .ok i → exec i (issue 0x11 State.reset) ≠ .fault .unwrittenInput := by
  refine ⟨rfl, fun i h hf => ?_⟩
  rw [decode_sinit] at h
  cases h
  simp only [exec, execSinit, result] at hf
  cases hf

/-- A command that would read the byte at 0, never written. -/
theorem witness_FaultsExactlyOnUnwrittenInput :
    (withArgs #v[0, 1, 0, 0, 0, 0, 0x100, 8] []).status.busy = false ∧ decode 0x30 = .ok .shake256 ∧
    (match exec .shake256 (issue 0x30 (withArgs #v[0, 1, 0, 0, 0, 0, 0x100, 8] [])) with
      | .fault .unwrittenInput => true
      | _ => false) = true := by decide +kernel

theorem witness_WaitsAndRunsEnd : (busyWith 0x11 [.wait]).host.stopped = none ∧
    (busyWith 0x11 [.wait]).host.inbox = .wait :: [] ∧ (busyWith 0x11 [.wait]).status.busy = true ∧
    runCommand (busyWith 0x11 [.wait]) = .next (complete 0 { busyWith 0x11 [.wait] with lanes := zeroLanes }) :=
  ⟨rfl, rfl, rfl, rfl⟩

theorem witness_ExpectStopsOnMismatch :
    (complete 0 State.reset).status.done = true ∧
    ((errorComplete .overlap State.reset).status.err = true ∧ (errorComplete .overlap State.reset).status.ecode = .overlap) ∧
    State.reset.status.done = false ∧ State.reset.status.err = false ∧
    (checkExpect .done (busyWith 0x10 [.engine])).host.stopped ≠ none ∧
    (checkExpect .done (busyWith 0x10 [.engine])).status.busy = true := by
  decide

/-- The first and the last offset of each range a clause of the host-access statements names; the ranges of clauses
with different outcomes do not meet, since an offset has one register (`regAt`). -/
theorem witness_offsets :
    regAt 0x020 = .arg 0 ∧ regAt 0x03C = .arg 7 ∧ regAt 0x100 = .lane 0 0 ∧ regAt 0x1C4 = .lane 24 1 ∧
    regAt 0x200 = .fword 0 0 ∧ regAt 0x234 = .fword 0 13 ∧ regAt 0x238 = .reserved ∧ regAt 0x23C = .reserved ∧
    regAt 0x240 = .fword 1 0 ∧ regAt 0x5F4 = .fword 15 13 ∧ regAt 0x5FC = .reserved ∧ regAt 0x014 = .reserved ∧
    regAt 0x01C = .reserved ∧ regAt 0x040 = .reserved ∧ regAt 0x0FC = .reserved ∧ regAt 0x1C8 = .reserved ∧
    regAt 0x1FC = .reserved ∧ regAt 0x600 = .reserved ∧ regAt 0xFFC = .reserved := by decide

/-- Every size of DMEM has the bytes 0 to 1023. -/
theorem dmem_has_1023 : 1023 < Config.dmemBytes := Nat.lt_of_lt_of_le (by decide) dmemBytes_ge

theorem witness_BusyWritesIgnored : (busyWith 0x10 []).status.busy = true ∧
    (0x03C % 4 = 0 ∧ 0x020 ≤ 0x03C ∧ 0x03C < 0x040) ∧ (0x1C4 % 4 = 0 ∧ 0x100 ≤ 0x1C4 ∧ 0x1C4 < 0x1C8) ∧
    (0x5F4 % 4 = 0 ∧ 0x200 ≤ 0x5F4 ∧ 0x5F4 < 0x600 ∧ 0x5F4 % 64 < 56) ∧ (1020 % 4 = 0 ∧ 1020 < Config.dmemBytes) ∧
    (0x01C % 4 = 0 ∧ 0x010 ≤ 0x01C ∧ 0x01C < 0x020) ∧ (0x5FC % 4 = 0 ∧ 0x5FC < 0x600 ∧ 56 ≤ 0x5FC % 64) ∧
    (0xFFC % 4 = 0 ∧ 0x600 ≤ 0xFFC ∧ 0xFFC < 0x1000) := by
  have := dmem_has_1023
  exact ⟨rfl, by decide, by decide, by decide, ⟨by decide, by omega⟩, by decide, by decide, by decide⟩

theorem witness_ConstantAndReservedRegisters : 0x014 % 4 = 0 ∧ 0x014 ≤ 0x014 ∧ 0x014 < 0x020 := by decide

theorem witness_IdleRegisterStores : State.reset.status.busy = false ∧ 0x5F4 % 4 = 0 ∧ 0x200 ≤ 0x5F4 ∧ 0x5F4 < 0x600 ∧
    0x5F4 % 64 < 56 := by decide

theorem witness_IdleRegisterReads : State.reset.status.busy = false := by decide

theorem witness_BusyReads : (busyWith 0x10 []).status.busy = true ∧ (busyWith 0x10 []).StatusInv :=
  ⟨rfl, ⟨fun _ => ⟨rfl, rfl, rfl, rfl⟩, fun h => (by cases h), fun h => (by cases h), fun h => absurd rfl h⟩⟩

/-- Bytes written, for the last word every size of DMEM has. -/
theorem witness_DmemAccess : (withArgs State.reset.arg [(1020, 0x1F), (1021, 2), (1022, 3), (1023, 4)]).status.busy = false ∧
    1020 % 4 = 0 ∧ 1020 < Config.dmemBytes ∧ (0x0403021F : Word).toNat < 2 ^ (8 * 4) ∧
    ∀ i < 4, Mem.byte? [(1020, 0x1F), (1021, 2), (1022, 3), (1023, 4)] (1020 + i) =
      some ((0x0403021F : Word).extractLsb' (8 * i) 8) := by
  have := dmem_has_1023
  exact ⟨rfl, by decide, by omega, by decide, by decide⟩

theorem witness_MeaninglessAccessRefused : ((2 : Nat) ≠ 4) ∧ ((3 : Nat) ≠ 1 ∧ (3 : Nat) ≠ 2 ∧ (3 : Nat) ≠ 4) ∧
    1 % 2 ≠ 0 ∧ 0x1000 ≤ 0x1000 ∧ Config.dmemBytes ≤ Config.dmemBytes := by
  exact ⟨by decide, by decide, by decide, by decide, Nat.le_refl _⟩

/-- Wherever the platform maps the windows, one of them has an offset the other does not cover: both clauses cannot be
empty together. If DMEM covers all of the register window, it is larger and has a byte outside it. -/
theorem witness_BusAddressesReachWindows :
    (∃ off, off < 4096 ∧ ¬ (Config.dmemBase ≤ Config.regBase + off ∧
      Config.regBase + off < Config.dmemBase + Config.dmemBytes)) ∨
    (∃ off, off < Config.dmemBytes ∧ ¬ (Config.regBase ≤ Config.dmemBase + off ∧
      Config.dmemBase + off < Config.regBase + 4096)) ∨
    (Config.dmemBase = Config.regBase ∧ Config.dmemBytes = 4096) := by
  have hd := dmemBytes_ge
  by_cases h1 : Config.dmemBase ≤ Config.regBase
  · by_cases h2 : Config.regBase + 4096 ≤ Config.dmemBase + Config.dmemBytes
    · by_cases h3 : Config.dmemBase = Config.regBase
      · by_cases h4 : Config.dmemBytes = 4096
        · exact .inr (.inr ⟨h3, h4⟩)
        · exact .inr (.inl ⟨4096, by omega, by omega⟩)
      · exact .inr (.inl ⟨0, by omega, by omega⟩)
    · exact .inl ⟨4095, by omega, by omega⟩
  · exact .inl ⟨0, by omega, by omega⟩

/-- The bytes `takeEvent (.read pl n)` of STATUS at reset answers with a next state. -/
theorem witness_ReadsHaveNoSideEffect : takeEvent (regLoad 0x008) State.reset = .next (reply 0 State.reset) := by
  rw [takeEvent_regLoad (by decide) (by decide)]; rfl

theorem witness_StoredFRegister : (idleWith ((Stmt.setF 15 1).ops ++ [])).status.busy = false ∧
    (idleWith ((Stmt.setF 15 1).ops ++ [])).host.stopped = none ∧
    (idleWith ((Stmt.setF 15 1).ops ++ [])).host.inbox = (Stmt.setF 15 1).ops ++ [] := ⟨rfl, rfl, rfl⟩

theorem reset_inv : State.reset.Inv :=
  ⟨Mem.wf_nil, fun _ h => (by cases h),
    ⟨fun h => (by cases h), fun h => (by cases h), fun h => (by cases h), fun h => absurd rfl h⟩, rfl⟩

theorem witness_StepKeepsInv : State.reset.Inv ∧ step State.reset = .next State.reset := ⟨reset_inv, rfl⟩

/-- A write of ARG0 while KECCAKF is in flight. -/
theorem witness_OperandsFrozenWhileBusy : (busyWith 0x10 []).status.busy = true ∧
    takeEvent (regStore 0x020 7) (busyWith 0x10 []) =
      .next { busyWith 0x10 [] with status := (busyWith 0x10 []).status.violate } := by
  refine ⟨rfl, ?_⟩
  rw [takeEvent_regStore (by decide) (by decide)]; rfl

theorem witness_ResultIndependentOfHostWindow :
    (busyWith 0x11 [regStore 0x020 7]).status.busy = true ∧ (busyWith 0x11 [regStore 0x020 7]).status.done = false ∧
    (busyWith 0x11 [regStore 0x020 7]).status.err = false ∧ (busyWith 0x11 [regStore 0x020 7]).host.stopped = none ∧
    Host.Core.run core 1 (busyWith 0x11 [regStore 0x020 7]) =
      .next { busyWith 0x11 [] with status := (busyWith 0x11 []).status.violate } ∧
    runCommand (busyWith 0x11 [regStore 0x020 7]) =
      .next (complete 0 { busyWith 0x11 [regStore 0x020 7] with lanes := zeroLanes }) := by
  refine ⟨rfl, rfl, rfl, rfl, ?_, rfl⟩
  have h : step (busyWith 0x11 [regStore 0x020 7]) =
      .next { busyWith 0x11 [] with status := (busyWith 0x11 []).status.violate } := by
    rw [step_event (op := regStore 0x020 7) (rest := []) rfl rfl, takeEvent_regStore (by decide) (by decide)]; rfl
  simp only [Host.Core.run, core, h]

/-- VIOL set by an ignored write, and cleared by a STATUS write. -/
theorem witness_ViolLatch :
    after (step (busyWith 0x10 [regStore 0x020 7])) (fun t => t.status.viol) = true ∧
    after (step { busyWith 0x10 [regStore 0x008 8] with status := ⟨true, false, false, true, .noError⟩ })
      (fun t => !t.status.viol) = true := by decide +kernel

/-- SINIT in flight completes and sets DONE; an illegal word sets ERR and ECODE. -/
theorem witness_OnlyCompletionSetsFlags :
    after (step (busyWith 0x11 [.engine])) (fun t => t.status.done) = true ∧
    after (step (busyWith 0x841 [.engine])) (fun t => t.status.err && t.status.ecode == .illegalCmd) = true := by
  decide +kernel

theorem witness_ErrorsArePrecise : State.reset.status.err = false ∧
    exec .squeeze (withArgs #v[0, 0, 0, 0, 0, 0, 0, 12] []) =
      .next (failed (withArgs #v[0, 0, 0, 0, 0, 0, 0, 12] []) .badBitlen) := ⟨rfl, rfl⟩

theorem witness_CodesOfEachCommand : Instr.wellFormed (.ldg 8) = false ∧ Instr.wellFormed .squeeze = true ∧
    exec .squeeze (withArgs #v[0, 0, 0, 0, 0, 0, 0, 12] []) =
      .next (failed (withArgs #v[0, 0, 0, 0, 0, 0, 0, 12] []) .badBitlen) := ⟨rfl, rfl, rfl⟩

/-- A command that completes, for the frame statements. -/
theorem witness_CommandsLeaveOperands : exec .sinit State.reset = .next (succeeded State.reset 0 zeroLanes
    State.reset.f State.reset.dmem) := rfl

/-- KECCAKF writes no DMEM, LENC no STATE and no F: each clause has a command. -/
theorem witness_CommandFrames :
    Instr.lenc ∉ [Instr.keccakf, .sinit, .absorb, .absorbf, .squeeze] ∧
    Instr.sinit ∉ [Instr.squeeze, .sponge, .lenc, .renc, .encstr, .bytepad, .shake256, .cshake256, .kmacxof256] ∧
    after (exec .lenc State.reset) (fun _ => true) = true ∧ after (exec .sinit State.reset) (fun _ => true) = true := by
  decide +kernel

theorem witness_OutputRegionOnly :
    Instr.lenc ∈ [Instr.squeeze, .sponge, .lenc, .renc, .encstr, .bytepad, .shake256, .cshake256, .kmacxof256] ∧
    after (exec .lenc State.reset) (fun t => t.rlen == 2) = true ∧ ¬ (0 ≤ 2 ∧ 2 < 0 + 2) := by decide +kernel

theorem witness_DestinationRegistersOnly :
    after (exec (.fmul 15 1 2) State.reset) (fun t => t.fRead 14 == 0) = true ∧
    after (exec (.ldg 7) State.reset) (fun t => t.fRead 13 == 0) = true ∧
    after (exec (.padd 7 0 0) (withF [(1, 1)])) (fun t => t.fRead 13 == 0) = true ∧
    after (exec (.smul 7 0 4) (withF [(1, 1)])) (fun t => t.fRead 13 == 0) = true := by decide +kernel

/-- The region tests of the rules at their edges: an empty region is in bounds anywhere; the last bytes that every
size of DMEM has are in bounds; a region past 2^31 is in none. -/
theorem witness_regions : InDmem 0xFFFFFFFF 0 ∧ InDmem 1022 2 ∧ ¬ InDmem 0xFFFFFFFF 1 ∧
    Overlap 15 32 0 16 ∧ ¬ Overlap 16 1 0 16 ∧ ¬ Overlap 5 2 6 0 := by
  have h1 := dmem_has_1023
  have h2 := dmemBytes_le
  refine ⟨.inl rfl, .inr (by omega), ?_, ?_, ?_, ?_⟩ <;> simp only [InDmem, Overlap] <;> omega

/-- One written block, for ABSORB. -/
def block : Mem := (List.range 136).map fun a => (a, 0)

theorem holds_block : HoldsBytes block 0 (zeroBytes 136) :=
  ((Mem.bytes?_eq_some_iff block 0 136 (zeroBytes 136)).1 (by decide +kernel)).2

/-- Each clause of ABSORB, and the completion clauses of ABSORBF, with a block of 136 bytes. -/
theorem witness_AbsorbMeaning : (135 % 136 ≠ 0) ∧ ¬ InDmem 0xFFFFFFFF 136 ∧
    (withArgs #v[0, 136, 0, 0, 0, 0, 0, 0] block).argNat 1 % 136 = 0 ∧
    InDmem ((withArgs #v[0, 136, 0, 0, 0, 0, 0, 0] block).argNat 0) ((withArgs #v[0, 136, 0, 0, 0, 0, 0, 0] block).argNat 1) ∧
    (zeroBytes 136).length = (withArgs #v[0, 136, 0, 0, 0, 0, 0, 0] block).argNat 1 ∧
    HoldsBytes (withArgs #v[0, 136, 0, 0, 0, 0, 0, 0] block).dmem ((withArgs #v[0, 136, 0, 0, 0, 0, 0, 0] block).argNat 0)
      (zeroBytes 136) := by
  have h1 := dmem_has_1023
  have h2 := dmemBytes_le
  refine ⟨by decide, ?_, rfl, .inr ?_, length_zeroBytes 136, holds_block⟩
  · simp only [InDmem]; omega
  · show 0 + 136 ≤ Config.dmemBytes
    omega

theorem holds_kmac : HoldsBytes kmacAt300 0x300 kmacName :=
  ((Mem.bytes?_eq_some_iff kmacAt300 0x300 4 kmacName).1 (by decide +kernel)).2

/-- "KMAC" at 0x300 as every input, output at 0x200, w = 4 for BYTEPAD, L = 32. -/
def kmacState : State := withArgs #v[0x300, 4, 0x300, 4, 0x300, 4, 0x200, 32] kmacAt300

/-- Every region out of bounds, with L = 8 and w = 1. -/
def outState : State := withArgs #v[0xFFFFFFFF, 1, 0xFFFFFFFF, 1, 0xFFFFFFFF, 1, 0xFFFFFFFF, 8] []

/-- "KMAC" at 0x300 as every input, with the output on its last byte. -/
def lapState : State := withArgs #v[0x300, 4, 0x300, 4, 0x300, 4, 0x303, 8] kmacAt300

theorem kmacState_regions : InDmem (kmacState.argNat 0) (kmacState.argNat 1) ∧
    InDmem (kmacState.argNat 2) (kmacState.argNat 3) ∧ InDmem (kmacState.argNat 4) (kmacState.argNat 5) := by
  have h := dmem_has_1023
  exact ⟨.inr (show 0x300 + 4 ≤ _ by omega), .inr (show 0x300 + 4 ≤ _ by omega), .inr (show 0x300 + 4 ≤ _ by omega)⟩

theorem kmacState_output (n : Nat) (hn : n ≤ 64) : InDmem (kmacState.argNat 6) n ∧
    ¬ Overlap (kmacState.argNat 6) n (kmacState.argNat 0) (kmacState.argNat 1) ∧
    ¬ Overlap (kmacState.argNat 6) n (kmacState.argNat 2) (kmacState.argNat 3) ∧
    ¬ Overlap (kmacState.argNat 6) n (kmacState.argNat 4) (kmacState.argNat 5) := by
  have h := dmem_has_1023
  have hno : ¬ Overlap 0x200 n 0x300 4 := by simp only [Overlap]; omega
  exact ⟨.inr (show 0x200 + n ≤ _ by omega), hno, hno, hno⟩

theorem outState_regions (n : Nat) (hn : 0 < n) : ¬ InDmem (outState.argNat 0) (outState.argNat 1) ∧
    ¬ InDmem (outState.argNat 6) n := by
  have h := dmemBytes_le
  refine ⟨?_, ?_⟩
  · show ¬ InDmem 0xFFFFFFFF 1
    simp only [InDmem]; omega
  · show ¬ InDmem 0xFFFFFFFF n
    simp only [InDmem]; omega

theorem lapState_regions (n : Nat) (hn : 0 < n) (hn' : n ≤ 64) : InDmem (lapState.argNat 0) (lapState.argNat 1) ∧
    InDmem (lapState.argNat 6) n ∧ Overlap (lapState.argNat 6) n (lapState.argNat 0) (lapState.argNat 1) := by
  have h := dmem_has_1023
  refine ⟨.inr (show 0x300 + 4 ≤ _ by omega), .inr (show 0x303 + n ≤ _ by omega), ?_⟩
  show Overlap 0x303 n 0x300 4
  simp only [Overlap]; omega

/-- Input out of bounds; and "KMAC" read at 0x300. -/
theorem witness_AbsorbfMeaning : ¬ InDmem (outState.argNat 0) (outState.argNat 1) ∧
    InDmem (kmacState.argNat 0) (kmacState.argNat 1) ∧ kmacName.length = kmacState.argNat 1 ∧
    HoldsBytes kmacState.dmem (kmacState.argNat 0) kmacName :=
  ⟨(outState_regions 1 (by decide)).1, kmacState_regions.1, rfl, holds_kmac⟩

/-- The three clauses: a bad bit length, an output out of bounds, an output in bounds. -/
theorem witness_SqueezeMeaning : (withArgs #v[0, 0, 0, 0, 0, 0, 0, 12] []).argNat 7 % 8 ≠ 0 ∧
    (outState.argNat 7 % 8 = 0 ∧ ¬ InDmem (outState.argNat 6) (outState.argNat 7 / 8)) ∧
    kmacState.argNat 7 % 8 = 0 ∧ InDmem (kmacState.argNat 6) (kmacState.argNat 7 / 8) :=
  ⟨by decide, ⟨by decide, (outState_regions _ (by decide)).2⟩, by decide, (kmacState_output _ (by decide)).1⟩

/-- The four clauses of SPONGE and SHAKE256. -/
theorem witness_SpongeAndShakeMeaning : (withArgs #v[0, 0, 0, 0, 0, 0, 0, 12] []).argNat 7 % 8 ≠ 0 ∧
    (outState.argNat 7 % 8 = 0 ∧ ¬ InDmem (outState.argNat 0) (outState.argNat 1)) ∧
    (lapState.argNat 7 % 8 = 0 ∧ InDmem (lapState.argNat 0) (lapState.argNat 1) ∧
      InDmem (lapState.argNat 6) (lapState.argNat 7 / 8) ∧
      Overlap (lapState.argNat 6) (lapState.argNat 7 / 8) (lapState.argNat 0) (lapState.argNat 1)) ∧
    kmacState.argNat 7 % 8 = 0 ∧ InDmem (kmacState.argNat 0) (kmacState.argNat 1) ∧
      InDmem (kmacState.argNat 6) (kmacState.argNat 7 / 8) ∧
      ¬ Overlap (kmacState.argNat 6) (kmacState.argNat 7 / 8) (kmacState.argNat 0) (kmacState.argNat 1) ∧
      kmacName.length = kmacState.argNat 1 ∧ HoldsBytes kmacState.dmem (kmacState.argNat 0) kmacName :=
  ⟨by decide, ⟨by decide, (outState_regions 1 (by decide)).1⟩, ⟨by decide, lapState_regions _ (by decide) (by decide)⟩,
    by decide, kmacState_regions.1, (kmacState_output _ (by decide)).1, (kmacState_output _ (by decide)).2.1, rfl, holds_kmac⟩

/-- The completion clause of CSHAKE256 and KMACXOF256, whose three inputs may be the same bytes (R77); the clauses with
an error are met by the states of `witness_SpongeAndShakeMeaning`, whose three input regions are equal. -/
theorem witness_CshakeAndKmacMeaning : kmacState.argNat 7 % 8 = 0 ∧ InDmem (kmacState.argNat 0) (kmacState.argNat 1) ∧
    InDmem (kmacState.argNat 2) (kmacState.argNat 3) ∧ InDmem (kmacState.argNat 4) (kmacState.argNat 5) ∧
    InDmem (kmacState.argNat 6) (kmacState.argNat 7 / 8) ∧
    ¬ Overlap (kmacState.argNat 6) (kmacState.argNat 7 / 8) (kmacState.argNat 0) (kmacState.argNat 1) ∧
    ¬ Overlap (kmacState.argNat 6) (kmacState.argNat 7 / 8) (kmacState.argNat 2) (kmacState.argNat 3) ∧
    ¬ Overlap (kmacState.argNat 6) (kmacState.argNat 7 / 8) (kmacState.argNat 4) (kmacState.argNat 5) ∧
    kmacName.length = kmacState.argNat 1 ∧ HoldsBytes kmacState.dmem (kmacState.argNat 0) kmacName ∧
    kmacName.length = kmacState.argNat 3 ∧ HoldsBytes kmacState.dmem (kmacState.argNat 2) kmacName ∧
    kmacName.length = kmacState.argNat 5 ∧ HoldsBytes kmacState.dmem (kmacState.argNat 4) kmacName :=
  ⟨by decide, kmacState_regions.1, kmacState_regions.2.1, kmacState_regions.2.2, kmacState_output _ (by decide) |>.1,
    (kmacState_output _ (by decide)).2.1, (kmacState_output _ (by decide)).2.2.1, (kmacState_output _ (by decide)).2.2.2,
    rfl, holds_kmac, rfl, holds_kmac, rfl, holds_kmac⟩

/-- The ends of the range of n, and both clauses. -/
theorem witness_LencAndRencMeaning : (leftEncode 0).length = 2 ∧ (rightEncode (2 ^ 64 - 1)).length = 9 ∧
    ¬ InDmem (outState.argNat 6) (leftEncode (outState.argNat 1 * 2 ^ 32 + outState.argNat 0)).length ∧
    InDmem (kmacState.argNat 6) (leftEncode (kmacState.argNat 1 * 2 ^ 32 + kmacState.argNat 0)).length :=
  ⟨by decide +kernel, by decide +kernel, (outState_regions _ (by decide +kernel)).2,
    (kmacState_output _ (by decide +kernel)).1⟩

/-- The three clauses of ENCSTR. -/
theorem witness_EncstrMeaning : (leftEncode (8 * kmacState.argNat 1)).length + kmacState.argNat 1 = 6 ∧
    ¬ InDmem (outState.argNat 0) (outState.argNat 1) ∧
    (InDmem (lapState.argNat 0) (lapState.argNat 1) ∧ InDmem (lapState.argNat 6) 6 ∧
      Overlap (lapState.argNat 6) 6 (lapState.argNat 0) (lapState.argNat 1)) ∧
    InDmem (kmacState.argNat 0) (kmacState.argNat 1) ∧ InDmem (kmacState.argNat 6) 6 ∧
    ¬ Overlap (kmacState.argNat 6) 6 (kmacState.argNat 0) (kmacState.argNat 1) ∧
    kmacName.length = kmacState.argNat 1 ∧ HoldsBytes kmacState.dmem (kmacState.argNat 0) kmacName :=
  ⟨by decide +kernel, (outState_regions 1 (by decide)).1, lapState_regions 6 (by decide) (by decide), kmacState_regions.1,
    (kmacState_output 6 (by decide)).1, (kmacState_output 6 (by decide)).2.1, rfl, holds_kmac⟩

/-- The clauses of BYTEPAD, with w = 8 at 0x300 (V-N5). -/
theorem witness_BytepadMeaning :
    State.reset.argNat 2 = 0 ∧ (0 < outState.argNat 2 ∧ ¬ InDmem (outState.argNat 0) (outState.argNat 1)) ∧
    8 * (((leftEncode 8).length + 4 + (8 - 1)) / 8) = 8 ∧
    (withArgs #v[0x300, 4, 8, 0, 0, 0, 0x200, 0] kmacAt300).argNat 2 = 8 ∧ InDmem 0x300 4 ∧ InDmem 0x200 8 ∧
    InDmem 0x303 8 ∧ Overlap 0x303 8 0x300 4 ∧ ¬ Overlap 0x200 8 0x300 4 ∧ kmacName.length = 4 ∧
    HoldsBytes kmacAt300 0x300 kmacName := by
  have h := dmem_has_1023
  refine ⟨rfl, ⟨by decide, (outState_regions 1 (by decide)).1⟩, by decide +kernel, rfl, .inr (by omega), .inr (by omega),
    .inr (by omega), ?_, ?_, rfl, holds_kmac⟩ <;> simp only [Overlap] <;> omega

theorem witness_FmulMeaning :
    (fieldPrime ≤ ((withF [(1, fieldPrime)]).fRead 1).toNat) ∧ ((withF [(1, fieldPrime - 1)]).fRead 1).toNat < fieldPrime ∧
    ((withF [(1, fieldPrime - 1)]).fRead 2).toNat < fieldPrime := by decide +kernel

/-- Each clause of PADD: a coordinate out of range, a point off the curve, and two points with a sum; the P registers
at the edges 0 and 7. No on-curve operands meet the clause of the denominator guard (R247). -/
theorem witness_PaddMeaning : ((7 : RegIdx) < 8 ∧ (0 : RegIdx) < 8) ∧
    fieldPrime ≤ ((withF [(0, fieldPrime), (1, 1)]).pRead 0).x ∧
    (((withF [(0, 8), (1, 1)]).pRead 0).inRange = true ∧ onCurve ((withF [(0, 8), (1, 1)]).pRead 0) = false) ∧
    onCurve ((withF [(14, 1), (15, 0)]).pRead 7) = true ∧
    addPoints ((withF [(14, 1), (15, 0)]).pRead 7) ((withF [(14, 1), (15, 0)]).pRead 7) = some ⟨0, fieldPrime - 1⟩ := by
  decide +kernel

/-- Each clause of SMUL, with s = 0 and s = 1. -/
theorem witness_SmulMeaning : fieldPrime ≤ ((withF [(0, fieldPrime), (1, 1)]).pRead 0).x ∧
    (((withF [(0, 8), (1, 1)]).pRead 0).inRange = true ∧ onCurve ((withF [(0, 8), (1, 1)]).pRead 0) = false) ∧
    onCurve ((withF [(0, 1), (1, 0), (4, 1)]).pRead 0) = true ∧
    scalarMul ((withF [(0, 1), (1, 0), (4, 1)]).fRead 4).toNat ((withF [(0, 1), (1, 0), (4, 1)]).pRead 0) = some ⟨1, 0⟩ ∧
    scalarMul 0 generator = some identity := by decide +kernel

theorem witness_LdgMeaning : (0 : RegIdx) < 8 ∧ (7 : RegIdx) < 8 := by decide

theorem witness_RhoPiIsTheTable : 0 < 64 ∧ 63 < 64 := by decide

theorem witness_BytepadIsShortest : 0 < 1 ∧ 0 < 136 := by decide

theorem witness_LadderByBits : 0 < 1 := by decide

theorem witness_StreamingAbsorb : ([] : List Byte).length % 136 = 0 ∧ (zeroBytes 272).length % 136 = 0 := by
  decide +kernel

theorem witness_SqueezeContinues : 1088 % 8 = 0 ∧ 64 ≤ 1088 ∧ 64 % 8 = 0 := by decide

theorem witness_CapacityNeverTouched : 17 ≤ (17 : Fin 25).val ∧ 0 < (zeroBytes 136).length ∧
    (zeroBytes 136).length = 136 := by decide +kernel

/-- The largest integer with an encoding. -/
theorem witness_IntegerEncoders : 256 ^ 255 - 1 < 2 ^ (8 * 255) := by decide +kernel

theorem witness_PaddingCases : (zeroBytes 135).length % 136 = 135 ∧ (zeroBytes 134).length % 136 = 134 ∧
    (zeroBytes 133).length % 136 < 134 := by decide +kernel

theorem witness_FieldAndAdditionLaws : (fieldPrime - 1 < fieldPrime) ∧ generator.x < fieldPrime ∧
    generator.y < fieldPrime ∧ addPoints generator identity = some generator := by decide +kernel

/-- V-E1: the known answer (last in the file: its 24 rounds are the one long evaluation) for lane 0. -/
theorem test_keccakf : after (exec .keccakf State.reset) (fun t => t.lanes[0] == 0xF1258F7940E1DDE7) = true := by
  decide +kernel

end Sys2Proof.Tests
end

section
/-! The busy window (R14, R334, R335): what host reads and writes leave alone while a command is in flight, and why the
command's results do not depend on them (R14). -/

namespace Sys2Proof.Machine

/-- The event is a host read or write. -/
def HostOp.IsAccess (op : HostOp) : Prop := (∃ pl n v, op = .write pl n v) ∨ ∃ pl n, op = .read pl n

/-- The command in flight and its operands are the same in both states: `t` may differ from `s` only in VIOL, in DONE and
ERR where they were set, and in the host's side apart from `stopped`. -/
structure SameInFlight (s t : State) : Prop extends SameOperands s t where
  cmd : t.cmd = s.cmd
  rlen : t.rlen = s.rlen
  work : t.work = s.work
  busy : t.status.busy = s.status.busy
  ecode : t.status.ecode = s.status.ecode
  done : s.status.done = false → t.status.done = false
  err : s.status.err = false → t.status.err = false
  stopped : t.host.stopped = s.host.stopped

theorem SameInFlight.withHost (s : State) {h : HostSide} (hs : h.stopped = s.host.stopped) :
    SameInFlight s { s with host := h } :=
  { arg := rfl, lanes := rfl, f := rfl, dmem := rfl, cmd := rfl, rlen := rfl, work := rfl, busy := rfl, ecode := rfl,
    done := id, err := id, stopped := hs }

theorem SameInFlight.refl (s : State) : SameInFlight s s := .withHost s rfl

theorem SameInFlight.trans {s t u : State} (h : SameInFlight s t) (h' : SameInFlight t u) : SameInFlight s u where
  arg := h'.arg.trans h.arg
  lanes := h'.lanes.trans h.lanes
  f := h'.f.trans h.f
  dmem := h'.dmem.trans h.dmem
  cmd := h'.cmd.trans h.cmd
  rlen := h'.rlen.trans h.rlen
  work := h'.work.trans h.work
  busy := h'.busy.trans h.busy
  ecode := h'.ecode.trans h.ecode
  done hd := h'.done (h.done hd)
  err he := h'.err (h.err he)
  stopped := h'.stopped.trans h.stopped

theorem SameInFlight.violate (s : State) : SameInFlight s { s with status := s.status.violate } :=
  { SameInFlight.refl s with }

theorem SameInFlight.w1c (s : State) (v : Word) : SameInFlight s { s with status := s.status.w1c v } :=
  { SameInFlight.refl s with
    done := fun hd => by simp [hd]
    err := fun he => by simp [he] }

/-! ## One access -/

theorem whenIdle_sameInFlight {s : State} (hb : s.status.busy = true) (t : State) : SameInFlight s (whenIdle s t) := by
  rcases whenIdle_cases s t with ⟨-, hw⟩ | ⟨hi, -⟩
  · rw [hw]; exact .violate s
  · simp [hb] at hi

theorem regWrite_sameInFlight {s : State} (hb : s.status.busy = true) (v : Word) (loc : RegLoc) :
    SameInFlight s (regWrite s v loc) := by
  cases loc with
  | status => exact .w1c s v
  | arg | lane | fword => exact whenIdle_sameInFlight hb _
  | id | dmemsz | rlen | reserved | cmd => exact .refl s

/-- R334: a host write while busy. -/
theorem hostWrite_sameInFlight {s t : State} {n off : Nat} {v : Word} {win : Window} (hb : s.status.busy = true)
    (h : hostWrite s n v win off = .next t) : SameInFlight s t := by
  cases win with
  | reg =>
    simp only [hostWrite, cmdWrite, hb, if_true] at h
    split at h <;> cases h
    · exact .violate s
    · exact regWrite_sameInFlight hb v _
  | dmem =>
    cases h
    exact whenIdle_sameInFlight hb _

/-- R80: a host read, at any time. -/
theorem hostRead_sameInFlight (s : State) (n : Nat) (win : Window) (off : Nat) :
    SameInFlight s (hostRead s n win off) := by
  unfold hostRead
  split <;> split <;> exact .withHost s rfl

theorem takeEvent_sameInFlight {op : HostOp} {s t : State} (hop : op.IsAccess) (hb : s.status.busy = true)
    (h : takeEvent op s = .next t) : SameInFlight s t := by
  rcases hop with ⟨pl, n, v, rfl⟩ | ⟨pl, n, rfl⟩
  · simp only [takeEvent] at h
    rcases access_cases pl n (hostWrite s n v) with ⟨win, off, -, -, -, ha⟩ | ⟨_, ha⟩ <;> rw [ha] at h
    · exact hostWrite_sameInFlight hb h
    · cases h
  · simp only [takeEvent] at h
    rcases access_cases pl n (fun win off => .next (hostRead s n win off)) with ⟨win, off, -, -, -, ha⟩ | ⟨_, ha⟩ <;>
      rw [ha] at h <;> cases h
    exact hostRead_sameInFlight s n win off

/-! ## The whole window -/

/-- A step that takes a host access in the busy window leaves the later events delivered. -/
theorem step_access {s t : State} {op : HostOp} {rest : List HostOp} (hop : op.IsAccess) (hb : s.status.busy = true)
    (hs : s.host.stopped = none) (hi : s.host.inbox = op :: rest) (h : step s = .next t) :
    SameInFlight s t ∧ t.host.inbox = rest := by
  rw [step_event hs hi] at h
  have hp : SameInFlight s (popInbox s) := .withHost s rfl
  have hw := takeEvent_sameInFlight hop (hp.busy.trans hb) h
  refine ⟨hp.trans hw, ?_⟩
  rcases takeEvent_inbox h with ht | ⟨-, hbt, -⟩
  · simp [ht, popInbox, hi]
  · simp [popInbox, hw.busy, hb] at hbt

theorem run_sameInFlight {ops : List HostOp} {s t : State} (hops : ∀ op ∈ ops, op.IsAccess)
    (hb : s.status.busy = true) (hs : s.host.stopped = none) (hi : s.host.inbox = ops)
    (h : Host.Core.run core ops.length s = .next t) : SameInFlight s t := by
  induction ops generalizing s with
  | nil => cases h; exact .refl _
  | cons op rest ih =>
    simp only [List.length_cons, Host.Core.run] at h
    split at h
    · next s₁ hstep =>
      obtain ⟨hw, hi₁⟩ := step_access (hops op List.mem_cons_self) hb hs hi hstep
      have hrest : ∀ op ∈ rest, op.IsAccess := fun o ho => hops o (List.mem_cons_of_mem op ho)
      exact hw.trans (ih hrest (hw.busy.trans hb) (hw.stopped.trans hs) hi₁ h)
    · cases h
    · cases h

/-! ## The statements -/

/-- Settles O28: every access is one of `takeEvent_sameInFlight`. -/
theorem operandsFrozenWhileBusy : Obligations.OperandsFrozenWhileBusy := by
  intro s t op hb hop h
  have hw := takeEvent_sameInFlight hop hb h
  exact ⟨hw.busy.trans hb, hw.cmd, hw.rlen, hw.arg, hw.lanes, hw.f, hw.dmem, hw.work, hw.ecode⟩

/-- Settles O29: the window keeps the command in flight and its operands (`run_sameInFlight`, by induction on the host's
accesses), and the same word on the same operands ends in the same way (`runCommand_agree`). -/
theorem resultIndependentOfHostWindow : Obligations.ResultIndependentOfHostWindow := by
  intro s t u hb hd he hs hops hrun hu
  have hw : SameInFlight s t := run_sameInFlight hops hb hs rfl hrun
  have ha := runCommand_agree hw.toSameOperands hw.cmd
  have hdt := hw.done hd
  have het := hw.err he
  rw [hu] at ha
  generalize runCommand t = r at ha ⊢
  cases ha with
  | failed c =>
    exact ⟨failed t c, rfl, hw.lanes, hw.f, hw.dmem, hw.arg, hw.cmd, hw.rlen, rfl, hdt.trans hd.symm, rfl, rfl⟩
  | succeeded n lanes f dmem =>
    exact ⟨succeeded t n lanes f dmem, rfl, rfl, rfl, rfl, hw.arg, hw.cmd, rfl, rfl, rfl, het.trans he.symm, rfl⟩

end Sys2Proof.Machine
end

section
/-! The invariant of the engine (R35, R36, R46, R109, R296): it holds at reset, and each effect of a step keeps it. -/

namespace Sys2Proof.Machine

/-! ## DMEM -/

/-- A DMEM image is in canonical form and inside DMEM. -/
structure Mem.Inside (m : Mem) : Prop where
  wf : Mem.wf m
  lt : ∀ c ∈ m, c.1 < Config.dmemBytes

/-- R76, R78: an in-bounds write keeps DMEM in canonical form and inside DMEM. -/
theorem Mem.Inside.setBytes {m : Mem} (hm : m.Inside) {a : Nat} {x : List Byte} (hx : InDmem a x.length) :
    Mem.Inside (Mem.setBytes m a x) where
  wf := Mem.wf_setBytes hm.wf a x
  lt c hc := by
    rcases Mem.mem_setBytes hc with ⟨ha, hb⟩ | hc
    · rcases hx with hx | hx <;> omega
    · exact hm.lt c hc

/-! ## STATUS and RLEN -/

/-- What the invariant says of STATUS and RLEN depends on them alone. -/
theorem State.StatusInv.congr {s t : State} (h : s.StatusInv) (hs : t.status = s.status) (hr : t.rlen = s.rlen) :
    t.StatusInv where
  busy_clear := by rw [hs, hr]; exact h.busy_clear
  done_no_code := by rw [hs]; exact h.done_no_code
  err_has_code := by rw [hs]; exact h.err_has_code
  code_no_output := by rw [hs, hr]; exact h.code_no_output

/-- R36: a write of STATUS clears flags and sets none. -/
theorem State.StatusInv.w1c {s : State} (h : s.StatusInv) (v : Word) :
    State.StatusInv { s with status := s.status.w1c v } where
  busy_clear hb := by
    obtain ⟨hd, he, hc, hr⟩ := h.busy_clear hb
    exact ⟨by simp [hd], by simp [he], hc, hr⟩
  done_no_code hd := by
    obtain ⟨he, hc⟩ := h.done_no_code (Bool.and_eq_true_iff.1 hd).1
    exact ⟨by simp [he], hc⟩
  err_has_code he := h.err_has_code (Bool.and_eq_true_iff.1 he).1
  code_no_output := h.code_no_output

/-- R334: VIOL is no part of the invariant. -/
theorem State.StatusInv.violate {s : State} (h : s.StatusInv) :
    State.StatusInv { s with status := s.status.violate } :=
  ⟨h.busy_clear, h.done_no_code, h.err_has_code, h.code_no_output⟩

/-- R106: issue clears DONE, ERR, ECODE and RLEN. -/
theorem statusInv_issue (w : Word) (s : State) : (issue w s).StatusInv where
  busy_clear _ := ⟨rfl, rfl, rfl, rfl⟩
  done_no_code hd := by cases hd
  err_has_code he := by cases he
  code_no_output hc := absurd rfl hc

/-- R296: an error completion of a command in flight leaves DONE and RLEN at the 0 of its issue. -/
theorem State.StatusInv.failed {s : State} (h : s.StatusInv) (hb : s.status.busy = true) {c : ErrCode}
    (hc : c ≠ .noError) : (failed s c).StatusInv where
  busy_clear hb' := by cases hb'
  done_no_code hd := by
    obtain ⟨hd', -⟩ := h.busy_clear hb
    exact Bool.noConfusion (hd'.symm.trans hd)
  err_has_code _ := hc
  code_no_output _ := by
    obtain ⟨-, -, -, hr⟩ := h.busy_clear hb
    exact hr

/-- R109: a successful completion of a command in flight leaves ERR at the 0 of its issue. -/
theorem State.StatusInv.succeeded {s : State} (h : s.StatusInv) (hb : s.status.busy = true) (n : Nat) (lanes : Lanes)
    (f : Vector FElem 16) (dmem : Mem) : (succeeded s n lanes f dmem).StatusInv where
  busy_clear hb' := by cases hb'
  done_no_code _ := by
    obtain ⟨-, he', -⟩ := h.busy_clear hb
    exact ⟨he', rfl⟩
  err_has_code he := by
    obtain ⟨-, he', -⟩ := h.busy_clear hb
    exact Bool.noConfusion (he'.symm.trans he)
  code_no_output hc := absurd rfl hc

/-! ## The whole invariant -/

theorem State.Inv.inside {s : State} (h : s.Inv) : Mem.Inside s.dmem := ⟨h.dmem_wf, h.dmem_inside⟩

/-- The invariant from its three parts. -/
theorem State.Inv.of_parts {s : State} (hm : Mem.Inside s.dmem) (hs : s.StatusInv) (hw : s.work = zeroLanes) : s.Inv :=
  ⟨hm.wf, hm.lt, hs, hw⟩

/-- The host's side is no part of the invariant. -/
theorem State.Inv.withHost {s : State} (hi : s.Inv) (h : HostSide) : State.Inv { s with host := h } :=
  .of_parts hi.inside (hi.status.congr rfl rfl) hi.work_zero

/-- R47: after reset every flag is 0, and there is no code. -/
theorem statusInv_reset : State.reset.StatusInv where
  busy_clear hb := by cases hb
  done_no_code hd := by cases hd
  err_has_code he := by cases he
  code_no_output hc := absurd rfl hc

/-- Settles O26: no DMEM byte is written, STATUS is clear and the working state is zero (R47). -/
theorem resetHasInv : Obligations.ResetHasInv :=
  .of_parts ⟨Mem.wf_nil, fun _ hc => absurd hc List.not_mem_nil⟩ statusInv_reset rfl

/-- R109, R295, R296: the completion of the command in flight keeps the invariant. -/
theorem State.Inv.runCommand {s t : State} (hi : s.Inv) (hb : s.status.busy = true) (h : runCommand s = .next t) :
    t.Inv := by
  rcases runCommand_cases s with ⟨c, hc, hr⟩ | hr | ⟨n, lanes, f, dmem, hr, hm⟩ <;> rw [h] at hr <;> cases hr
  · exact .of_parts hi.inside (hi.status.failed hb hc) rfl
  · refine .of_parts ?_ (hi.status.succeeded hb n lanes f dmem) rfl
    rcases hm with rfl | ⟨x, hx, rfl⟩
    · exact hi.inside
    · exact hi.inside.setBytes hx

/-- Every effect of a step keeps the invariant. -/
theorem Effect.keeps_inv {s t : State} (he : Effect s t) (hi : s.Inv) : t.Inv := by
  cases he with
  | hostOnly h => exact hi.withHost h
  | statusWrite _ _ v h => exact .of_parts hi.inside ((hi.status.w1c v).congr rfl rfl) hi.work_zero
  | ignoredWrite _ _ _ h => exact .of_parts hi.inside (hi.status.violate.congr rfl rfl) hi.work_zero
  | issued w h => exact .of_parts hi.inside (statusInv_issue w _) rfl
  | regStored => exact .of_parts hi.inside (hi.status.congr rfl rfl) hi.work_zero
  | dmemStored a x h _ hx => exact .of_parts (hi.inside.setBytes (.inr hx)) (hi.status.congr rfl rfl) hi.work_zero
  | reset h => exact resetHasInv.withHost h
  | completed _ h hb hr => exact (hi.withHost h).runCommand hb hr

/-- Settles O27: a step has one of the effects of `step_effect`, and each keeps the invariant. -/
theorem stepKeepsInv : Obligations.StepKeepsInv :=
  fun _ _ hi h => (step_effect h).keeps_inv hi

/-! ## Where the flags come from (R36, R48) -/

/-- DONE, ERR or a new code appears between the two states. -/
def RaisesFlag (a b : Status) : Prop :=
  (a.done = false ∧ b.done = true) ∨ (a.err = false ∧ b.err = true) ∨ (b.ecode ≠ .noError ∧ b.ecode ≠ a.ecode)

/-- A STATUS with no flag and no code that `a` does not have raises nothing over `a`. -/
theorem not_raisesFlag {a b : Status} (hd : b.done = true → a.done = true) (he : b.err = true → a.err = true)
    (hc : b.ecode = .noError ∨ b.ecode = a.ecode) : ¬ RaisesFlag a b := by
  rintro (⟨h0, h1⟩ | ⟨h0, h1⟩ | ⟨h0, h1⟩)
  · simp [hd h1] at h0
  · simp [he h1] at h0
  · exact hc.elim h0 h1

/-- An effect that raises a flag is a completion, so it ends the busy window and leaves VIOL. -/
theorem Effect.of_raisesFlag {s t : State} (he : Effect s t) (hf : RaisesFlag s.status t.status) :
    s.status.busy = true ∧ t.status.busy = false ∧ t.status.viol = s.status.viol := by
  cases he with
  | completed _ h hb hr =>
    obtain ⟨-, -, -, hv, hb'⟩ := runCommand_frame hr
    exact ⟨hb, hb', hv⟩
  | statusWrite =>
    exact absurd hf (not_raisesFlag (fun h => (Bool.and_eq_true_iff.1 h).1) (fun h => (Bool.and_eq_true_iff.1 h).1)
      (.inr rfl))
  | issued => exact absurd hf (not_raisesFlag (fun h => by cases h) (fun h => by cases h) (.inl rfl))
  | reset => exact absurd hf (not_raisesFlag (fun h => by cases h) (fun h => by cases h) (.inl rfl))
  | hostOnly | ignoredWrite | regStored | dmemStored => exact absurd hf (not_raisesFlag id id (.inr rfl))

/-- Settles O31: of the effects of `step_effect`, only the completion raises a flag. -/
theorem onlyCompletionSetsFlags : Obligations.OnlyCompletionSetsFlags :=
  fun _ _ h hf => (step_effect h).of_raisesFlag hf

end Sys2Proof.Machine
end

section
/-! What a command leaves alone (R38 to R41, R46, R78): the operands, the host's side, and every part of STATE, F and DMEM
that its rule gives it nothing to write to. -/

namespace Sys2Proof.Machine

/-! ## Which commands write what -/

theorem writesLanes_iff (i : Instr) :
    Instr.writesLanes i = true ↔ i ∈ [Instr.keccakf, .sinit, .absorb, .absorbf, .squeeze] := by
  cases i <;> simp [Instr.writesLanes]

theorem hasOutput_iff (i : Instr) :
    Instr.hasOutput i = true ↔
      i ∈ [Instr.squeeze, .sponge, .lenc, .renc, .encstr, .bytepad, .shake256, .cshake256, .kmacxof256] := by
  cases i <;> simp [Instr.hasOutput]

theorem writesF_iff (i : Instr) :
    Instr.writesF i = true ↔
      (∃ fd fa fb, i = .fmul fd fa fb) ∨ (∃ pd pa pb, i = .padd pd pa pb) ∨ (∃ pd pa fs, i = .smul pd pa fs) ∨
        ∃ pd, i = .ldg pd := by
  cases i <;> simp [Instr.writesF]

/-! ## A command that ends -/

/-- A command that ends in a next state fails with a code or completes. -/
theorem exec_next {i : Instr} {s t : State} (h : exec i s = .next t) :
    (∃ c, c ≠ .noError ∧ t = failed s c) ∨
      ∃ n lanes f dmem, t = succeeded s n lanes f dmem ∧ Writes i s n lanes f dmem := by
  rcases exec_cases i s with ⟨c, hc, hr⟩ | ⟨hr, -⟩ | ⟨n, lanes, f, dmem, hr, hw⟩ <;> rw [h] at hr <;> cases hr
  · exact .inl ⟨c, hc, rfl⟩
  · exact .inr ⟨n, lanes, f, dmem, rfl, hw⟩

theorem exec_lanes {i : Instr} {s t : State} (h : exec i s = .next t) (hi : Instr.writesLanes i = false) :
    t.lanes = s.lanes := by
  rcases exec_next h with ⟨c, -, rfl⟩ | ⟨n, lanes, f, dmem, rfl, hw⟩
  · rfl
  · exact hw.lanes_eq hi

theorem exec_f {i : Instr} {s t : State} (h : exec i s = .next t) (hi : Instr.writesF i = false) : t.f = s.f := by
  rcases exec_next h with ⟨c, -, rfl⟩ | ⟨n, lanes, f, dmem, rfl, hw⟩
  · rfl
  · exact hw.f_eq hi

theorem exec_dmem {i : Instr} {s t : State} (h : exec i s = .next t) (hi : Instr.hasOutput i = false) :
    t.dmem = s.dmem := by
  rcases exec_next h with ⟨c, -, rfl⟩ | ⟨n, lanes, f, dmem, rfl, hw⟩
  · rfl
  · exact (hw.dmem_eq hi).2

/-- Settles O34: both completions are given by their whole state, `failed` and `succeeded`. -/
theorem commandsLeaveOperands : Obligations.CommandsLeaveOperands := by
  intro i s t h
  rcases exec_next h with ⟨c, hc, rfl⟩ | ⟨n, lanes, f, dmem, rfl, -⟩
  · exact ⟨rfl, rfl, rfl, rfl, rfl, rfl, .inr ⟨rfl, hc, rfl, rfl⟩⟩
  · exact ⟨rfl, rfl, rfl, rfl, rfl, rfl, .inl ⟨rfl, rfl, rfl⟩⟩

/-- Settles O35, from the frame of each part of the state. -/
theorem commandFrames : Obligations.CommandFrames := by
  intro i s t h
  refine ⟨fun hi => exec_lanes h ?_, fun hfmul hpadd hsmul hldg => exec_f h ?_, fun hi a => ?_⟩
  · exact Bool.eq_false_iff.2 (mt (writesLanes_iff i).1 hi)
  · refine Bool.eq_false_iff.2 fun hw => ?_
    rcases (writesF_iff i).1 hw with ⟨fd, fa, fb, rfl⟩ | ⟨pd, pa, pb, rfl⟩ | ⟨pd, pa, fs, rfl⟩ | ⟨pd, rfl⟩
    · exact hfmul fd fa fb rfl
    · exact hpadd pd pa pb rfl
    · exact hsmul pd pa fs rfl
    · exact hldg pd rfl
  · rw [exec_dmem h (Bool.eq_false_iff.2 (mt (hasOutput_iff i).1 hi))]

/-! ## F registers other than the destination (R39, R40) -/

/-- R39: F[k] <- v changes no other F register. -/
theorem fRead_fWrite_other (s : State) {k j : RegIdx} (v : FElem) (h : j ≠ k) :
    (s.fWrite k v).fRead j = s.fRead j := by
  have hk : k.toNat ≠ j.toNat := fun e => h (BitVec.eq_of_toNat_eq e.symm)
  simp [State.fRead, Vector.getElem_set_ne, hk]

/-- R40: the F indices of P[k], for k < 8, as numbers. -/
theorem pIdx_toNat {k : RegIdx} (hk : isPIdx k = true) :
    (pIdxX k).toNat = 2 * k.toNat ∧ (pIdxY k).toNat = 2 * k.toNat + 1 := by
  have hlt : k < 8 := of_decide_eq_true hk
  simp only [pIdxX, pIdxY]
  constructor <;> bv_omega

/-- R40: P[k] <- (x, y) changes no F register but F[2k] and F[2k+1]. -/
theorem fRead_pWrite_other (s : State) {k j : RegIdx} (q : Point) (hk : isPIdx k = true) (hx : j.toNat ≠ 2 * k.toNat)
    (hy : j.toNat ≠ 2 * k.toNat + 1) : (s.pWrite k q).fRead j = s.fRead j := by
  obtain ⟨ex, ey⟩ := pIdx_toNat hk
  have hjx : j ≠ pIdxX k := fun e => hx (by rw [e, ex])
  have hjy : j ≠ pIdxY k := fun e => hy (by rw [e, ey])
  rw [State.pWrite, fRead_fWrite_other _ _ hjy, fRead_fWrite_other _ _ hjx]

/-- If the outcome is a next state, F[k] in it is as in `s`. -/
def KeepsFReg (s : State) (k : RegIdx) (r : Result) : Prop := ∀ t, r = .next t → t.fRead k = s.fRead k

theorem KeepsFReg.require {s : State} {k : RegIdx} {cond : Bool} {c : ErrCode} {g : Unit → Result}
    (h : cond = true → KeepsFReg s k (g ())) : KeepsFReg s k (require cond c s g) :=
  require_elim (P := KeepsFReg s k) (fun _ _ ht => by cases ht; rfl) h

theorem KeepsFReg.requirePoint {s : State} {k : RegIdx} {r : Option Point} {g : Point → Result}
    (h : ∀ q, KeepsFReg s k (g q)) : KeepsFReg s k (requirePoint r s g) := by
  cases r with
  | none => intro t ht; cases ht; rfl
  | some q => exact h q

theorem KeepsFReg.result {s u : State} {k : RegIdx} (n : Nat) (h : u.fRead k = s.fRead k) :
    KeepsFReg s k (result n u) := by
  intro t ht
  cases ht
  exact h

/-- A point written to P[pd] leaves every other F register. -/
theorem KeepsFReg.point {s : State} {k pd : RegIdx} (q : Point) (hp : isPIdx pd = true) (hx : k.toNat ≠ 2 * pd.toNat)
    (hy : k.toNat ≠ 2 * pd.toNat + 1) : KeepsFReg s k (Sys2Proof.Machine.result 0 (s.pWrite pd q)) :=
  .result 0 (fRead_pWrite_other s q hp hx hy)

/-- R250. -/
theorem execFmul_keepsFReg (s : State) {fd k : RegIdx} (fa fb : RegIdx) (hk : k ≠ fd) :
    KeepsFReg s k (execFmul fd fa fb s) := by
  unfold execFmul
  exact .require fun _ => .require fun _ => .result 0 (fRead_fWrite_other s _ hk)

/-- R251. A pd of 8 or more fails the first check. -/
theorem execPadd_keepsFReg (s : State) {pd k : RegIdx} (pa pb : RegIdx) (hx : k.toNat ≠ 2 * pd.toNat)
    (hy : k.toNat ≠ 2 * pd.toNat + 1) : KeepsFReg s k (execPadd pd pa pb s) := by
  refine .require fun hp => .require fun _ => .require fun _ => .requirePoint fun q => ?_
  obtain ⟨⟨hpd, -⟩, -⟩ : (isPIdx pd = true ∧ isPIdx pa = true) ∧ isPIdx pb = true := by simpa using hp
  exact .point q hpd hx hy

/-- R252. A pd of 8 or more fails the first check. -/
theorem execSmul_keepsFReg (s : State) {pd k : RegIdx} (pa fs : RegIdx) (hx : k.toNat ≠ 2 * pd.toNat)
    (hy : k.toNat ≠ 2 * pd.toNat + 1) : KeepsFReg s k (execSmul pd pa fs s) :=
  .require fun hp => .require fun _ => .require fun _ => .requirePoint fun q =>
    .point q (Bool.and_eq_true_iff.1 hp).1 hx hy

/-- R253. A pd of 8 or more fails the first check. -/
theorem execLdg_keepsFReg (s : State) {pd k : RegIdx} (hx : k.toNat ≠ 2 * pd.toNat)
    (hy : k.toNat ≠ 2 * pd.toNat + 1) : KeepsFReg s k (execLdg pd s) :=
  .require fun hp => .point _ hp hx hy

/-- Settles O37, command by command. -/
theorem destinationRegistersOnly : Obligations.DestinationRegistersOnly := by
  intro s t k
  refine ⟨fun fd fa fb h hk => ?_, fun pd pa pb h hx hy => ?_, fun pd pa fs h hx hy => ?_, fun pd h hx hy => ?_⟩
  · exact execFmul_keepsFReg s fa fb hk t h
  · exact execPadd_keepsFReg s pa pb hx hy t h
  · exact execSmul_keepsFReg s pa fs hx hy t h
  · exact execLdg_keepsFReg s hx hy t h

end Sys2Proof.Machine
end

section
/-! The register window as the host sees it (R32 to R43): where each register is, what a read returns, and what a write
leaves of every other word. -/

namespace Sys2Proof.Machine

/-! ## Where a register is (R32) -/

/-- R32: the offset of a register of the window. Reserved words have many offsets, and here none of their own. -/
def RegLoc.offset : RegLoc → Nat
  | .id | .reserved => 0x000
  | .dmemsz => 0x004
  | .status => 0x008
  | .cmd => 0x00C
  | .rlen => 0x010
  | .arg i => 0x020 + 4 * i.val
  | .lane k w => 0x100 + 4 * w.val + 8 * k.val
  | .fword n w => 0x200 + 64 * n.val + 4 * w.val

/-- `offset` undoes the register map, so no two aligned offsets are the same register. -/
theorem offset_regAt {off : Nat} (ha : off % 4 = 0) (hr : regAt off ≠ .reserved) : (regAt off).offset = off := by
  have hoff : (off = 0x000 ∨ off = 0x004 ∨ off = 0x008 ∨ off = 0x00C ∨ off = 0x010) ∨ (0x020 ≤ off ∧ off < 0x040) ∨
      (0x100 ≤ off ∧ off < 0x1C8) ∨ (0x200 ≤ off ∧ off < 0x600 ∧ off % 64 < 56) ∨
      ((0x011 ≤ off ∧ off < 0x020) ∨ (0x040 ≤ off ∧ off < 0x100) ∨ (0x1C8 ≤ off ∧ off < 0x200) ∨
        (0x200 ≤ off ∧ off < 0x600 ∧ 56 ≤ off % 64) ∨ 0x600 ≤ off) := by omega
  rcases hoff with h | h | h | h | h
  · rcases h with rfl | rfl | rfl | rfl | rfl <;> rfl
  · rw [regAt_arg h]; simp only [RegLoc.offset]; omega
  · rw [regAt_lane h]; simp only [RegLoc.offset]; omega
  · rw [regAt_fword h]; simp only [RegLoc.offset]; omega
  · exact absurd (regAt_reserved h) hr

theorem regAt_offset {loc : RegLoc} (hr : loc ≠ .reserved) : regAt loc.offset = loc := by
  cases loc with
  | id | dmemsz | status | cmd | rlen => rfl
  | arg i =>
    rw [RegLoc.offset, regAt_arg (by omega)]
    simp only [RegLoc.arg.injEq, Fin.ext_iff]
    omega
  | lane k w =>
    rw [RegLoc.offset, regAt_lane (by omega)]
    simp only [RegLoc.lane.injEq, Fin.ext_iff]
    omega
  | fword n w =>
    rw [RegLoc.offset, regAt_fword (by omega)]
    simp only [RegLoc.fword.injEq, Fin.ext_iff]
    omega
  | reserved => exact absurd rfl hr

theorem offset_aligned (loc : RegLoc) : loc.offset % 4 = 0 := by
  cases loc <;> simp only [RegLoc.offset] <;> omega

theorem offset_lt (loc : RegLoc) : loc.offset < 0x1000 := by
  cases loc <;> simp only [RegLoc.offset] <;> omega

/-! ## Reads -/

/-- A read of a register with a value returns it, and has no other effect (R80). -/
theorem takeEvent_regLoad_value {off : Nat} (ha : off % 4 = 0) (hlt : off < 0x1000) {s : State} {v : Word}
    (hv : regValue s (regAt off) = some v) : takeEvent (regLoad off) s = .next (reply v s) := by
  rw [takeEvent_regLoad ha hlt, hostRead, hv]

/-- The same at the register's own offset. -/
theorem takeEvent_regLoad_offset {loc : RegLoc} (hr : loc ≠ .reserved) {s : State} {v : Word}
    (hv : regValue s loc = some v) : takeEvent (regLoad loc.offset) s = .next (reply v s) :=
  takeEvent_regLoad_value (offset_aligned loc) (offset_lt loc) (by rw [regAt_offset hr, hv])

theorem regValue_lane_idle {s : State} (hb : s.status.busy = false) (k : Fin 25) (w : Fin 2) :
    regValue s (.lane k w) = some (s.laneWord k w) := by
  simp [regValue, hb]

theorem regValue_fword_idle {s : State} (hb : s.status.busy = false) (n : Fin 16) (w : Fin 14) :
    regValue s (.fword n w) = some (s.fWord n w) := by
  simp [regValue, hb]

/-- Settles O18: each register is read at its own offset. -/
theorem idleRegisterReads : Obligations.IdleRegisterReads := by
  intro s hb
  refine ⟨fun i => ?_, fun k => ⟨?_, ?_⟩, fun n w => ?_, ?_, ?_, ?_⟩
  · exact takeEvent_regLoad_offset (loc := .arg i) (by simp) rfl
  · have h0 : 0x100 + 8 * k.val = (RegLoc.lane k 0).offset := rfl
    rw [h0]
    exact takeEvent_regLoad_offset (by simp) (regValue_lane_idle hb k 0)
  · have h1 : 0x104 + 8 * k.val = (RegLoc.lane k 1).offset := rfl
    rw [h1]
    exact takeEvent_regLoad_offset (by simp) (regValue_lane_idle hb k 1)
  · exact takeEvent_regLoad_offset (loc := .fword n w) (by simp) (regValue_fword_idle hb n w)
  · exact takeEvent_regLoad_offset (loc := .cmd) (by simp) rfl
  · exact takeEvent_regLoad_offset (loc := .rlen) (by simp) rfl
  · exact takeEvent_regLoad_offset (loc := .status) (by simp) rfl

/-! ## Read-only and reserved words (R33, R34, R43) -/

/-- A write to a register other than CMD is the write of `regWrite` (R32). -/
theorem takeEvent_regStore_ne_cmd {off : Nat} (ha : off % 4 = 0) (hlt : off < 0x1000) (h : off ≠ 0x00C) (v : Word)
    (s : State) : takeEvent (regStore off v) s = .next (regWrite s v (regAt off)) := by
  rw [takeEvent_regStore ha hlt, hostWrite_reg h]

/-- Settles O16. -/
theorem constantAndReservedRegisters : Obligations.ConstantAndReservedRegisters := by
  intro s
  refine ⟨?_, ?_, fun off ha hr => ?_, fun v => ⟨?_, ?_, ?_⟩⟩
  · exact takeEvent_regLoad_offset (loc := .id) (by simp) rfl
  · exact takeEvent_regLoad_offset (loc := .dmemsz) (by simp) rfl
  · have hloc : regAt off = .reserved := regAt_reserved (by omega)
    refine ⟨takeEvent_regLoad_value ha (by omega) (by rw [hloc]; rfl), fun v => ?_⟩
    rw [takeEvent_regStore_ne_cmd ha (by omega) (by omega), hloc]
    rfl
  · exact takeEvent_regStore_ne_cmd (by decide) (by decide) (by decide) v s
  · exact takeEvent_regStore_ne_cmd (by decide) (by decide) (by decide) v s
  · exact takeEvent_regStore_ne_cmd (by decide) (by decide) (by decide) v s

/-! ## Stores to ARG, STATE and F while idle (R38, R39, R41) -/

/-- The words of ARG, STATE and F: those that a host write stores to while idle. -/
def RegLoc.isOperand : RegLoc → Bool
  | .arg _ | .lane _ _ | .fword _ _ => true
  | .id | .dmemsz | .status | .cmd | .rlen | .reserved => false

/-- R32: the offsets of ARG, STATE and F. -/
theorem isOperand_regAt {off : Nat} (h : (0x020 ≤ off ∧ off < 0x040) ∨ (0x100 ≤ off ∧ off < 0x1C8) ∨
    (0x200 ≤ off ∧ off < 0x600 ∧ off % 64 < 56)) : (regAt off).isOperand = true := by
  rcases h with h | h | h
  · rw [regAt_arg h]; rfl
  · rw [regAt_lane h]; rfl
  · rw [regAt_fword h]; rfl

theorem whenIdle_idle {s : State} (hb : s.status.busy = false) (t : State) : whenIdle s t = t := by
  simp [whenIdle, hb]

section
variable {s : State} (hb : s.status.busy = false) (v : Word)
include hb

/-- An idle store changes nothing but ARG, STATE and F. -/
theorem regWrite_frame {loc : RegLoc} (hl : loc.isOperand = true) :
    regWrite s v loc =
      { s with arg := (regWrite s v loc).arg, lanes := (regWrite s v loc).lanes, f := (regWrite s v loc).f } := by
  cases loc with
  | arg | lane | fword => simp only [regWrite, whenIdle_idle hb]
  | id | dmemsz | status | cmd | rlen | reserved => cases hl

/-- The word stored reads back. -/
theorem regValue_regWrite_same {loc : RegLoc} (hl : loc.isOperand = true) :
    regValue (regWrite s v loc) loc = some v := by
  cases loc with
  | arg i => simp [regWrite, whenIdle_idle hb, regValue]
  | lane k w =>
    have hw : getWord (setWord s.lanes[k] w.val v) w.val = v := getWord_setWord_same _ _ _ (by omega)
    simpa [regWrite, whenIdle_idle hb, regValue, hb, State.laneWord] using hw
  | fword n w =>
    have hw : getWord (setWord s.f[n] w.val v) w.val = v := getWord_setWord_same _ _ _ (by omega)
    simpa [regWrite, whenIdle_idle hb, regValue, hb, State.fWord] using hw
  | id | dmemsz | status | cmd | rlen | reserved => cases hl

/-- A store to an ARG register leaves every other word. -/
theorem regValue_argStore_other {i : Fin 8} {loc : RegLoc} (h : loc ≠ .arg i) :
    regValue (regWrite s v (.arg i)) loc = regValue s loc := by
  simp only [regWrite, whenIdle_idle hb]
  cases loc with
  | arg j =>
    have hij : i.val ≠ j.val := fun e => h (by rw [Fin.ext e])
    simp [regValue, Vector.getElem_set_ne, hij]
  | id | dmemsz | status | cmd | rlen | lane | fword | reserved => rfl

/-- A store to a word of a lane leaves every other word: of another lane, or the other word of this one. -/
theorem regValue_laneStore_other {k : Fin 25} {w : Fin 2} {loc : RegLoc} (h : loc ≠ .lane k w) :
    regValue (regWrite s v (.lane k w)) loc = regValue s loc := by
  simp only [regWrite, whenIdle_idle hb]
  cases loc with
  | lane k' w' =>
    by_cases hk : k' = k
    · subst hk
      have hw : w'.val ≠ w.val := fun e => h (by rw [Fin.ext e])
      simp [regValue, hb, State.laneWord, getWord_setWord_other _ _ _ _ hw (show 32 * w'.val + 32 ≤ 64 by omega)]
    · have hkk : k.val ≠ k'.val := fun e => hk (Fin.ext e.symm)
      simp [regValue, hb, State.laneWord, Vector.getElem_set_ne, hkk]
  | id | dmemsz | status | cmd | rlen | arg | fword | reserved => rfl

/-- A store to a word of an F register leaves every other word: of another register, or another word of this one. -/
theorem regValue_fwordStore_other {n : Fin 16} {w : Fin 14} {loc : RegLoc} (h : loc ≠ .fword n w) :
    regValue (regWrite s v (.fword n w)) loc = regValue s loc := by
  simp only [regWrite, whenIdle_idle hb]
  cases loc with
  | fword n' w' =>
    by_cases hn : n' = n
    · subst hn
      have hw : w'.val ≠ w.val := fun e => h (by rw [Fin.ext e])
      simp [regValue, hb, State.fWord, getWord_setWord_other _ _ _ _ hw (show 32 * w'.val + 32 ≤ 448 by omega)]
    · have hnn : n.val ≠ n'.val := fun e => hn (Fin.ext e.symm)
      simp [regValue, hb, State.fWord, Vector.getElem_set_ne, hnn]
  | id | dmemsz | status | cmd | rlen | arg | lane | reserved => rfl

/-- A store leaves every other word of the window. -/
theorem regValue_regWrite_other {loc loc' : RegLoc} (hl : loc.isOperand = true) (h : loc' ≠ loc) :
    regValue (regWrite s v loc) loc' = regValue s loc' := by
  cases loc with
  | arg => exact regValue_argStore_other hb v h
  | lane => exact regValue_laneStore_other hb v h
  | fword => exact regValue_fwordStore_other hb v h
  | id | dmemsz | status | cmd | rlen | reserved => cases hl

end

/-- Only the reserved words share a register: an operand word has one aligned offset. -/
theorem regAt_ne_of_isOperand {off off' : Nat} (ha : off % 4 = 0) (ha' : off' % 4 = 0)
    (hl : (regAt off).isOperand = true) (hne : off' ≠ off) : regAt off' ≠ regAt off := by
  intro he
  have hr : regAt off ≠ .reserved := fun e => by rw [e] at hl; cases hl
  exact hne (by rw [← offset_regAt ha' (he ▸ hr), he, offset_regAt ha hr])

/-- Settles O17: the store is `regWrite` of the register at its offset, and another offset is another register. -/
theorem idleRegisterStores : Obligations.IdleRegisterStores := by
  intro s off v hb ha hoff
  have hl := isOperand_regAt hoff
  refine ⟨(regWrite s v (regAt off)).arg, (regWrite s v (regAt off)).lanes, (regWrite s v (regAt off)).f, ?_⟩
  rw [← regWrite_frame hb v hl]
  refine ⟨takeEvent_regStore_ne_cmd ha (by omega) (by omega) v s, regValue_regWrite_same hb v hl, ?_⟩
  intro off' ha' _ hne
  exact regValue_regWrite_other hb v hl (regAt_ne_of_isOperand ha ha' hl hne)

/-! ## STATUS (R36) -/

/-- R36: every bit of the word of STATUS. -/
theorem getLsbD_statusWord (st : Status) (i : Nat) :
    st.word.getLsbD i =
      if i = 0 then st.busy else if i = 1 then st.done else if i = 2 then st.err else if i = 3 then st.viol
      else if i < 8 then false else if i < 16 then st.ecode.code.getLsbD (i - 8) else false := by
  show BitVec.getLsbD (w := 16 + 8 + 4 + 1 + 1 + 1 + 1) (0#16 ++ st.ecode.code ++ 0#4 ++ BitVec.ofBool st.viol ++
    BitVec.ofBool st.err ++ BitVec.ofBool st.done ++ BitVec.ofBool st.busy) i = _
  simp only [BitVec.getLsbD_append, BitVec.getLsbD_ofBool, BitVec.getLsbD_zero]
  rcases (by omega : i = 0 ∨ i = 1 ∨ i = 2 ∨ i = 3 ∨ (4 ≤ i ∧ i < 8) ∨ (8 ≤ i ∧ i < 16) ∨ 16 ≤ i) with
    rfl | rfl | rfl | rfl | h | h | h
  · simp
  · simp
  · simp
  · simp
  · simp (disch := omega) only [if_pos, if_neg]
  · simp (disch := omega) only [if_pos, if_neg]
    rw [show i - 1 - 1 - 1 - 1 - 4 = i - 8 by omega]
  · simp (disch := omega) only [if_neg]

/-- Bits 7:4 are RAZ. -/
theorem statusWord_bits_7_4 (st : Status) : st.word.extractLsb' 4 4 = 0 := by
  refine BitVec.eq_of_getLsbD_eq fun i hi => ?_
  rw [BitVec.getLsbD_extractLsb', getLsbD_statusWord]
  simp (disch := omega) only [if_pos, if_neg]
  simp

/-- Bits 15:8 are ECODE. -/
theorem statusWord_bits_15_8 (st : Status) : st.word.extractLsb' 8 8 = st.ecode.code := by
  refine BitVec.eq_of_getLsbD_eq fun i hi => ?_
  rw [BitVec.getLsbD_extractLsb', getLsbD_statusWord]
  simp (disch := omega) only [if_pos, if_neg, Nat.add_sub_cancel_left]
  simp [hi]

/-- Bits 31:16 are RAZ. -/
theorem statusWord_bits_31_16 (st : Status) : st.word.extractLsb' 16 16 = 0 := by
  refine BitVec.eq_of_getLsbD_eq fun i hi => ?_
  rw [BitVec.getLsbD_extractLsb', getLsbD_statusWord]
  simp (disch := omega) only [if_neg]
  simp

/-- Settles O15: the fields of the word, and the write of STATUS is `Status.w1c`. -/
theorem statusRegister : Obligations.StatusRegister := by
  refine ⟨fun st => ⟨getLsbD_statusWord st 0, getLsbD_statusWord st 1, getLsbD_statusWord st 2,
    getLsbD_statusWord st 3, statusWord_bits_7_4 st, statusWord_bits_15_8 st, statusWord_bits_31_16 st⟩,
    fun s v => ⟨s.status.w1c v, ?_, rfl, rfl, rfl, rfl, rfl⟩⟩
  exact takeEvent_regStore_ne_cmd (by decide) (by decide) (by decide) v s

/-! ## Right after reset (R47) -/

/-- Settles O25: reset gives the state of R47's table, field by field. -/
theorem resetValues : Obligations.ResetValues := by
  have hz : ∀ k : Fin 25, zeroLanes[k] = 0 := fun k => by simp [zeroLanes]
  refine ⟨fun s => ⟨s.host, rfl⟩, rfl, rfl, rfl, rfl, fun i => ?_, hz, fun n => ?_, hz, fun a => rfl, rfl, rfl⟩
  · simp [State.reset]
  · simp [State.reset]

end Sys2Proof.Machine
end

section
/-! The host's accesses (R70 to R80): where a place lies, which accesses have a meaning, what an access of DMEM stores and
returns, and that a read changes the replies only. -/

namespace Sys2Proof.Machine

/-! ## Where a place lies (R70, R71) -/

/-- R70: the size of a window in bytes. -/
def Window.bytes : Window → Nat
  | .reg => regWindowBytes
  | .dmem => Config.dmemBytes

/-- R71: an offset inside its window is that byte of it; any other lies in no window. -/
theorem locate_offset (win : Window) (off : Nat) :
    (Place.offset win off).locate = if off < win.bytes then some (win, off) else none := by
  cases win with
  | reg => rfl
  | dmem =>
    have hb : inBounds off 1 = true ↔ off < Config.dmemBytes := by
      rw [inBounds_iff]; simp only [InDmem]; omega
    exact if_congr hb rfl rfl

theorem locate_bus_reg {off : Nat} (hlt : off < regWindowBytes)
    (hd : ¬ (Config.dmemBase ≤ Config.regBase + off ∧
      Config.regBase + off < Config.dmemBase + Config.dmemBytes)) :
    (Place.bus (Config.regBase + off)).locate = some (.reg, off) := by
  have hr : Config.regBase ≤ Config.regBase + off ∧
      Config.regBase + off < Config.regBase + regWindowBytes := by omega
  simp only [Place.locate, decide_eq_true hr, decide_eq_false hd, Nat.add_sub_cancel_left]

theorem locate_bus_dmem {off : Nat} (hlt : off < Config.dmemBytes)
    (hr : ¬ (Config.regBase ≤ Config.dmemBase + off ∧
      Config.dmemBase + off < Config.regBase + regWindowBytes)) :
    (Place.bus (Config.dmemBase + off)).locate = some (.dmem, off) := by
  have hd : Config.dmemBase ≤ Config.dmemBase + off ∧
      Config.dmemBase + off < Config.dmemBase + Config.dmemBytes := by omega
  simp only [Place.locate, decide_eq_true hd, decide_eq_false hr, Nat.add_sub_cancel_left]

/-- A host access depends on its place through the window and the offset only. -/
theorem access_congr {pl pl' : Place} (h : pl.locate = pl'.locate) (n : Nat) (k : Window → Nat → Result) :
    access pl n k = access pl' n k := by
  simp only [access, h]

theorem takeEvent_write_congr {pl pl' : Place} (h : pl.locate = pl'.locate) (n : Nat) (v : Word) (s : State) :
    takeEvent (.write pl n v) s = takeEvent (.write pl' n v) s :=
  access_congr h n _

theorem takeEvent_read_congr {pl pl' : Place} (h : pl.locate = pl'.locate) (n : Nat) (s : State) :
    takeEvent (.read pl n) s = takeEvent (.read pl' n) s :=
  access_congr h n _

/-- Settles O22: the bus address and the offset are located alike. -/
theorem busAddressesReachWindows : Obligations.BusAddressesReachWindows := by
  intro s off n v
  refine ⟨fun hlt hd => ?_, fun hlt hr => ?_⟩
  · have hloc : (Place.bus (Config.regBase + off)).locate = (Place.offset .reg off).locate := by
      rw [locate_bus_reg hlt hd, locate_offset]; exact (if_pos hlt).symm
    exact ⟨takeEvent_write_congr hloc n v s, takeEvent_read_congr hloc n s⟩
  · have hloc : (Place.bus (Config.dmemBase + off)).locate = (Place.offset .dmem off).locate := by
      rw [locate_bus_dmem hlt hr, locate_offset]; exact (if_pos hlt).symm
    exact ⟨takeEvent_write_congr hloc n v s, takeEvent_read_congr hloc n s⟩

/-! ## Which accesses have a meaning (R71 to R73) -/

theorem allows_reg_iff (n : Nat) : Window.reg.allows n = true ↔ n = 4 := by simp [Window.allows]

theorem allows_dmem_iff (n : Nat) : Window.dmem.allows n = true ↔ n = 1 ∨ n = 2 ∨ n = 4 := by
  simp [Window.allows, or_assoc]

/-- An access by offset is refused unless it starts in its window, has a width of that window, and is aligned. -/
theorem access_offset_refused {win : Window} {off n : Nat}
    (h : ¬ (off < win.bytes ∧ win.allows n = true ∧ off % n = 0)) (k : Window → Nat → Result) :
    ∃ r, access (.offset win off) n k = .refused r := by
  rcases access_cases (.offset win off) n k with ⟨win', off', hloc, hal, hmod, -⟩ | hr
  · rw [locate_offset] at hloc
    split at hloc
    · next hlt => cases hloc; exact absurd ⟨hlt, hal, hmod⟩ h
    · cases hloc
  · exact hr

/-- Settles O21: each of the five defects breaks one of the conditions of an access with a meaning. -/
theorem meaninglessAccessRefused : Obligations.MeaninglessAccessRefused := by
  intro s win off n v h
  have hbad : ¬ (off < win.bytes ∧ win.allows n = true ∧ off % n = 0) := by
    rintro ⟨hlt, hal, hmod⟩
    rcases h with ⟨rfl, hn⟩ | ⟨rfl, h1, h2, h4⟩ | hm | ⟨rfl, ho⟩ | ⟨rfl, ho⟩
    · exact hn ((allows_reg_iff n).1 hal)
    · rcases (allows_dmem_iff n).1 hal with hn | hn | hn
      · exact h1 hn
      · exact h2 hn
      · exact h4 hn
    · exact hm hmod
    · exact Nat.not_lt.2 ho hlt
    · exact Nat.not_lt.2 ho hlt
  exact ⟨access_offset_refused hbad _, access_offset_refused hbad _⟩

/-! ## Reads change the replies only (R80) -/

/-- R80: a read appends one reply, and may advance the counter of free values. -/
theorem hostRead_host (s : State) (n : Nat) (win : Window) (off : Nat) :
    ∃ v d, hostRead s n win off =
      { s with host := { s.host with replies := s.host.replies ++ [v], draws := d } } := by
  cases win with
  | reg =>
    simp only [hostRead]
    cases regValue s (regAt off) with
    | some v => exact ⟨v, _, rfl⟩
    | none => exact ⟨_, _, rfl⟩
  | dmem =>
    simp only [hostRead]
    cases dmemValue s off n with
    | some v => exact ⟨v, _, rfl⟩
    | none => exact ⟨_, _, rfl⟩

/-- Settles O23: a read that is not refused is the `hostRead` of some place. -/
theorem readsHaveNoSideEffect : Obligations.ReadsHaveNoSideEffect := by
  intro s t pl n h
  simp only [takeEvent] at h
  rcases access_cases pl n (fun win off => .next (hostRead s n win off)) with ⟨win, off, -, -, -, ha⟩ | ⟨_, ha⟩ <;>
    rw [ha] at h <;> cases h
  obtain ⟨v, d, hr⟩ := hostRead_host s n win off
  rw [hr]
  exact ⟨rfl, rfl, rfl⟩

/-! ## DMEM while idle (R72, R75, R87, R88) -/

theorem pow_256_eq (n : Nat) : 256 ^ n = 2 ^ (8 * n) := by rw [Nat.pow_mul]

/-- R75: byte i of the little-endian encoding of a word is its bits 8i+7 : 8i. -/
theorem getElem_leBytes_toNat {w : Nat} (v : BitVec w) {n i : Nat} (h : i < (leBytes v.toNat n).length) :
    (leBytes v.toNat n)[i] = v.extractLsb' (8 * i) 8 := by
  rw [getElem_leBytes, pow_256_eq]
  exact BitVec.eq_of_toNat_eq (by simp [Nat.shiftRight_eq_div_pow])

/-- A region whose bytes are those of a word holds the word's little-endian encoding. -/
theorem holdsBytes_leBytes {m : Mem} {a n : Nat} {v : Word}
    (h : ∀ i < n, m.byte? (a + i) = some (v.extractLsb' (8 * i) 8)) : HoldsBytes m a (leBytes v.toNat n) := by
  intro i hi
  rw [h i (by simpa using hi), getElem_leBytes_toNat v hi]

section
variable {s : State} (hb : s.status.busy = false) (a n : Nat) (v : Word)
include hb

/-- R72: an idle write of n bytes changes DMEM only. -/
theorem dmemWrite_idle : dmemWrite s a n v = { s with dmem := Mem.setBytes s.dmem a (leBytes v.toNat n) } := by
  rw [dmemWrite, whenIdle_idle hb]; rfl

variable {a n v}

/-- R72, R75: an idle read of n bytes, all written, composes them little-endian. -/
theorem dmemValue_idle (hv : v.toNat < 2 ^ (8 * n)) (h : HoldsBytes s.dmem a (leBytes v.toNat n)) :
    dmemValue s a n = some v := by
  have hread : Mem.bytes? s.dmem a n = some (leBytes v.toNat n) :=
    (Mem.bytes?_eq_some_iff _ _ _ _).2 ⟨length_leBytes _ _, h⟩
  have hval : leInt (leBytes v.toNat n) = v.toNat := by
    rw [leInt_leBytes, pow_256_eq, Nat.mod_eq_of_lt hv]
  simp [dmemValue, hb, hread, hval]

end

/-- Settles O20: a write is `Mem.setBytes` of the little-endian bytes, a read of them gives the value back, and any read
appends one reply. -/
theorem dmemAccess : Obligations.DmemAccess := by
  intro s a n hb hn ha hlt
  refine ⟨fun v => ?_, fun v hv hh => ?_, ?_⟩
  · have hw := wroteAt_setBytes s.dmem a (leBytes v.toNat n)
    refine ⟨_, by rw [takeEvent_dmemStore hn ha hlt, dmemWrite_idle hb], fun i hi => ?_, fun b hout => ?_⟩
    · have hlen : i < (leBytes v.toNat n).length := by simpa using hi
      rw [hw.inside i hlen, getElem_leBytes_toNat v hlen]
    · exact hw.outside b (by simpa using hout)
  · rw [takeEvent_dmemLoad hn ha hlt, hostRead, dmemValue_idle hb hv (holdsBytes_leBytes hh)]
  · obtain ⟨v, d, hr⟩ := hostRead_host s n .dmem a
    exact ⟨v, _, (takeEvent_dmemLoad hn ha hlt s).trans (congrArg _ hr), rfl, rfl, rfl⟩

/-! ## The output region of a command (R35, R78) -/

/-- R35, R76: RLEN holds the length of any in-bounds string. -/
theorem toNat_ofNat_of_inDmem {a n : Nat} (h : InDmem a n) : (BitVec.ofNat 32 n).toNat = n := by
  have hle := dmemBytes_le
  have hn : n < 2 ^ 32 := by rcases h with h | h <;> omega
  rw [BitVec.toNat_ofNat, Nat.mod_eq_of_lt hn]

/-- Settles O36: an error writes nothing, and a success one string at ARG6, whose length is RLEN. -/
theorem outputRegionOnly : Obligations.OutputRegionOnly := by
  intro i s t hi h a hout
  rcases exec_next h with ⟨c, -, rfl⟩ | ⟨n, lanes, f, dmem, rfl, hw⟩
  · rfl
  · obtain ⟨x, hx, hn, hm⟩ := hw.output ((hasOutput_iff i).2 hi)
    subst hn hm
    have hrlen : (succeeded s x.length lanes f (Mem.setBytes s.dmem (s.argNat 6) x)).rlen.toNat = x.length :=
      toNat_ofNat_of_inDmem hx
    rw [hrlen] at hout
    exact (wroteAt_setBytes s.dmem (s.argNat 6) x).outside a hout

/-! ## The oldest event (R83, R307) -/

theorem popInbox_cons {s : State} {op : HostOp} {rest : List HostOp} (h : s.host.inbox = op :: rest) :
    popInbox s = { s with host := { s.host with inbox := rest } } := by
  simp only [popInbox, h, List.tail_cons]

/-- Settles O6: with no event left the engine has its turn, which an idle engine passes; and a stopped run does not
move. -/
theorem stepTakesOldestEvent : Obligations.StepTakesOldestEvent := by
  refine ⟨fun s op rest hs hi => ?_, fun s hb hi => ?_⟩
  · rw [step_event hs hi, popInbox_cons hi]
  · cases hs : s.host.stopped with
    | none => rw [step_no_event hs hi, engineTurn_idle hb]
    | some e => exact step_stopped hs

end Sys2Proof.Machine
end

section
/-! Command words and commands (R100 to R107, R114): a word is its five fields, a row of the opcode table fixes some bits of
each, and decoding and encoding undo each other. -/

namespace Sys2Proof

open Machine

/-! ## A word is its fields (R100) -/

/-- R100: the five fields cover the word. -/
theorem fields_append (w : Word) : rsvField w ++ rbField w ++ raField w ++ rdField w ++ opcField w = w := by
  refine BitVec.eq_of_getLsbD_eq fun i hi => ?_
  show BitVec.getLsbD (w := 12 + 4 + 4 + 4 + 8) _ i = _
  simp only [BitVec.getLsbD_append, rsvField, rbField, raField, rdField, opcField, BitVec.getLsbD_extractLsb']
  rcases (by omega : i < 8 ∨ (8 ≤ i ∧ i < 12) ∨ (12 ≤ i ∧ i < 16) ∨ (16 ≤ i ∧ i < 20) ∨ 20 ≤ i) with h | h | h | h | h
  · simp [h]
  all_goals
    simp (disch := omega) only [if_pos, if_neg, decide_eq_true, Bool.true_and]
    congr 1; omega

/-- Two words are equal when their fields are. -/
theorem word_eq_iff {w w' : Word} :
    w = w' ↔ opcField w = opcField w' ∧ rsvField w = rsvField w' ∧ rdField w = rdField w' ∧ raField w = raField w' ∧
      rbField w = rbField w' := by
  refine ⟨by rintro rfl; exact ⟨rfl, rfl, rfl, rfl, rfl⟩, ?_⟩
  rintro ⟨ho, hv, hd, ha, hb⟩
  rw [← fields_append w, ← fields_append w', ho, hv, hd, ha, hb]

/-- R100: a word is the packing of its fields, if RSV is 0. -/
theorem packFields_eq_iff {rb ra rd : RegIdx} {opc : BitVec 8} {w : Word} :
    packFields rb ra rd opc = w ↔
      opcField w = opc ∧ rsvField w = 0 ∧ rdField w = rd ∧ raField w = ra ∧ rbField w = rb := by
  rw [eq_comm, word_eq_iff, opcField_packFields, rsvField_packFields, rdField_packFields, raField_packFields,
    rbField_packFields]

/-- A mask that fixes all of OPC keeps it. -/
theorem opcField_and {m : Word} (h : opcField m = BitVec.allOnes 8) (w : Word) : opcField (w &&& m) = opcField w := by
  rw [opcField, BitVec.extractLsb'_and, ← opcField, ← opcField, h, BitVec.and_allOnes]

/-- A mask that fixes all of RSV keeps it. -/
theorem rsvField_and {m : Word} (h : rsvField m = BitVec.allOnes 12) (w : Word) : rsvField (w &&& m) = rsvField w := by
  rw [rsvField, BitVec.extractLsb'_and, ← rsvField, ← rsvField, h, BitVec.and_allOnes]

/-- R101, R107: mask and match, field by field, of a row that fixes OPC and RSV, and of the register fields the bits md,
ma and mb, to 0. -/
theorem and_eq_packFields_iff {m : Word} {opc : BitVec 8} {md ma mb : RegIdx}
    (hm : opcField m = BitVec.allOnes 8 ∧ rsvField m = BitVec.allOnes 12 ∧ rdField m = md ∧ raField m = ma ∧
      rbField m = mb) (w : Word) :
    w &&& m = packFields 0 0 0 opc ↔ opcField w = opc ∧ rsvField w = 0 ∧ rdField w &&& md = 0 ∧
      raField w &&& ma = 0 ∧ rbField w &&& mb = 0 := by
  obtain ⟨ho, hv, rfl, rfl, rfl⟩ := hm
  rw [eq_comm, packFields_eq_iff, opcField_and ho, rsvField_and hv]
  simp only [rdField, raField, rbField, BitVec.extractLsb'_and]

/-- R101: the mask bit of a P field is its bit 3. -/
theorem and_eight_eq_zero_iff (k : RegIdx) : k &&& 8 = 0 ↔ isPIdx k = true := by
  revert k; decide

/-! ## The rows (R101, R104, R107) -/

/-- A row selects exactly the words that encode the well-formed command it builds from them. -/
def Row.SelectsEncodings (r : Row) : Prop :=
  ∀ w : Word, w &&& r.mask = r.pattern ↔ (r.build w).wellFormed = true ∧ encode (r.build w) = w

/-- R101, format N: every bit is fixed, so the row selects one word. -/
theorem rowN_selectsEncodings {opc : Word} {i : Instr} (hi : i.wellFormed = true) (he : encode i = opc) :
    (rowN opc i).SelectsEncodings := by
  intro w
  have hall : w &&& 0xFFFFFFFF = w := BitVec.and_allOnes
  simp only [rowN, hall, hi, he, true_and, eq_comm]

/-- R101, format F3: of the register fields no bit is fixed. -/
theorem rowFmul_selectsEncodings :
    Row.SelectsEncodings ⟨0xFFF000FF, 0x40, fun w => .fmul (rdField w) (raField w) (rbField w)⟩ := by
  intro w
  refine (and_eq_packFields_iff (opc := 0x40) (md := 0) (ma := 0) (mb := 0) (by decide) w).trans ?_
  simp [encode, packFields_eq_iff, Instr.wellFormed, Instr.opcode]

/-- R101, format P3: bit 3 of every register field is 0. -/
theorem rowPadd_selectsEncodings :
    Row.SelectsEncodings ⟨0xFFF888FF, 0x41, fun w => .padd (rdField w) (raField w) (rbField w)⟩ := by
  intro w
  refine (and_eq_packFields_iff (opc := 0x41) (md := 8) (ma := 8) (mb := 8) (by decide) w).trans ?_
  simp only [encode, packFields_eq_iff, Instr.wellFormed, Instr.opcode, and_eight_eq_zero_iff, Bool.and_eq_true]
  tauto

/-- R101, format PS: bit 3 of RD and of RA is 0. -/
theorem rowSmul_selectsEncodings :
    Row.SelectsEncodings ⟨0xFFF088FF, 0x42, fun w => .smul (rdField w) (raField w) (rbField w)⟩ := by
  intro w
  refine (and_eq_packFields_iff (opc := 0x42) (md := 8) (ma := 8) (mb := 0#4) (by decide) w).trans ?_
  simp only [encode, packFields_eq_iff, Instr.wellFormed, Instr.opcode, and_eight_eq_zero_iff, BitVec.and_zero,
    Bool.and_eq_true]
  tauto

/-- R101, format P1: bit 3 of RD is 0, and so are all of RA and RB. -/
theorem rowLdg_selectsEncodings : Row.SelectsEncodings ⟨0xFFFFF8FF, 0x43, fun w => .ldg (rdField w)⟩ := by
  intro w
  refine (and_eq_packFields_iff (opc := 0x43) (md := 8) (ma := BitVec.allOnes 4) (mb := BitVec.allOnes 4)
    (by decide) w).trans ?_
  simp only [encode, packFields_eq_iff, Instr.wellFormed, Instr.opcode, and_eight_eq_zero_iff, BitVec.and_allOnes]
  tauto

/-- R101, R104: so it is for every row of the table. -/
theorem opcodeRows_selectEncodings : ∀ r ∈ opcodeRows, r.SelectsEncodings := by
  simp only [opcodeRows, List.forall_mem_cons]
  refine ⟨?_, ?_, ?_, ?_, ?_, ?_, ?_, ?_, ?_, ?_, ?_, ?_, ?_, rowFmul_selectsEncodings, rowPadd_selectsEncodings,
    rowSmul_selectsEncodings, rowLdg_selectsEncodings, fun r hr => absurd hr List.not_mem_nil⟩
  all_goals exact rowN_selectsEncodings rfl rfl

/-- Every command has a row that builds it from its own word. -/
theorem exists_row_build_encode (i : Instr) : ∃ r ∈ opcodeRows, r.build (encode i) = i := by
  cases i with
  | fmul | padd | smul | ldg => simp [opcodeRows, rowN, encode]
  | keccakf | sinit | absorb | absorbf | squeeze | sponge | lenc | renc | encstr | bytepad | shake256 | cshake256
  | kmacxof256 => simp [opcodeRows, rowN]

/-! ## The decoder (R107) -/

/-- R104: the rows have different opcodes. -/
theorem opcodeRows_opcodes_nodup : (opcodeRows.map fun r => opcField r.pattern).Nodup := by decide

/-- A row fixes the whole opcode, so a word that selects it has its opcode. -/
theorem opcField_eq_of_selects {r : Row} (hr : r ∈ opcodeRows) {w : Word} (h : w &&& r.mask = r.pattern) :
    opcField r.pattern = opcField w := by
  have hm : ∀ r ∈ opcodeRows, opcField r.mask = BitVec.allOnes 8 := by decide
  rw [← h, opcField_and (hm r hr)]

/-- R107: a word selects at most one row. -/
theorem row_eq_of_selects {r r' : Row} (hr : r ∈ opcodeRows) (hr' : r' ∈ opcodeRows) {w : Word}
    (h : w &&& r.mask = r.pattern) (h' : w &&& r'.mask = r'.pattern) : r = r' :=
  List.inj_on_of_nodup_map opcodeRows_opcodes_nodup hr hr'
    ((opcField_eq_of_selects hr h).trans (opcField_eq_of_selects hr' h').symm)

/-- R107: a word decodes to what the row it selects builds from it. -/
theorem decode_eq_ok_iff {w : Word} {i : Instr} :
    decode w = .ok i ↔ ∃ r ∈ opcodeRows, w &&& r.mask = r.pattern ∧ r.build w = i := by
  constructor
  · intro h
    unfold decode at h
    split at h
    · next r hr =>
      cases h
      exact ⟨r, List.mem_of_find?_eq_some hr, by simpa [Row.selects] using List.find?_some hr, rfl⟩
    · cases h
  · rintro ⟨r, hr, hs, rfl⟩
    have hsel : ∃ r', opcodeRows.find? (fun r => r.selects w) = some r' := by
      rw [← Option.isSome_iff_exists, List.find?_isSome]
      exact ⟨r, hr, by simpa [Row.selects] using hs⟩
    obtain ⟨r', hf⟩ := hsel
    have hs' : w &&& r'.mask = r'.pattern := by simpa [Row.selects] using List.find?_some hf
    rw [row_eq_of_selects hr (List.mem_of_find?_eq_some hf) hs hs', decode, hf]

/-- R105: a word that selects no row is illegal. -/
theorem decode_eq_error {w : Word} (h : ∀ r ∈ opcodeRows, ¬ w &&& r.mask = r.pattern) :
    decode w = .error (rejectReason w) := by
  have hf : opcodeRows.find? (fun r => r.selects w) = none := by
    simpa [List.find?_eq_none, Row.selects] using h
  rw [decode, hf]

/-! ## The round trips (R101, R105) -/

/-- Settles O2: some row builds the command from its word, and a row selects the words that encode what it builds. -/
theorem decodeOfEncode : Obligations.DecodeOfEncode := by
  intro i hi
  obtain ⟨r, hr, hb⟩ := exists_row_build_encode i
  refine decode_eq_ok_iff.2 ⟨r, hr, (opcodeRows_selectEncodings r hr _).2 ?_, hb⟩
  rw [hb]
  exact ⟨hi, rfl⟩

/-- Settles O3: the row selected by the word selects encodings only. -/
theorem legalWordIsItsEncoding : Obligations.LegalWordIsItsEncoding := by
  intro w i h
  obtain ⟨r, hr, hs, rfl⟩ := decode_eq_ok_iff.1 h
  exact (opcodeRows_selectEncodings r hr w).1 hs

/-- Settles O4: the opcodes of two rows differ, and a word that selects a row has its opcode. -/
theorem matchingRowIsTheCommand : Obligations.MatchingRowIsTheCommand := by
  refine ⟨?_, fun w r hr hs => decode_eq_ok_iff.2 ⟨r, hr, hs, rfl⟩,
    fun s h => runCommand_illegal (decode_eq_error h)⟩
  refine (List.pairwise_map.1 opcodeRows_opcodes_nodup).imp_of_mem ?_
  rintro r r' hr hr' hne w ⟨h, h'⟩
  exact hne ((opcField_eq_of_selects hr h).trans (opcField_eq_of_selects hr' h').symm)

/-! ## The legal words (R101, R105, R114) -/

/-- R104: the commands of format N. -/
def formatN : List Instr :=
  [.keccakf, .sinit, .absorb, .absorbf, .squeeze, .sponge, .lenc, .renc, .encstr, .bytepad, .shake256, .cshake256,
    .kmacxof256]

/-- R100, R101: a word of format N is its opcode. -/
theorem encode_formatN : ∀ i ∈ formatN, i.wellFormed = true ∧ encode i = packFields 0 0 0 i.opcode := by decide

theorem isPIdx_iff {k : RegIdx} : isPIdx k = true ↔ k < 8 := decide_eq_true_iff

/-- R105: the legal words are the encodings of the well-formed commands. -/
theorem legal_iff_exists_encode {w : Word} :
    (∃ i, decode w = .ok i) ↔ ∃ i : Instr, i.wellFormed = true ∧ encode i = w := by
  refine exists_congr fun i => ⟨legalWordIsItsEncoding w i, ?_⟩
  rintro ⟨hi, rfl⟩
  exact decodeOfEncode i hi

/-- Settles O5: the words of the well-formed commands, by their fields. -/
theorem legalWords : Obligations.LegalWords := by
  intro w
  rw [legal_iff_exists_encode]
  simp only [← isPIdx_iff]
  constructor
  · rintro ⟨i, hi, rfl⟩
    cases i with
    | fmul fd fa fb => simp [encode, Instr.opcode]
    | padd pd pa pb => simpa [encode, Instr.opcode, Instr.wellFormed, and_assoc] using hi
    | smul pd pa fs => simpa [encode, Instr.opcode, Instr.wellFormed] using hi
    | ldg pd => simpa [encode, Instr.opcode, Instr.wellFormed] using hi
    | keccakf | sinit | absorb | absorbf | squeeze | sponge | lenc | renc | encstr | bytepad | shake256 | cshake256
    | kmacxof256 => simp [encode, Instr.opcode]
  · rintro ⟨hv, ⟨ho, hd, ha, hb⟩ | ho | ⟨ho, hd, ha, hb⟩ | ⟨ho, hd, ha⟩ | ⟨ho, hd, ha, hb⟩⟩
    · obtain ⟨i, hi, hio⟩ := List.mem_map.1 (show opcField w ∈ formatN.map Instr.opcode from ho)
      obtain ⟨hw, he⟩ := encode_formatN i hi
      exact ⟨i, hw, he.trans (packFields_eq_iff.2 ⟨hio.symm, hv, hd, ha, hb⟩)⟩
    · exact ⟨.fmul (rdField w) (raField w) (rbField w), rfl, packFields_eq_iff.2 ⟨ho, hv, rfl, rfl, rfl⟩⟩
    · exact ⟨.padd (rdField w) (raField w) (rbField w), by simp [Instr.wellFormed, hd, ha, hb],
        packFields_eq_iff.2 ⟨ho, hv, rfl, rfl, rfl⟩⟩
    · exact ⟨.smul (rdField w) (raField w) (rbField w), by simp [Instr.wellFormed, hd, ha],
        packFields_eq_iff.2 ⟨ho, hv, rfl, rfl, rfl⟩⟩
    · exact ⟨.ldg (rdField w), hd, packFields_eq_iff.2 ⟨ho, hv, rfl, ha, hb⟩⟩

/-- Settles O1: each worked word is the encoding of its command, and decodes to it by the round trip; the other two are
illegal by their fields. -/
theorem workedWordsDecode : Obligations.WorkedWordsDecode := by
  exact ⟨rfl, decodeOfEncode (.fmul 3 1 2) rfl, rfl, decodeOfEncode (.padd 2 0 1) rfl, rfl,
    decodeOfEncode (.smul 1 0 5) rfl, rfl, decodeOfEncode (.ldg 0) rfl, rfl, decodeOfEncode .kmacxof256 rfl,
    ⟨.badField, rfl⟩, ⟨.reservedBits, rfl⟩⟩

end Sys2Proof
end

section
/-! Issue, the engine's turn, and the statements of a host program (R106 to R108, R113). -/

namespace Sys2Proof.Machine

/-! ## Issue (R37, R106) -/

/-- R37: a write of CMD while idle is the issue of the word. -/
theorem takeEvent_cmdStore_idle {s : State} (hb : s.status.busy = false) (w : Word) :
    takeEvent (regStore 0x00C w) s = issueCommand w s := by
  rw [takeEvent_regStore (by decide) (by decide)]
  simp only [hostWrite, regAt_eq_cmd.2, if_true, cmdWrite, hb, Bool.false_eq_true, if_false]

/-- R106, R338: the issue of a word goes through, unless it is a command that would read unwritten DMEM. -/
theorem issueCommand_eq {s : State} {w : Word}
    (h : ∀ i, decode w = .ok i → exec i (issue w s) ≠ .fault .unwrittenInput) :
    issueCommand w s = .next (issue w s) := by
  rcases issueCommand_cases w s with hi | ⟨-, hf⟩
  · exact hi
  · cases hd : decode w with
    | ok i => exact absurd ((runCommand_legal hd).symm.trans hf) (h i hd)
    | error r => rw [runCommand_illegal (s := issue w s) hd] at hf; cases hf

/-- Settles O10: the issued state is `issue w s`. -/
theorem cmdWriteIssues : Obligations.CmdWriteIssues :=
  fun s w hb h => (takeEvent_cmdStore_idle hb w).trans (issueCommand_eq (s := s) h)

/-! ## The engine's turn (R107, R108) -/

/-- Settles O7: each of the three is a turn of the engine, which runs the word in CMD. -/
theorem stepRunsDecodedCommand : Obligations.StepRunsDecodedCommand := by
  intro s i hb hd
  refine ⟨fun rest hs hi => ?_, fun rest hs hi => ?_, fun hs hi => ?_⟩
  · rw [step_event hs hi, ← popInbox_cons hi]
    exact (engineTurn_busy (s := popInbox s) hb).trans (runCommand_legal hd)
  · rw [step_wait_busy hs hi hb, runCommand_legal hd]
  · rw [step_no_event hs hi, engineTurn_busy hb, runCommand_legal hd]

/-- A word is placed as it is. -/
theorem withFetchWord_toNat (s : State) (w : Word) : s.withFetchWord 32 w.toNat = placeCommand w s := by
  rw [State.withFetchWord, Nat.mod_eq_of_lt w.isLt, BitVec.ofNat_toNat, BitVec.setWidth_eq]

/-- Settles O8: the placed word is issued, and the engine's own event is the oldest (`stepRunsDecodedCommand`). -/
theorem placedWordRunsNext : Obligations.PlacedWordRunsNext := by
  intro s w i hd
  rw [withFetchWord_toNat]
  exact (stepRunsDecodedCommand (placeCommand w s) i rfl hd).1 s.host.inbox rfl rfl

/-! ## EXPECT (R113, R341) -/

theorem takeEvent_expect_holds {e : Expectation} {s : State} (h : e.holds s.status = true) :
    takeEvent (.expect e) s = .next s := by
  simp only [takeEvent, checkExpect, h, if_true]

theorem takeEvent_expect_fails {e : Expectation} {s : State} (h : e.holds s.status = false) :
    takeEvent (.expect e) s = .next { s with host := { s.host with stopped := some e } } := by
  simp only [takeEvent, checkExpect, h, Bool.false_eq_true, if_false]

theorem holds_err_iff {c : Byte} {st : Status} :
    (Expectation.err c).holds st = true ↔ st.err = true ∧ st.ecode.code = c := by
  simp only [Expectation.holds, Bool.and_eq_true, beq_iff_eq]

/-- Settles O13: an EXPECT passes exactly if STATUS holds what it expects, and a stopped run does not move. -/
theorem expectStopsOnMismatch : Obligations.ExpectStopsOnMismatch := by
  refine ⟨fun s hd => takeEvent_expect_holds hd, fun s c he hc => ?_, fun s hd => takeEvent_expect_fails hd,
    fun s b h => ?_, fun s h => ?_⟩
  · exact takeEvent_expect_holds (holds_err_iff.2 ⟨he, by rw [hc]⟩)
  · refine takeEvent_expect_fails (Bool.eq_false_iff.2 fun hh => ?_)
    obtain ⟨he, hc⟩ := holds_err_iff.1 hh
    rcases h with h | h
    · rw [he] at h; cases h
    · exact h hc
  · obtain ⟨e, he⟩ := Option.ne_none_iff_exists'.1 h
    exact step_stopped he

/-! ## `F[n] <- v` (R39, R113) -/

/-- x with its words ws, in this order, replaced by those of v. -/
def copyWords (v : FElem) : FElem → List (Fin 14) → FElem
  | x, [] => x
  | x, w :: ws => copyWords v (setWord x w (getWord v w)) ws

/-- A bit of a word that is replaced is that of v; any other is kept. -/
theorem getLsbD_copyWords (v x : FElem) (ws : List (Fin 14)) (w : Fin 14) {i : Nat} (hi : i < 448)
    (hw : i / 32 = w.val) :
    (copyWords v x ws).getLsbD i = if w ∈ ws then v.getLsbD i else x.getLsbD i := by
  induction ws generalizing x with
  | nil => simp [copyWords]
  | cons w' ws ih =>
    rw [copyWords, ih, getLsbD_setWord _ _ _ _ hi]
    by_cases hww : w = w'
    · subst hww
      have hin : 32 * w.val ≤ i ∧ i < 32 * w.val + 32 := by omega
      simp [hin, getWord, show i - 32 * w.val < 32 by omega]
    · have hout : ¬ (32 * w'.val ≤ i ∧ i < 32 * w'.val + 32) := by
        intro h; exact hww (Fin.ext (by omega))
      rw [if_neg hout]
      simp [hww]

/-- Copying all fourteen words gives v. -/
theorem copyWords_all (v x : FElem) : copyWords v x (List.finRange 14) = v := by
  refine BitVec.eq_of_getLsbD_eq fun i hi => ?_
  rw [getLsbD_copyWords v x _ ⟨i / 32, by omega⟩ hi rfl, if_pos (List.mem_finRange _)]

/-- R39: the store of word w of F[n] at its offset. -/
theorem takeEvent_storeFWord {s : State} (hb : s.status.busy = false) (n : Fin 16) (w : Fin 14) (v : Word) :
    takeEvent (regStore (0x200 + 64 * n.val + 4 * w.val) v) s =
      .next { s with f := s.f.set n (setWord s.f[n] w.val v) } := by
  have ho : 0x200 + 64 * n.val + 4 * w.val = (RegLoc.fword n w).offset := rfl
  rw [ho, takeEvent_regStore_ne_cmd (offset_aligned _) (offset_lt _) (by rw [← ho]; omega), regAt_offset (by simp)]
  simp only [regWrite, whenIdle_idle hb]

/-- The host's stores of the words ws of v to F[n]. -/
def storeFWords (n : Fin 16) (v : FElem) (ws : List (Fin 14)) : List HostOp :=
  ws.map fun w : Fin 14 => regStore (0x200 + 64 * n.val + 4 * w.val) (getWord v w)

/-- R113: a statement `F[n] <- v` stores all fourteen words, in order. -/
theorem ops_setF (n : Fin 16) (v : FElem) : (Stmt.setF n v).ops = storeFWords n v (List.finRange 14) := rfl

/-- Stores of words of v to F[n], one step each. -/
theorem run_storeFWords (n : Fin 16) (v : FElem) (rest : List HostOp) (ws : List (Fin 14)) (s : State)
    (hb : s.status.busy = false) (hs : s.host.stopped = none)
    (hi : s.host.inbox = storeFWords n v ws ++ rest) :
    Host.Core.run core ws.length s =
      .next { s with f := s.f.set n (copyWords v s.f[n] ws), host := { s.host with inbox := rest } } := by
  induction ws generalizing s with
  | nil =>
    have hr : s.host.inbox = rest := hi
    subst hr
    simp [Host.Core.run, copyWords]
  | cons w ws ih =>
    have hstep : core.step s =
        .next { popInbox s with f := s.f.set n (setWord s.f[n] w.val (getWord v w)) } :=
      (step_event hs hi).trans (takeEvent_storeFWord (s := popInbox s) hb n w _)
    have hrest : (popInbox s).host.inbox = storeFWords n v ws ++ rest := congrArg List.tail hi
    simp only [List.length_cons, Host.Core.run, hstep]
    refine Eq.trans (ih _ hb hs hrest) ?_
    simp [copyWords]

/-- Settles O24: the fourteen words are all of F[n]. -/
theorem storedFRegister : Obligations.StoredFRegister := by
  intro s n v rest hb hs hi
  have h := run_storeFWords n v rest (List.finRange 14) s hb hs (by rw [hi, ops_setF])
  rwa [copyWords_all] at h

end Sys2Proof.Machine
end

section
/-! The permutation Keccak-f[1600] (R130 to R137): the rotation, the table of ρ+π, and why every step mapping, and so the
whole permutation, is injective. -/

namespace Sys2Proof.Machine

theorem lanes_ext {A B : Lanes} (h : ∀ k : Fin 25, A[k] = B[k]) : A = B := Vector.ext fun k hk => h ⟨k, hk⟩

/-! ## The rotation (R131, R337) -/

theorem rotl64_zero (x : Lane) : rotl64 x 0 = x := if_pos rfl

theorem getLsbD_rotl64 (x : Lane) {k i : Nat} (hk : k < 64) (hi : i < 64) :
    (rotl64 x k).getLsbD ((i + k) % 64) = x.getLsbD i := by
  by_cases h0 : k = 0
  · rw [h0, rotl64_zero, Nat.add_zero, Nat.mod_eq_of_lt hi]
  · rw [rotl64, if_neg h0, BitVec.getLsbD_or, BitVec.getLsbD_shiftLeft, BitVec.getLsbD_ushiftRight]
    by_cases hwrap : i + k < 64
    · have hout : x.getLsbD (64 - k + (i + k)) = false := BitVec.getLsbD_of_ge x _ (by omega)
      simp [Nat.mod_eq_of_lt hwrap, hwrap, hout]
    · have hmod : (i + k) % 64 = i + k - 64 := by omega
      have hlow : i + k - 64 < k := by omega
      have hback : 64 - k + (i + k - 64) = i := by omega
      simp [hmod, hlow, hback]

theorem rotl64_injective {k : Nat} (hk : k < 64) : Function.Injective (rotl64 · k) := by
  intro x y h
  refine BitVec.eq_of_getLsbD_eq fun i hi => ?_
  have hbit : (rotl64 x k).getLsbD ((i + k) % 64) = (rotl64 y k).getLsbD ((i + k) % 64) :=
    congrArg (fun z : Lane => z.getLsbD ((i + k) % 64)) h
  rwa [getLsbD_rotl64 x hk hi, getLsbD_rotl64 y hk hi] at hbit

/-! ## ρ+π (R133) -/

/-- A lane that no step of the loop writes keeps its value. -/
theorem rhoPiLoop_of_notMem (A : Lanes) (steps : List (Fin 25 × Nat)) (p : Lane × Lanes) {k : Fin 25}
    (hk : k ∉ steps.map Prod.fst) : (steps.foldl (rhoPiTurn A) p).2[k] = p.2[k] := by
  induction steps generalizing p with
  | nil => rfl
  | cons d steps ih =>
    obtain ⟨hd, hrest⟩ := not_or.1 (mt List.mem_cons.2 hk)
    rw [List.foldl_cons, ih _ hrest]
    exact Vector.getElem_set_ne d.1.isLt k.isLt (fun h => hd (Fin.ext h.symm))

/-- A loop that starts with lane k of A in t, and writes no lane twice, leaves in the lane of step i the rotated lane
of A that the step carries: lane k in the first step, and then the lane that the step before it wrote. -/
theorem rhoPiLoop_getElem (A : Lanes) (steps : List (Fin 25 × Nat)) (k : Fin 25) (B : Lanes)
    (hnd : (steps.map Prod.fst).Nodup) (i : Nat) (hi : i < steps.length) :
    (steps.foldl (rhoPiTurn A) (A[k], B)).2[(steps.map Prod.fst)[i]'(by simpa)] =
      rotl64 A[(k :: steps.map Prod.fst)[i]'(by simp; omega)] ((steps.map Prod.snd)[i]'(by simpa)) := by
  induction steps generalizing k B i with
  | nil => cases hi
  | cons d steps ih =>
    obtain ⟨hd, hrest⟩ := List.nodup_cons.1 hnd
    cases i with
    | zero => exact (rhoPiLoop_of_notMem A steps _ hd).trans (Vector.getElem_set_self _)
    | succ i => exact ih d.1 (B.set d.1 (rotl64 A[k] d.2)) hrest i (Nat.lt_of_succ_lt_succ hi)

theorem rhoPi_lane_zero (A : Lanes) : (rhoPi A)[0] = A[0] :=
  rhoPiLoop_of_notMem A rhoPiSteps (A[1], A) (k := 0) (by decide)

/-- The lane of A that step i of the loop carries (R133). -/
def rhoPiSource (i : Fin 24) : Fin 25 := ((1 : Fin 25) :: piLane)[i.val]'(Nat.lt_succ_of_lt i.isLt)

/-- A lane is carried by some step, unless it is lane 0. -/
theorem eq_zero_or_rhoPiSource (k : Fin 25) : k = 0 ∨ ∃ i, rhoPiSource i = k := by
  revert k; decide

theorem rhoRot_lt (i : Fin 24) : rhoRot[i]'i.isLt < 64 := by
  revert i; decide

theorem rhoPi_lane (A : Lanes) (i : Fin 24) :
    (rhoPi A)[piLane[i]'i.isLt] = rotl64 A[rhoPiSource i] (rhoRot[i]'i.isLt) :=
  rhoPiLoop_getElem A rhoPiSteps 1 A (by decide) i i.isLt

/-- Settles O52: the loop writes each lane but 0 once, so each step's lane is read off by itself. -/
theorem rhoPiIsTheTable : Obligations.RhoPiIsTheTable :=
  ⟨rotl64_zero, fun x _ _ hk hi => getLsbD_rotl64 x hk hi, fun A => ⟨rhoPi_lane_zero A, rhoPi_lane A⟩⟩

theorem rhoPi_injective : Function.Injective rhoPi := by
  intro A B h
  refine lanes_ext fun k => ?_
  rcases eq_zero_or_rhoPiSource k with rfl | ⟨i, rfl⟩
  · calc A[(0 : Fin 25)] = (rhoPi A)[0] := (rhoPi_lane_zero A).symm
      _ = B[(0 : Fin 25)] := by rw [h]; exact rhoPi_lane_zero B
  · exact rotl64_injective (rhoRot_lt i) (by simp only [← rhoPi_lane, h])

/-! ## χ and ι (R134, R135) -/

/-- χ on the bits of one row. -/
def chiRow (r : Fin 5 → Bool) (i : Fin 5) : Bool := r i ^^ (!r (i + 1) && r (i + 2))

/-- χ on a row has order 4. -/
theorem chiRow_iterate : ∀ r : Fin 5 → Bool, chiRow^[4] r = r := by decide

theorem chiRow_injective : Function.Injective chiRow :=
  Function.LeftInverse.injective (g := chiRow^[3]) chiRow_iterate

/-- The bits at position b of row j. -/
def rowBits (A : Lanes) (j : Fin 5) (b : Nat) (i : Fin 5) : Bool := (A[i.val + 5 * j.val]).getLsbD b

theorem rowBits_chi (A : Lanes) (j : Fin 5) {b : Nat} (hb : b < 64) : rowBits (chi A) j b = chiRow (rowBits A j b) := by
  funext i
  have hcol : (i.val + 5 * j.val) % 5 = i.val := by omega
  have hrow : (i.val + 5 * j.val) / 5 = j.val := by omega
  simp [rowBits, chiRow, chi, hcol, hrow, hb, Fin.val_add, ← Nat.mod_add_mod (i.val + 5 * j.val)]

theorem chi_injective : Function.Injective chi := by
  intro A B h
  refine lanes_ext fun k => BitVec.eq_of_getLsbD_eq fun b hb => ?_
  have hrow : rowBits A ⟨k / 5, by omega⟩ b = rowBits B ⟨k / 5, by omega⟩ b :=
    chiRow_injective (by rw [← rowBits_chi A _ hb, ← rowBits_chi B _ hb, h])
  simpa [rowBits, Nat.mod_add_div] using congrFun hrow ⟨k % 5, by omega⟩

theorem iota_injective (ir : Fin 24) : Function.Injective (iota · ir) := by
  have hinv : Function.LeftInverse (iota · ir) (iota · ir) := fun A => by simp [iota]
  exact hinv.injective

/-! ## θ (R132)

θ adds to each lane a value made of the column parities, so it is injective if its action on the parity bits is. That
action XORs each bit with two others at fixed distances; its repetitions by powers of two have the same form, which
makes one of them easy to invert. -/

section
variable {G : Type} [AddCommGroup G]

/-- Each bit XORed with two others, at the distances g and h. -/
def shiftMix (g h : G) (c : G → Bool) (x : G) : Bool := c x ^^ c (x + g) ^^ c (x + h)

/-- Mixing twice doubles the distances: the bits met twice cancel. -/
theorem shiftMix_shiftMix (g h : G) (c : G → Bool) :
    shiftMix g h (shiftMix g h c) = shiftMix (2 • g) (2 • h) c := by
  funext x
  have hcross : x + h + g = x + g + h := by abel
  have hg : x + 2 • g = x + g + g := by abel
  have hh : x + 2 • h = x + h + h := by abel
  simp only [shiftMix, hcross, hg, hh]
  generalize c x = b0, c (x + g) = b1, c (x + h) = b2, c (x + g + g) = b3, c (x + g + h) = b4, c (x + h + h) = b5
  decide +revert

theorem shiftMix_iterate (g h : G) (k : Nat) : (shiftMix g h)^[2 ^ k] = shiftMix (2 ^ k • g) (2 ^ k • h) := by
  induction k with
  | zero => simp
  | succ k ih =>
    rw [Nat.pow_succ, Nat.mul_two, Function.iterate_add, ih, ← Nat.mul_two]
    funext c
    rw [Function.comp_apply, shiftMix_shiftMix, Nat.mul_comm, mul_smul, mul_smul]

end

/-- The parity bits of the columns: bit b of C[i] at (i, b) (R132). -/
def columnBits (A : Lanes) (p : Fin 5 × Fin 64) : Bool := (thetaC A p.1).getLsbD p.2.val

/-- θ on the parity bits, as D is made of them: columns i + 4 and i + 1, the second one bit position below. -/
def parityMix : (Fin 5 × Fin 64 → Bool) → Fin 5 × Fin 64 → Bool := shiftMix (4, 0) (1, -1)

/-- After 64 turns of parity mixing the bit positions are back, and the columns are mixed with their neighbours. -/
theorem parityMix_iterate : parityMix^[64] = shiftMix (1, 0) (4, 0) :=
  (shiftMix_iterate _ _ 6).trans (congrArg₂ shiftMix (by decide) (by decide))

/-- Mixing neighbours has order 3. -/
theorem shiftMix_neighbours (c : Fin 5 × Fin 64 → Bool) : (shiftMix (1, 0) (4, 0))^[3] c = c := by
  have hsquare : (shiftMix (1, 0) (4, 0))^[2] c = shiftMix (2, 0) (3, 0) c := shiftMix_shiftMix _ _ c
  funext p
  rw [Function.iterate_succ_apply', hsquare]
  simp only [shiftMix, add_assoc, Prod.mk_add_mk, Fin.reduceAdd, add_zero]
  generalize c p = b0, c (p + (1, 0)) = b1, c (p + (2, 0)) = b2, c (p + (3, 0)) = b3, c (p + (4, 0)) = b4
  decide +revert

theorem parityMix_injective : Function.Injective parityMix := by
  have hmany : Function.Injective (parityMix^[63] ∘ parityMix) := by
    rw [← Function.iterate_succ, parityMix_iterate]
    exact Function.LeftInverse.injective (g := (shiftMix (1, 0) (4, 0))^[2]) shiftMix_neighbours
  exact hmany.of_comp

theorem getElem_theta (A : Lanes) (k : Fin 25) :
    (theta A)[k] = A[k] ^^^ thetaD A ⟨k.val % 5, Nat.mod_lt _ (by decide)⟩ := by
  simp [theta]

/-- The same lane XORed into each of five lanes remains once in their XOR. -/
theorem xor_five (a b c d e x : Lane) :
    a ^^^ x ^^^ (b ^^^ x) ^^^ (c ^^^ x) ^^^ (d ^^^ x) ^^^ (e ^^^ x) = a ^^^ b ^^^ c ^^^ d ^^^ e ^^^ x := by
  calc
    _ = a ^^^ b ^^^ c ^^^ d ^^^ e ^^^ x ^^^ (x ^^^ x) ^^^ (x ^^^ x) := by ac_rfl
    _ = _ := by simp

theorem thetaC_theta (A : Lanes) (i : Fin 5) : thetaC (theta A) i = thetaC A i ^^^ thetaD A i := by
  have hcol : ∀ (k : Nat) (hk : k < 25), k % 5 = i.val → (theta A)[k] = A[k] ^^^ thetaD A i := fun k hk hmod =>
    (getElem_theta A ⟨k, hk⟩).trans (congrArg (fun j => A[k] ^^^ thetaD A j) (Fin.ext hmod))
  simp only [thetaC]
  rw [hcol i.val _ (by omega), hcol (i.val + 5) _ (by omega), hcol (i.val + 10) _ (by omega),
    hcol (i.val + 15) _ (by omega), hcol (i.val + 20) _ (by omega), xor_five]

theorem columnBits_theta (A : Lanes) : columnBits (theta A) = parityMix (columnBits A) := by
  funext ⟨i, b⟩
  have hrot := getLsbD_rotl64 (thetaC A (i + 1)) (k := 1) (by decide) (b - 1).isLt
  have hb : ((b - 1).val + 1) % 64 = b.val := congrArg Fin.val (sub_add_cancel b 1)
  rw [hb] at hrot
  simp only [columnBits, parityMix, shiftMix, thetaC_theta, thetaD, BitVec.getLsbD_xor, hrot, Prod.mk_add_mk, add_zero,
    ← sub_eq_add_neg, Bool.xor_assoc]

theorem theta_injective : Function.Injective theta := by
  intro A B h
  have hcol : columnBits A = columnBits B := parityMix_injective (by rw [← columnBits_theta, ← columnBits_theta, h])
  have hC : thetaC A = thetaC B := by
    funext i
    exact BitVec.eq_of_getLsbD_eq fun b hb => congrFun hcol (i, ⟨b, hb⟩)
  have hD : thetaD A = thetaD B := by
    funext i
    simp only [thetaD, hC]
  refine lanes_ext fun k => ?_
  have hk : (theta A)[k] = (theta B)[k] := by rw [h]
  rwa [getElem_theta, getElem_theta, hD, BitVec.xor_left_inj] at hk

/-! ## The permutation (R136, R137) -/

theorem keccakRound_injective (ir : Fin 24) : Function.Injective (keccakRound · ir) :=
  (iota_injective ir).comp (chi_injective.comp (rhoPi_injective.comp theta_injective))

theorem rounds_injective (irs : List (Fin 24)) : Function.Injective fun A => irs.foldl keccakRound A := by
  induction irs with
  | nil => exact Function.injective_id
  | cons ir irs ih => exact ih.comp (keccakRound_injective ir)

/-- There are finitely many 25-lane states. -/
theorem finite_lanes : Finite Lanes :=
  Finite.of_injective (fun A (p : Fin 25 × Fin 64) => (A[p.1]).getLsbD p.2.val) fun A B h =>
    lanes_ext fun k => BitVec.eq_of_getLsbD_eq fun b hb => congrFun h (k, ⟨b, hb⟩)

/-- Settles O51: every step mapping of every round is injective, and there are finitely many states. -/
theorem keccakFIsBijective : Obligations.KeccakFIsBijective := by
  have hinj : Function.Injective keccakF := rounds_injective (List.finRange 24)
  have hfin := finite_lanes
  exact ⟨hinj, Finite.surjective_of_injective hinj⟩

end Sys2Proof.Machine
end

section
/-! Absorbing, squeezing and padding (R138 to R143, R210, R217): what the sponge does to strings given in pieces, what the
padding appends, and which lanes input and output touch. -/

namespace Sys2Proof.Machine

/-! ## Padding (R139, R210, R217) -/

/-- The padding depends on the length modulo the rate only. -/
theorem padTail_mod (n : Nat) : padTail (n % 136) = padTail n := by
  simp only [padTail, rateBytes, Nat.mod_mod]

theorem padTail_eq_nil_iff (n : Nat) : padTail n = [] ↔ n % 136 = 0 := by
  unfold padTail
  split
  · next h => exact ⟨fun _ => h, fun _ => rfl⟩
  · next h => exact ⟨fun he => by simp at he, fun h0 => absurd h0 h⟩

theorem pad_eq_self_iff (x : List Byte) : pad x = x ↔ x.length % 136 = 0 := by
  rw [pad, List.append_right_eq_self, padTail_eq_nil_iff]

/-- Whole blocks before a string do not change its padding. -/
theorem pad_append {x : List Byte} (hx : x.length % 136 = 0) (y : List Byte) : pad (x ++ y) = x ++ pad y := by
  have hmod : (x ++ y).length % 136 = y.length % 136 := by rw [List.length_append]; omega
  rw [pad, pad, ← padTail_mod, hmod, padTail_mod, List.append_assoc]

/-- R210: the padded input of SHAKE256, from the residue of its length. -/
theorem pad_shakeSep (x : List Byte) :
    pad (x ++ [shakeSep x.length]) = x ++ ([shakeSep (x.length % 136)] ++ padTail ((x.length % 136 + 1) % 136)) := by
  rw [pad, List.append_assoc, ← padTail_mod (x ++ _).length, List.length_append, List.length_singleton,
    ← Nat.mod_add_mod, shakeSep, shakeSep, Nat.mod_mod]

theorem pad_shakeSep_short {x : List Byte} (h : x.length % 136 < 134) :
    pad (x ++ [shakeSep x.length]) = x ++ [0x1F] ++ List.replicate (134 - x.length % 136) 0 ++ [0x80] := by
  rw [pad_shakeSep]
  generalize x.length % 136 = r at h
  have hsep : shakeSep r = 0x1F := if_neg (by simp only [rateBytes]; omega)
  have hzeros : rateBytes - (r + 1) % 136 % rateBytes - 1 = 134 - r := by simp only [rateBytes]; omega
  have htail : padTail ((r + 1) % 136) = List.replicate (134 - r) 0 ++ [0x80] := by
    rw [padTail, if_neg (by simp only [rateBytes]; omega), hzeros, zeroBytes]
  rw [hsep, htail]
  simp only [List.append_assoc]

/-- R183: bytepad to the rate gives whole blocks. -/
theorem length_bytepad_rate_mod (x : List Byte) : (bytepad x rateBytes).length % 136 = 0 := by
  rw [length_bytepad x (by decide), bytepadLen]
  exact Nat.mul_mod_right _ _

theorem length_cshakeBody_mod (x nm cs : List Byte) : (cshakeBody x nm cs).length % 136 = (x.length + 1) % 136 := by
  have h := length_bytepad_rate_mod (encodeString nm ++ encodeString cs)
  simp only [cshakeBody, List.length_append, List.length_singleton]
  omega

theorem length_kmacPayload_mod (k x : List Byte) : (kmacPayload k x).length % 136 = (x.length + 2) % 136 := by
  have h := length_bytepad_rate_mod (encodeString k)
  have hr : (rightEncode 0).length = 2 := by decide
  simp only [kmacPayload, List.length_append, hr]
  omega

/-- Settles O58, by the residues of the lengths modulo the rate. -/
theorem paddingCases : Obligations.PaddingCases := by
  refine ⟨pad_eq_self_iff, fun x h => ?_, fun x h => ?_, fun x h => pad_shakeSep_short h, fun x nm cs => ?_,
    fun k x cs => ?_⟩
  · rw [pad_shakeSep, h]; rfl
  · rw [pad_shakeSep, h]; rfl
  · rw [pad_eq_self_iff, length_cshakeBody_mod]; omega
  · have hp := length_kmacPayload_mod k x
    rw [pad_eq_self_iff, length_cshakeBody_mod]; omega

/-! ## Absorbing in pieces (R140, R147) -/

theorem absorb_append (A : Lanes) {x : List Byte} (hx : x.length % 136 = 0) (y : List Byte) :
    absorb A (x ++ y) = absorb (absorb A x) y := by
  have hlen : x.length = x.length / rateBytes * rateBytes := by simp only [rateBytes]; omega
  have hdiv : (x ++ y).length / rateBytes = x.length / rateBytes + y.length / rateBytes := by
    simp only [List.length_append, rateBytes]; omega
  rw [absorb, hdiv, absorbBlocks_append _ _ _ _ _ hlen]
  rfl

/-- Settles O53: whole blocks are absorbed first, and they do not change the padding of the rest. -/
theorem streamingAbsorb : Obligations.StreamingAbsorb := by
  intro A x y hx
  exact ⟨by rw [pad_append hx, absorb_append A hx], fun _ => (absorb_append A hx y).symm⟩

/-! ## Squeezing in pieces (R141, R148) -/

theorem squeezeBlocks_add (m k : Nat) (A : Lanes) :
    squeezeBlocks (m + k) A =
      ((squeezeBlocks m A).1 ++ (squeezeBlocks k (squeezeBlocks m A).2).1, (squeezeBlocks k (squeezeBlocks m A).2).2) := by
  induction m generalizing A with
  | zero => rw [Nat.zero_add]; rfl
  | succ m ih => rw [Nat.add_right_comm, squeezeBlocks, ih, squeezeBlocks, List.append_assoc]

/-- R141: a whole number of blocks is squeezed without a cut. -/
theorem squeeze_blocks (A : Lanes) (n : Nat) : squeeze A (1088 * n) = squeezeBlocks n A := by
  have hcount : squeezeCount (1088 * n) = n := by simp only [squeezeCount]; omega
  have htake : (squeezeBlocks n A).1.take (1088 * n / 8) = (squeezeBlocks n A).1 :=
    List.take_of_length_le (by rw [length_squeezeBlocks]; simp only [rateBytes]; omega)
  rw [squeeze, hcount, htake]

theorem squeeze_add (A : Lanes) (n L : Nat) :
    squeeze A (1088 * n + L) =
      ((squeeze A (1088 * n)).1 ++ (squeeze (squeeze A (1088 * n)).2 L).1, (squeeze (squeeze A (1088 * n)).2 L).2) := by
  have hcount : squeezeCount (1088 * n + L) = n + squeezeCount L := by simp only [squeezeCount]; omega
  have hbytes : (1088 * n + L) / 8 = (squeezeBlocks n A).1.length + L / 8 := by
    rw [length_squeezeBlocks]; simp only [rateBytes]; omega
  rw [squeeze_blocks, squeeze, hcount, squeezeBlocks_add, hbytes, List.take_length_add_append, squeeze]

/-- More blocks only extend the output. -/
theorem squeeze_isPrefix (A : Lanes) {L L' : Nat} (h : L ≤ L') : (squeeze A L).1 <+: (squeeze A L').1 := by
  obtain ⟨d, hd⟩ : ∃ d, squeezeCount L' = squeezeCount L + d :=
    Nat.exists_eq_add_of_le (by simp only [squeezeCount]; omega)
  have hlen : L / 8 ≤ (squeezeBlocks (squeezeCount L) A).1.length := by
    rw [length_squeezeBlocks]; simp only [squeezeCount, rateBytes]; omega
  have hcut : (squeeze A L).1 = (squeezeBlocks (squeezeCount L') A).1.take (L / 8) := by
    rw [hd, squeezeBlocks_add, List.take_append_of_le_length hlen, squeeze]
  rw [hcut, squeeze]
  exact List.take_prefix_take_left (by omega)

/-- Settles O54: the blocks of the two squeezes are the blocks of the one. -/
theorem squeezeContinues : Obligations.SqueezeContinues := by
  refine ⟨fun A n L _ => ?_, fun A L L' h _ _ => squeeze_isPrefix A h⟩
  rw [squeeze_add]
  exact ⟨rfl, rfl⟩

/-! ## The rate lanes (R138, R143) -/

theorem getElem_xorLanes_blockLanes (A : Lanes) (bk : List Byte) {k : Fin 25} (hk : 17 ≤ k.val) :
    (xorLanes A (blockLanes bk))[k] = A[k] := by
  simp [xorLanes, blockLanes, Nat.not_lt.2 hk]

theorem rateOut_congr {A B : Lanes} (h : ∀ k : Fin 25, k.val < 17 → A[k] = B[k]) : rateOut A = rateOut B := by
  have htake : A.toList.take 17 = B.toList.take 17 := by
    refine List.ext_getElem (by simp) fun i hi _ => ?_
    have hi' : i < 17 := by simp at hi; omega
    simpa using h ⟨i, by omega⟩ hi'
  rw [rateOut, htake, rateOut]

/-- R11: encoding the value of a byte string gives the string back. -/
theorem leBytes_leInt (x : List Byte) : leBytes (leInt x) x.length = x := by
  induction x with
  | nil => rfl
  | cons b x ih =>
    have hb := b.isLt
    have hlow : BitVec.ofNat 8 (b.toNat + 256 * leInt x) = b := by
      apply BitVec.eq_of_toNat_eq; rw [BitVec.toNat_ofNat]; omega
    have hhigh : (b.toNat + 256 * leInt x) / 256 = leInt x := by omega
    rw [List.length_cons, leInt, leBytes, hlow, hhigh, ih]

/-- R11, R138: a lane holds any eight bytes. -/
theorem leBytes_ofNat_leInt {x : List Byte} (hx : x.length = 8) : leBytes (BitVec.ofNat 64 (leInt x)).toNat 8 = x := by
  have hlt : leInt x < 2 ^ 64 := by have h := leInt_lt x; rw [hx] at h; omega
  rw [BitVec.toNat_ofNat, Nat.mod_eq_of_lt hlt, ← hx, leBytes_leInt]

/-- A string is its consecutive chunks. -/
theorem flatMap_chunks {α : Type} (x : List α) (c n : Nat) :
    ((List.range n).flatMap fun k => (x.drop (c * k)).take c) = x.take (c * n) := by
  induction n with
  | zero => simp
  | succ n ih => rw [List.range_succ, List.flatMap_append, ih, List.flatMap_singleton, Nat.mul_succ, List.take_add]

theorem take_toList_blockLanes (bk : List Byte) :
    (blockLanes bk).toList.take 17 =
      (List.range 17).map fun k => BitVec.ofNat 64 (leInt ((bk.drop (8 * k)).take 8)) := by
  refine List.ext_getElem (by simp) fun i hi _ => ?_
  have hi' : i < 17 := by simp at hi; omega
  simp [blockLanes, hi']

/-- R138, R143: the rate lanes of a block give the block back. -/
theorem rateOut_blockLanes {bk : List Byte} (h : bk.length = 136) : rateOut (blockLanes bk) = bk := by
  have hchunk : ∀ k ∈ List.range 17, leBytes (BitVec.ofNat 64 (leInt ((bk.drop (8 * k)).take 8))).toNat 8 =
      (bk.drop (8 * k)).take 8 := by
    intro k hk
    have hk' := List.mem_range.1 hk
    exact leBytes_ofNat_leInt (by rw [List.length_take, List.length_drop]; omega)
  rw [rateOut, take_toList_blockLanes, List.flatMap_map, List.flatMap_congr hchunk, flatMap_chunks,
    List.take_of_length_le (by omega)]

/-- Settles O55: lanes 17 to 24 of a block are 0, output reads lanes 0 to 16, and a block's lanes hold its bytes. -/
theorem capacityNeverTouched : Obligations.CapacityNeverTouched := by
  refine ⟨fun A bk k hk => getElem_xorLanes_blockLanes A bk hk, fun A B h => rateOut_congr h, fun bk i hi h => ?_⟩
  rw [rateOut_blockLanes h, List.getElem?_eq_getElem hi]

end Sys2Proof.Machine
end

section
/-! The commands of the sponge and SHAKE256 (R144 to R149, R214): result, completion and error order. -/

namespace Sys2Proof.Machine

/-! ## The checks, by the rules' own conditions (R13, R76, R77) -/

theorem require_inBounds {a n : Nat} (h : InDmem a n) (c : ErrCode) (s : State) (k : Unit → Result) :
    require (inBounds a n) c s k = k () := by
  rw [(inBounds_iff a n).2 h, require_true]

theorem require_not_inBounds {a n : Nat} (h : ¬ InDmem a n) (c : ErrCode) (s : State) (k : Unit → Result) :
    require (inBounds a n) c s k = .next (failed s c) := by
  rw [Bool.eq_false_iff.2 (mt (inBounds_iff a n).1 h), require_false, errorComplete_eq_failed]

theorem require_disjoint {o m a n : Nat} (h : ¬ Overlap o m a n) (c : ErrCode) (s : State) (k : Unit → Result) :
    require (!overlaps o m a n) c s k = k () := by
  rw [Bool.eq_false_iff.2 (mt (overlaps_iff o m a n).1 h), Bool.not_false, require_true]

theorem require_not_disjoint {o m a n : Nat} (h : Overlap o m a n) (c : ErrCode) (s : State) (k : Unit → Result) :
    require (!overlaps o m a n) c s k = .next (failed s c) := by
  rw [(overlaps_iff o m a n).2 h, Bool.not_true, require_false, errorComplete_eq_failed]

theorem require_beq {m n : Nat} (h : m = n) (c : ErrCode) (s : State) (k : Unit → Result) :
    require (m == n) c s k = k () := by
  rw [beq_iff_eq.2 h, require_true]

theorem require_not_beq {m n : Nat} (h : m ≠ n) (c : ErrCode) (s : State) (k : Unit → Result) :
    require (m == n) c s k = .next (failed s c) := by
  rw [beq_false_of_ne h, require_false, errorComplete_eq_failed]

/-! ## KECCAKF and SINIT (R144, R145) -/

theorem getElem_zeroLanes (k : Fin 25) : zeroLanes[k] = 0 := by simp [zeroLanes]

/-- Settles O38: neither command checks anything. -/
theorem keccakfAndSinit : Obligations.KeccakfAndSinit :=
  ⟨by decide, by decide, fun s =>
    ⟨result_eq_succeeded s 0 (keccakF s.lanes) s.f s.dmem, zeroLanes, getElem_zeroLanes,
      result_eq_succeeded s 0 zeroLanes s.f s.dmem⟩⟩

/-! ## ABSORB and ABSORBF (R146, R147) -/

/-- Settles O39: the checks in the order of the rule, then the read. -/
theorem absorbMeaning : Obligations.AbsorbMeaning := by
  refine ⟨by decide, fun s => ⟨fun hn => ?_, fun hn hb => ?_, fun y hn hb hl hy => ?_⟩⟩ <;>
    simp only [exec, execAbsorb]
  · exact require_not_beq hn _ _ _
  · rw [require_beq hn, require_not_inBounds hb]
  · rw [require_beq hn, require_inBounds hb, memRead_of_holds _ hl hy, result_eq_succeeded]

/-- Settles O40: the one check, then the read. -/
theorem absorbfMeaning : Obligations.AbsorbfMeaning := by
  refine ⟨by decide, fun s => ⟨fun hb => ?_, fun y hb hl hy => ?_⟩⟩ <;> simp only [exec, execAbsorbf]
  · exact require_not_inBounds hb _ _ _
  · rw [require_inBounds hb, memRead_of_holds _ hl hy, result_eq_succeeded]

/-! ## SQUEEZE (R148) -/

/-- Settles O41: the checks in the order of the rule; the output is written at ARG6. -/
theorem squeezeMeaning : Obligations.SqueezeMeaning := by
  refine ⟨by decide, fun s => ⟨fun hn => ?_, fun hn hb => ?_, fun hn hb =>
    ⟨_, wroteAt_setBytes _ _ _, length_squeeze _ _, ?_⟩⟩⟩ <;> simp only [exec, execSqueeze]
  · exact require_not_beq hn _ _ _
  · rw [require_beq hn, require_not_inBounds hb]
  · rw [require_beq hn, require_inBounds hb]
    exact result_eq_succeeded _ _ _ _ _

/-! ## The one-shot commands with one input region (R149, R214) -/

section
variable {f : List Byte → Nat → List Byte} {s : State}

theorem oneShot1_badBitlen (hL : s.argNat 7 % 8 ≠ 0) : oneShot1 f s = .next (failed s .badBitlen) := by
  simp only [oneShot1]
  exact require_not_beq hL _ _ _

theorem oneShot1_outOfBounds (hL : s.argNat 7 % 8 = 0)
    (hb : ¬ InDmem (s.argNat 0) (s.argNat 1) ∨ ¬ InDmem (s.argNat 6) (s.argNat 7 / 8)) :
    oneShot1 f s = .next (failed s .outOfBounds) := by
  simp only [oneShot1]
  rw [require_beq hL]
  by_cases hin : InDmem (s.argNat 0) (s.argNat 1)
  · rw [require_inBounds hin, require_not_inBounds (hb.resolve_left (not_not_intro hin))]
  · exact require_not_inBounds hin _ _ _

theorem oneShot1_overlap (hL : s.argNat 7 % 8 = 0) (hin : InDmem (s.argNat 0) (s.argNat 1))
    (hout : InDmem (s.argNat 6) (s.argNat 7 / 8))
    (ho : Overlap (s.argNat 6) (s.argNat 7 / 8) (s.argNat 0) (s.argNat 1)) :
    oneShot1 f s = .next (failed s .overlap) := by
  simp only [oneShot1]
  rw [require_beq hL, require_inBounds hin, require_inBounds hout, require_not_disjoint ho]

theorem oneShot1_succeeds {x : List Byte} (hL : s.argNat 7 % 8 = 0) (hin : InDmem (s.argNat 0) (s.argNat 1))
    (hout : InDmem (s.argNat 6) (s.argNat 7 / 8))
    (ho : ¬ Overlap (s.argNat 6) (s.argNat 7 / 8) (s.argNat 0) (s.argNat 1))
    (hl : x.length = s.argNat 1) (hx : HoldsBytes s.dmem (s.argNat 0) x) :
    oneShot1 f s = .next (succeeded s (s.argNat 7 / 8) s.lanes s.f
      (Mem.setBytes s.dmem (s.argNat 6) (f x (s.argNat 7)))) := by
  simp only [oneShot1]
  rw [require_beq hL, require_inBounds hin, require_inBounds hout, require_disjoint ho, memRead_of_holds _ hl hx]
  exact result_eq_succeeded _ _ _ _ _

end

/-- The two commands are `oneShot1` of their functions, whose outputs are L/8 bytes long. -/
theorem exec_spongeOrShake {s : State} {i : Instr} {out : List Byte → List Byte}
    (h : (i = .sponge ∧ out = fun x => sponge x (s.argNat 7)) ∨
      (i = .shake256 ∧ out = fun x => shake256 x (s.argNat 7))) :
    ∃ f : List Byte → Nat → List Byte, exec i s = oneShot1 f s ∧ (∀ x, out x = f x (s.argNat 7)) ∧
      ∀ x L, (f x L).length = L / 8 := by
  rcases h with ⟨rfl, rfl⟩ | ⟨rfl, rfl⟩
  · exact ⟨sponge, rfl, fun _ => rfl, length_sponge⟩
  · exact ⟨shake256, rfl, fun _ => rfl, length_shake256⟩

/-- Settles O42: both commands are `oneShot1`, whose checks come in the order of the rule. -/
theorem spongeAndShakeMeaning : Obligations.SpongeAndShakeMeaning := by
  refine ⟨by decide, by decide, fun s i out h => ?_⟩
  obtain ⟨f, hexec, hout, hlen⟩ := exec_spongeOrShake h
  rw [hexec]
  refine ⟨oneShot1_badBitlen, oneShot1_outOfBounds, oneShot1_overlap, fun x hL hin hregion ho hl hx => ?_⟩
  rw [hout x]
  exact ⟨_, wroteAt_setBytes _ _ _, hlen _ _, oneShot1_succeeds hL hin hregion ho hl hx⟩

end Sys2Proof.Machine
end

section
/-! The integer encoders and bytepad (R180, R181, R183): the count of octets, and the number of zeros. -/

namespace Sys2Proof.Machine

/-! ## The count of octets (R180) -/

/-- R9: bitlen is the least exponent of a power of two above n. -/
theorem bitlen_le_iff {n b : Nat} : bitlen n ≤ b ↔ n < 2 ^ b := by
  by_cases h : n = 0
  · simp [bitlen, h]
  · rw [bitlen, if_neg h, Nat.succ_le_iff, Nat.log2_lt h]

theorem octets_pos (n : Nat) : 1 ≤ octets n := Nat.le_max_left _ _

/-- R180: the count is the minimal number of octets, at least 1. -/
theorem octets_le_iff {n k : Nat} (hk : 1 ≤ k) : octets n ≤ k ↔ n < 256 ^ k := by
  have hbits : octets n ≤ k ↔ bitlen n ≤ 8 * k := by simp only [octets]; omega
  rw [hbits, bitlen_le_iff, pow_256_eq]

theorem lt_pow_octets (n : Nat) : n < 256 ^ octets n := (octets_le_iff (octets_pos n)).1 (Nat.le_refl _)

theorem octets_minimal (n : Nat) : octets n = 1 ∨ 256 ^ (octets n - 1) ≤ n := by
  by_cases h1 : octets n = 1
  · exact .inl h1
  · have hpos := octets_pos n
    have hfewer : ¬ octets n ≤ octets n - 1 := by omega
    exact .inr (Nat.le_of_not_lt (mt (octets_le_iff (by omega)).2 hfewer))

/-- R11: the big-endian octets of n are those of n. -/
theorem leInt_reverse_beBytes {n k : Nat} (h : n < 256 ^ k) : leInt (beBytes n k).reverse = n := by
  rw [beBytes, List.reverse_reverse, leInt_leBytes, Nat.mod_eq_of_lt h]

/-- Settles O56: the count is `octets n`, at most 255 because n < 2^2040 = 256^255. -/
theorem integerEncoders : Obligations.IntegerEncoders := by
  intro n hn
  have hexp : 2040 = 8 * 255 := rfl
  rw [hexp, ← pow_256_eq] at hn
  have hle : octets n ≤ 255 := (octets_le_iff (by decide)).2 hn
  exact ⟨octets n, beBytes n (octets n), rfl, rfl, length_beBytes _ _, octets_pos n, hle,
    leInt_reverse_beBytes (lt_pow_octets n), octets_minimal n⟩

/-! ## The zeros of bytepad (R183) -/

/-- R183: the number of zeros that bytepad appends to a string of length n. -/
def padCount (w n : Nat) : Nat := (w - n % w) % w

theorem bytepad_eq (x : List Byte) (w : Nat) :
    bytepad x w = leftEncode w ++ x ++ List.replicate (padCount w (leftEncode w ++ x).length) 0 := rfl

theorem dvd_add_padCount (n : Nat) {w : Nat} (hw : 0 < w) : w ∣ n + padCount w n :=
  ⟨_, roundUp_eq n w hw⟩

/-- Two numbers of zeros that fill a multiple of w differ by a multiple of w, and `padCount` is below w. -/
theorem padCount_le {w n t : Nat} (hw : 0 < w) (h : w ∣ n + t) : padCount w n ≤ t := by
  have hdvd : w ∣ padCount w n - t := by
    simpa only [Nat.add_sub_add_left] using Nat.dvd_sub (dvd_add_padCount n hw) h
  have hlt : padCount w n < w := Nat.mod_lt _ hw
  exact Nat.sub_eq_zero_iff_le.1 (Nat.eq_zero_of_dvd_of_lt hdvd (by omega))

/-- Settles O57. -/
theorem bytepadIsShortest : Obligations.BytepadIsShortest := by
  intro x w hw
  refine ⟨padCount w (leftEncode w ++ x).length, bytepad_eq x w, ?_, fun t' h => padCount_le hw h⟩
  rw [length_bytepad x hw]
  exact Nat.dvd_mul_right _ _

end Sys2Proof.Machine
end

section
/-! The commands of the SP 800-185 encoder (R185 to R188): result, completion and error order. -/

namespace Sys2Proof.Machine

/-! ## LENC and RENC (R185, R186) -/

/-- R184: n = ARG1·2^32 + ARG0 is a 64-bit value. -/
theorem arg64_lt (s : State) : s.arg64 < 2 ^ 64 := by
  have h0 : s.argNat 0 < 2 ^ 32 := s.arg[0].isLt
  have h1 : s.argNat 1 < 2 ^ 32 := s.arg[1].isLt
  rw [State.arg64]
  omega

/-- R184: so the range check of LENC and RENC never fails. -/
theorem arg64_lt_encodingLimit (s : State) : s.arg64 < encodingLimit := by
  have hpow : 2 ^ 64 ≤ encodingLimit := by unfold encodingLimit; gcongr <;> decide
  exact Nat.lt_of_lt_of_le (arg64_lt s) hpow

theorem octets_arg64_le (s : State) : octets s.arg64 ≤ 8 := (octets_le_iff (by decide)).2 (arg64_lt s)

section
variable {enc : Nat → List Byte} {s : State}

theorem encodeInt_outOfBounds (hb : ¬ InDmem (s.argNat 6) (enc s.arg64).length) :
    encodeInt enc s = .next (failed s .outOfBounds) := by
  simp only [encodeInt]
  rw [decide_eq_true (arg64_lt_encodingLimit s), require_true, require_not_inBounds hb]

theorem encodeInt_succeeds (hb : InDmem (s.argNat 6) (enc s.arg64).length) :
    encodeInt enc s = .next (succeeded s (enc s.arg64).length s.lanes s.f
      (Mem.setBytes s.dmem (s.argNat 6) (enc s.arg64))) := by
  simp only [encodeInt]
  rw [decide_eq_true (arg64_lt_encodingLimit s), require_true, require_inBounds hb]
  exact result_eq_succeeded _ _ _ _ _

end

/-- The two commands are `encodeInt` of their encoders, whose outputs are a count and the octets of n. -/
theorem exec_lencOrRenc {s : State} {i : Instr} {e : List Byte}
    (h : (i = .lenc ∧ e = leftEncode (s.argNat 1 * 2 ^ 32 + s.argNat 0)) ∨
      (i = .renc ∧ e = rightEncode (s.argNat 1 * 2 ^ 32 + s.argNat 0))) :
    ∃ enc : Nat → List Byte, exec i s = encodeInt enc s ∧ e = enc s.arg64 ∧ e.length = octets s.arg64 + 1 := by
  rcases h with ⟨rfl, rfl⟩ | ⟨rfl, rfl⟩
  · exact ⟨leftEncode, rfl, rfl, length_leftEncode _⟩
  · exact ⟨rightEncode, rfl, rfl, length_rightEncode _⟩

/-- Settles O44: both commands are `encodeInt`, with 1 to 8 octets. -/
theorem lencAndRencMeaning : Obligations.LencAndRencMeaning := by
  refine ⟨by decide, by decide, fun s i e h => ?_⟩
  obtain ⟨enc, hexec, rfl, hlen⟩ := exec_lencOrRenc h
  have hpos := octets_pos s.arg64
  have hle := octets_arg64_le s
  rw [hexec]
  exact ⟨by omega, by omega, encodeInt_outOfBounds, fun hb => ⟨_, wroteAt_setBytes _ _ _, encodeInt_succeeds hb⟩⟩

/-! ## The commands with an input region and an output region (R187, R188) -/

section
variable {m : Nat} {f : List Byte → List Byte} {s : State}

theorem encodeRegion_outOfBounds (hb : ¬ InDmem (s.argNat 0) (s.argNat 1) ∨ ¬ InDmem (s.argNat 6) m) :
    encodeRegion m f s = .next (failed s .outOfBounds) := by
  simp only [encodeRegion]
  by_cases hin : InDmem (s.argNat 0) (s.argNat 1)
  · rw [require_inBounds hin, require_not_inBounds (hb.resolve_left (not_not_intro hin))]
  · exact require_not_inBounds hin _ _ _

theorem encodeRegion_overlap (hin : InDmem (s.argNat 0) (s.argNat 1)) (hout : InDmem (s.argNat 6) m)
    (ho : Overlap (s.argNat 6) m (s.argNat 0) (s.argNat 1)) : encodeRegion m f s = .next (failed s .overlap) := by
  simp only [encodeRegion]
  rw [require_inBounds hin, require_inBounds hout, require_not_disjoint ho]

theorem encodeRegion_succeeds {x : List Byte} (hin : InDmem (s.argNat 0) (s.argNat 1)) (hout : InDmem (s.argNat 6) m)
    (ho : ¬ Overlap (s.argNat 6) m (s.argNat 0) (s.argNat 1))
    (hl : x.length = s.argNat 1) (hx : HoldsBytes s.dmem (s.argNat 0) x) :
    encodeRegion m f s = .next (succeeded s m s.lanes s.f (Mem.setBytes s.dmem (s.argNat 6) (f x))) := by
  simp only [encodeRegion]
  rw [require_inBounds hin, require_inBounds hout, require_disjoint ho, memRead_of_holds _ hl hx]
  exact result_eq_succeeded _ _ _ _ _

end

theorem exec_encstr (s : State) : exec .encstr s = encodeRegion (encodeStringLen (s.argNat 1)) encodeString s := rfl

/-- Settles O45: ENCSTR is `encodeRegion`, whose checks come in the order of the rule. -/
theorem encstrMeaning : Obligations.EncstrMeaning := by
  refine ⟨by decide, fun s m hm => ?_⟩
  subst hm
  rw [exec_encstr]
  exact ⟨encodeRegion_outOfBounds, encodeRegion_overlap, fun x hin hout ho hl hx =>
    ⟨_, wroteAt_setBytes _ _ _, encodeRegion_succeeds hin hout ho hl hx⟩⟩

theorem exec_bytepad_badWidth {s : State} (hw : s.argNat 2 = 0) : exec .bytepad s = .next (failed s .badWidth) := by
  simp only [exec, execBytepad]
  rw [decide_eq_false (by omega), require_false, errorComplete_eq_failed]

theorem exec_bytepad {s : State} (hw : 0 < s.argNat 2) :
    exec .bytepad s =
      encodeRegion (bytepadLen (s.argNat 2) (s.argNat 1)) (fun x => bytepad x (s.argNat 2)) s := by
  simp only [exec, execBytepad]
  rw [decide_eq_true hw, require_true]

/-- Settles O46: BYTEPAD is `encodeRegion` after the check of w, and its zeros fill the length m. -/
theorem bytepadMeaning : Obligations.BytepadMeaning := by
  refine ⟨by decide, fun s w m hw hm => ?_⟩
  subst hw hm
  refine ⟨exec_bytepad_badWidth, fun hw hb => ?_, fun hw hin hout ho => ?_, fun x hw hin hout ho hl hx => ?_⟩ <;>
    rw [exec_bytepad hw]
  · exact encodeRegion_outOfBounds hb
  · exact encodeRegion_overlap hin hout ho
  · have hlen : (bytepad x (s.argNat 2)).length = bytepadLen (s.argNat 2) (s.argNat 1) := by
      rw [length_bytepad x hw, hl]
    refine ⟨Mem.setBytes s.dmem (s.argNat 6) (bytepad x (s.argNat 2)),
      padCount (s.argNat 2) (leftEncode (s.argNat 2) ++ x).length, ?_⟩
    rw [← bytepad_eq]
    exact ⟨wroteAt_setBytes _ _ _, hlen, encodeRegion_succeeds hin hout ho hl hx⟩

end Sys2Proof.Machine
end

section
/-! The one-shot commands CSHAKE256 and KMACXOF256 (R215, R216): result, completion and error order. -/

namespace Sys2Proof.Machine

/-! ## Checks in a row -/

/-- A check after which the command ends with the same code ends it with that code, passed or not. -/
theorem require_eq_failed {cond : Bool} {c : ErrCode} {s : State} {k : Unit → Result}
    (h : cond = true → k () = .next (failed s c)) : require cond c s k = .next (failed s c) :=
  require_elim (P := (· = .next (failed s c))) (fun _ => by rw [errorComplete_eq_failed]) h

/-- R77 for three input regions: the check of `oneShot3` passes exactly if the output meets none of them. -/
theorem disjoint3_iff {o m a₀ n₀ a₁ n₁ a₂ n₂ : Nat} :
    (!overlaps o m a₀ n₀ && !overlaps o m a₁ n₁ && !overlaps o m a₂ n₂) = true ↔
      ¬ Overlap o m a₀ n₀ ∧ ¬ Overlap o m a₁ n₁ ∧ ¬ Overlap o m a₂ n₂ := by
  simp only [← overlaps_iff, Bool.and_eq_true, Bool.not_eq_true', Bool.not_eq_true, and_assoc]

/-! ## The one-shot commands with three input regions (R215, R216) -/

section
variable {f : List Byte → List Byte → List Byte → Nat → List Byte} {s : State}

theorem oneShot3_badBitlen (hL : s.argNat 7 % 8 ≠ 0) : oneShot3 f s = .next (failed s .badBitlen) := by
  simp only [oneShot3]
  exact require_not_beq hL _ _ _

theorem oneShot3_outOfBounds (hL : s.argNat 7 % 8 = 0)
    (hb : ¬ InDmem (s.argNat 0) (s.argNat 1) ∨ ¬ InDmem (s.argNat 2) (s.argNat 3) ∨
      ¬ InDmem (s.argNat 4) (s.argNat 5) ∨ ¬ InDmem (s.argNat 6) (s.argNat 7 / 8)) :
    oneShot3 f s = .next (failed s .outOfBounds) := by
  simp only [oneShot3]
  rw [require_beq hL]
  refine require_eq_failed fun h0 => require_eq_failed fun h1 => require_eq_failed fun h2 =>
    require_not_inBounds ?_ _ _ _
  rw [inBounds_iff] at h0 h1 h2
  exact ((hb.resolve_left (not_not_intro h0)).resolve_left (not_not_intro h1)).resolve_left (not_not_intro h2)

variable (hL : s.argNat 7 % 8 = 0) (h0 : InDmem (s.argNat 0) (s.argNat 1)) (h1 : InDmem (s.argNat 2) (s.argNat 3))
  (h2 : InDmem (s.argNat 4) (s.argNat 5)) (hout : InDmem (s.argNat 6) (s.argNat 7 / 8))
include hL h0 h1 h2 hout

theorem oneShot3_overlap
    (ho : Overlap (s.argNat 6) (s.argNat 7 / 8) (s.argNat 0) (s.argNat 1) ∨
      Overlap (s.argNat 6) (s.argNat 7 / 8) (s.argNat 2) (s.argNat 3) ∨
      Overlap (s.argNat 6) (s.argNat 7 / 8) (s.argNat 4) (s.argNat 5)) :
    oneShot3 f s = .next (failed s .overlap) := by
  simp only [oneShot3]
  rw [require_beq hL, require_inBounds h0, require_inBounds h1, require_inBounds h2, require_inBounds hout]
  refine require_eq_failed fun hd => ?_
  obtain ⟨d0, d1, d2⟩ := disjoint3_iff.1 hd
  exact absurd ho (not_or_intro d0 (not_or_intro d1 d2))

theorem oneShot3_succeeds {x y z : List Byte}
    (d0 : ¬ Overlap (s.argNat 6) (s.argNat 7 / 8) (s.argNat 0) (s.argNat 1))
    (d1 : ¬ Overlap (s.argNat 6) (s.argNat 7 / 8) (s.argNat 2) (s.argNat 3))
    (d2 : ¬ Overlap (s.argNat 6) (s.argNat 7 / 8) (s.argNat 4) (s.argNat 5))
    (hlx : x.length = s.argNat 1) (hx : HoldsBytes s.dmem (s.argNat 0) x)
    (hly : y.length = s.argNat 3) (hy : HoldsBytes s.dmem (s.argNat 2) y)
    (hlz : z.length = s.argNat 5) (hz : HoldsBytes s.dmem (s.argNat 4) z) :
    oneShot3 f s = .next (succeeded s (s.argNat 7 / 8) s.lanes s.f
      (Mem.setBytes s.dmem (s.argNat 6) (f x y z (s.argNat 7)))) := by
  simp only [oneShot3]
  rw [require_beq hL, require_inBounds h0, require_inBounds h1, require_inBounds h2, require_inBounds hout,
    disjoint3_iff.2 ⟨d0, d1, d2⟩, require_true, memRead_of_holds _ hlx hx, memRead_of_holds _ hly hy,
    memRead_of_holds _ hlz hz]
  exact result_eq_succeeded _ _ _ _ _

end

/-- The two commands are `oneShot3` of their functions, whose outputs are L/8 bytes long. -/
theorem exec_cshakeOrKmac {s : State} {i : Instr} {out : List Byte → List Byte → List Byte → List Byte}
    (h : (i = .cshake256 ∧ out = fun x nm cs => cshake256 x (s.argNat 7) nm cs) ∨
      (i = .kmacxof256 ∧ out = fun k x cs => kmacxof256 k x (s.argNat 7) cs)) :
    ∃ f : List Byte → List Byte → List Byte → Nat → List Byte, exec i s = oneShot3 f s ∧
      (∀ x y z, out x y z = f x y z (s.argNat 7)) ∧ ∀ x y z L, (f x y z L).length = L / 8 := by
  rcases h with ⟨rfl, rfl⟩ | ⟨rfl, rfl⟩
  · exact ⟨fun x nm cs L => cshake256 x L nm cs, rfl, fun _ _ _ => rfl, fun _ _ _ _ => length_cshake256 _ _ _ _⟩
  · exact ⟨fun k x cs L => kmacxof256 k x L cs, rfl, fun _ _ _ => rfl, fun _ _ _ _ => length_kmacxof256 _ _ _ _⟩

/-- Settles O43: both commands are `oneShot3`, whose checks come in the order of the rule. -/
theorem cshakeAndKmacMeaning : Obligations.CshakeAndKmacMeaning := by
  refine ⟨by decide, by decide, fun s i out h => ?_⟩
  obtain ⟨f, hexec, hout, hlen⟩ := exec_cshakeOrKmac h
  rw [hexec]
  refine ⟨oneShot3_badBitlen, oneShot3_outOfBounds, oneShot3_overlap,
    fun x y z hL h0 h1 h2 hregion d0 d1 d2 hlx hx hly hy hlz hz => ?_⟩
  rw [hout x y z]
  exact ⟨_, wroteAt_setBytes _ _ _, hlen _ _ _ _,
    oneShot3_succeeds hL h0 h1 h2 hregion d0 d1 d2 hlx hx hly hy hlz hz⟩

end Sys2Proof.Machine
end

section
/-! Ed448-Goldilocks (R240 to R249): the field operations, the addition law, and scalar multiplication by the bits of
the scalar. -/

namespace Sys2Proof.Machine

/-! ## The field (R241) -/

theorem one_lt_fieldPrime : 1 < fieldPrime := by decide +kernel

/-- R241: on canonical values the model's subtraction is the difference mod p. -/
theorem fieldSub_eq_emod {a b : Nat} (hb : b < fieldPrime) :
    (fieldSub a b : Int) = ((a : Int) - (b : Int)) % (fieldPrime : Int) := by
  have hpos : (a : Int) + ((fieldPrime : Int) - (b : Int)) = (a : Int) - (b : Int) + (fieldPrime : Int) := by ring
  rw [fieldSub, Int.natCast_emod, Int.natCast_add, Int.natCast_sub hb.le, hpos, Int.add_emod_right]

theorem fieldAdd_comm (a b : Nat) : fieldAdd a b = fieldAdd b a := by rw [fieldAdd, Nat.add_comm, fieldAdd]

theorem fieldMul_comm (a b : Nat) : fieldMul a b = fieldMul b a := by rw [fieldMul, Nat.mul_comm, fieldMul]

@[simp] theorem fieldMul_zero (a : Nat) : fieldMul a 0 = 0 := by rw [fieldMul, Nat.mul_zero, Nat.zero_mod]

theorem fieldAdd_zero {a : Nat} (ha : a < fieldPrime) : fieldAdd a 0 = a := by
  rw [fieldAdd, Nat.add_zero, Nat.mod_eq_of_lt ha]

theorem fieldSub_zero {a : Nat} (ha : a < fieldPrime) : fieldSub a 0 = a := by
  rw [fieldSub, Nat.sub_zero, Nat.add_mod_right, Nat.mod_eq_of_lt ha]

theorem fieldMul_one {a : Nat} (ha : a < fieldPrime) : fieldMul a 1 = a := by
  rw [fieldMul, Nat.mul_one, Nat.mod_eq_of_lt ha]

/-- For every exponent, so that no proof computes the power 1^(p-2). -/
theorem one_pow_mod_fieldPrime (e : Nat) : 1 ^ e % fieldPrime = 1 := by
  rw [Nat.one_pow, Nat.mod_eq_of_lt one_lt_fieldPrime]

theorem fieldInv_one : fieldInv 1 = 1 := (fieldInv_eq 1).trans (one_pow_mod_fieldPrime _)

theorem fieldDiv_one {a : Nat} (ha : a < fieldPrime) : fieldDiv a 1 = a := by
  rw [fieldDiv, fieldInv_one, fieldMul_one ha]

/-! ## The addition law (R244, R246, R247) -/

theorem canonical_iff {v : Nat} : canonical v = true ↔ v < fieldPrime := decide_eq_true_iff

theorem Point.inRange_iff {q : Point} : q.inRange = true ↔ q.x < fieldPrime ∧ q.y < fieldPrime := by
  simp only [Point.inRange, Bool.and_eq_true, canonical_iff]

/-- R245: a point on the curve has canonical coordinates. -/
theorem inRange_of_onCurve {q : Point} (h : onCurve q = true) : q.inRange = true := (Bool.and_eq_true_iff.1 h).1

theorem addPoints_eq_some {q1 q2 : Point} (h : zeroDenominator q1 q2 = false) :
    addPoints q1 q2 = some (addFormula q1 q2) := by
  rw [addPoints, h]
  rfl

/-- R246: every sum is canonical. -/
theorem addPoints_inRange {q1 q2 q3 : Point} (h : addPoints q1 q2 = some q3) : q3.inRange = true := by
  unfold addPoints at h
  split at h
  · cases h
  · rw [← Option.some.inj h]
    exact Point.inRange_iff.2 ⟨fieldDiv_lt _ _, fieldDiv_lt _ _⟩

/-- R246: t is one product mod p. -/
theorem addT_eq (q1 q2 : Point) : addT q1 q2 = curveD * (q1.x * q2.x) * (q1.y * q2.y) % fieldPrime := by
  simp only [addT, fieldMul, Nat.mod_mul_mod, Nat.mul_assoc]

theorem addT_comm (q1 q2 : Point) : addT q1 q2 = addT q2 q1 := by
  rw [addT_eq, addT_eq, Nat.mul_comm q1.x, Nat.mul_comm q1.y]

/-- R246: the formula is symmetric in its two points. -/
theorem addFormula_comm (q1 q2 : Point) : addFormula q1 q2 = addFormula q2 q1 := by
  simp only [addFormula]
  rw [addT_comm q1 q2, fieldAdd_comm (fieldMul q1.x q2.y), fieldMul_comm q1.y q2.x, fieldMul_comm q1.x q2.y,
    fieldMul_comm q1.y q2.y, fieldMul_comm q1.x q2.x]

theorem addPoints_comm (q1 q2 : Point) : addPoints q1 q2 = addPoints q2 q1 := by
  have hz : zeroDenominator q1 q2 = zeroDenominator q2 q1 := by rw [zeroDenominator, addT_comm q1 q2, zeroDenominator]
  rw [addPoints, hz, addFormula_comm q1 q2, addPoints]

/-- R244: with O as second point t is 0, so both denominators are 1. -/
@[simp] theorem addT_identity (q : Point) : addT q identity = 0 := by
  rw [addT_eq, show identity.x = 0 from rfl, Nat.mul_zero, Nat.mul_zero, Nat.zero_mul, Nat.zero_mod]

theorem zeroDenominator_identity (q : Point) : zeroDenominator q identity = false := by
  rw [zeroDenominator, addT_identity, fieldAdd_zero one_lt_fieldPrime, fieldSub_zero one_lt_fieldPrime]
  rfl

theorem addFormula_identity {q : Point} (hx : q.x < fieldPrime) (hy : q.y < fieldPrime) :
    addFormula q identity = q := by
  rw [addFormula, addT_identity, fieldAdd_zero one_lt_fieldPrime, fieldSub_zero one_lt_fieldPrime,
    show identity.x = 0 from rfl, show identity.y = 1 from rfl, fieldMul_zero, fieldMul_zero, fieldMul_one hx,
    fieldMul_one hy, fieldAdd_zero hx, fieldSub_zero hy, fieldDiv_one hx, fieldDiv_one hy]

/-- R244: O is neutral for canonical points. -/
theorem addPoints_identity {q : Point} (hx : q.x < fieldPrime) (hy : q.y < fieldPrime) :
    addPoints q identity = some q := by
  rw [addPoints_eq_some (zeroDenominator_identity q), addFormula_identity hx hy]

/-- Settles O60: each law is a lemma above, and O as the first point is the second by commutativity. -/
theorem fieldAndAdditionLaws : Obligations.FieldAndAdditionLaws := by
  refine ⟨fun a b _ hb => ⟨rfl, fieldSub_eq_emod hb, rfl, fieldInv_eq a⟩,
    fun _ _ _ h => Point.inRange_iff.1 (addPoints_inRange h), addPoints_comm, fun q hx hy => ?_⟩
  have hq : addPoints q identity = some q := addPoints_identity hx hy
  exact ⟨hq, (addPoints_comm identity q).trans hq⟩

/-! ## Scalar multiplication (R248, R249) -/

theorem ladderTurn_eq_bind (s i : Nat) (b q : Point) :
    ladderTurn s i b q = (addPoints q q).bind fun q2 => if s.testBit i then addPoints q2 b else some q2 := by
  unfold ladderTurn
  cases addPoints q q <;> rfl

theorem ladder_succ (s : Nat) (b : Point) (n : Nat) (q : Point) :
    ladder s b (n + 1) q = (ladderTurn s n b q).bind (ladder s b n) := by
  rw [ladder]
  cases ladderTurn s n b q <;> rfl

/-- Bit i + 1 of s is bit i of s / 2. -/
theorem ladderTurn_succ (s i : Nat) (b q : Point) : ladderTurn s (i + 1) b q = ladderTurn (s / 2) i b q := by
  rw [ladderTurn_eq_bind, ladderTurn_eq_bind, Nat.testBit_succ]

/-- The ladder of s is the ladder of s / 2 and then the turn for bit 0. -/
theorem ladder_succ_eq_bind (s : Nat) (b : Point) (n : Nat) (q : Point) :
    ladder s b (n + 1) q = (ladder (s / 2) b n q).bind (ladderTurn s 0 b) := by
  induction n generalizing q with
  | zero =>
    rw [ladder_succ, show ladder s b 0 = some from rfl, Option.bind_fun_some]
    rfl
  | succ n ih =>
    calc ladder s b (n + 2) q
        = (ladderTurn (s / 2) n b q).bind (ladder s b (n + 1)) := by rw [ladder_succ, ladderTurn_succ]
      _ = (ladderTurn (s / 2) n b q).bind fun r => (ladder (s / 2) b n r).bind (ladderTurn s 0 b) := by
          rw [funext ih]
      _ = (ladder (s / 2) b (n + 1) q).bind (ladderTurn s 0 b) := by rw [ladder_succ, Option.bind_assoc]

/-- R9: one bit more than s / 2. -/
theorem bitlen_eq_succ {s : Nat} (hs : 2 ≤ s) : bitlen s = bitlen (s / 2) + 1 := by
  rw [bitlen, bitlen, if_neg (by omega), if_neg (by omega), Nat.log2_def, if_pos hs]

/-- R249: from s / 2 to s the ladder takes one turn more. -/
theorem scalarMul_eq_bind {s : Nat} (hs : 2 ≤ s) (b : Point) :
    scalarMul s b = (scalarMul (s / 2) b).bind (ladderTurn s 0 b) := by
  obtain ⟨n, hn⟩ : ∃ n, bitlen (s / 2) = n + 1 := ⟨_, if_neg (by omega)⟩
  rw [scalarMul, scalarMul, if_neg (by omega), if_neg (by omega), bitlen_eq_succ hs, hn]
  exact ladder_succ_eq_bind s b n b

theorem scalarMul_one (b : Point) : scalarMul 1 b = some b := by
  rw [scalarMul, if_neg Nat.one_ne_zero, show bitlen 1 - 1 = 0 by decide, ladder]

/-- R248: an appended 0 doubles. -/
theorem scalarMul_two_mul {s : Nat} (hs : 0 < s) (b : Point) :
    scalarMul (2 * s) b = (scalarMul s b).bind fun q => addPoints q q := by
  have hturn : ladderTurn (2 * s) 0 b = fun q => addPoints q q := by
    funext q
    rw [ladderTurn_eq_bind, Nat.testBit_zero, Nat.mul_mod_right]
    exact Option.bind_fun_some _
  rw [scalarMul_eq_bind (by omega), hturn, Nat.mul_div_cancel_left s two_pos]

/-- R249: an appended 1 doubles and adds B. -/
theorem scalarMul_two_mul_add_one {s : Nat} (hs : 0 < s) (b : Point) :
    scalarMul (2 * s + 1) b = ((scalarMul s b).bind fun q => addPoints q q).bind fun q => addPoints q b := by
  have hturn : ladderTurn (2 * s + 1) 0 b = fun q => (addPoints q q).bind fun q2 => addPoints q2 b := by
    funext q
    rw [ladderTurn_eq_bind, Nat.testBit_zero, Nat.mul_add_mod]
    rfl
  rw [scalarMul_eq_bind (by omega), hturn, show (2 * s + 1) / 2 = s by omega, Option.bind_assoc]

/-- Settles O59: an appended bit is one last turn of the ladder (`scalarMul_eq_bind`, by induction on the turns). -/
theorem ladderByBits : Obligations.LadderByBits :=
  fun b => ⟨rfl, scalarMul_one b, fun _ hs => ⟨scalarMul_two_mul hs b, scalarMul_two_mul_add_one hs b⟩⟩

theorem ladder_inRange {s : Nat} {b : Point} (n : Nat) {q r : Point} (hq : q.inRange = true)
    (h : ladder s b n q = some r) : r.inRange = true := by
  induction n generalizing q with
  | zero => cases h; exact hq
  | succ n ih =>
    rw [ladder_succ, ladderTurn_eq_bind, Option.bind_assoc, Option.bind_eq_some_iff] at h
    obtain ⟨q2, hd, h⟩ := h
    split at h
    · obtain ⟨q3, ha, h⟩ := Option.bind_eq_some_iff.1 h
      exact ih (addPoints_inRange ha) h
    · exact ih (addPoints_inRange hd) h

/-- R249: a multiple of a canonical point is canonical. -/
theorem scalarMul_inRange {s : Nat} {b q : Point} (hb : b.inRange = true) (h : scalarMul s b = some q) :
    q.inRange = true := by
  unfold scalarMul at h
  split at h
  · cases h
    exact Point.inRange_iff.2 ⟨fieldPrime_pos, one_lt_fieldPrime⟩
  · exact ladder_inRange _ hb h

end Sys2Proof.Machine
end

section
/-! The commands FMUL, PADD, SMUL and LDG (R250 to R253): word, result, completion and error order. -/

namespace Sys2Proof

/-- R100: the word of a command as its fields shifted into place, in the form in which R250 to R253 write it. -/
theorem packFields_eq_or (rb ra rd : RegIdx) (opc : BitVec 8) :
    packFields rb ra rd opc =
      opc.setWidth 32 ||| (rd.setWidth 32 <<< 8) ||| (ra.setWidth 32 <<< 12) ||| (rb.setWidth 32 <<< 16) := by
  refine BitVec.eq_of_getLsbD_eq fun i hi => ?_
  simp only [getLsbD_packFields, BitVec.getLsbD_or, BitVec.getLsbD_shiftLeft, BitVec.getLsbD_setWidth, hi, decide_true,
    Bool.true_and]
  grind

namespace Machine

/-! ## F registers and point registers (R39, R40, R102) -/

theorem fRead_fWrite_same (s : State) (k : RegIdx) (v : FElem) : (s.fWrite k v).fRead k = v := by
  simp [State.fRead]

/-- R240: a canonical value is kept as it is by an F register. -/
theorem toNat_ofNat_of_canonical {v : Nat} (hv : v < fieldPrime) : (BitVec.ofNat 448 v).toNat = v := by
  have hlt := fieldPrime_lt
  bv_omega

theorem isPIdx_of_lt {k : RegIdx} (h : k < 8) : isPIdx k = true := decide_eq_true h

/-- R40: the two F registers of P[k] differ. -/
theorem pIdxX_ne_pIdxY (k : RegIdx) : pIdxX k ≠ pIdxY k := by
  simp only [pIdxX, pIdxY]
  bv_omega

/-- R40: a canonical point reads back from P[k]. -/
theorem toNat_fRead_pWrite (s : State) (k : RegIdx) {q : Point} (hq : q.inRange = true) :
    ((s.pWrite k q).fRead (pIdxX k)).toNat = q.x ∧ ((s.pWrite k q).fRead (pIdxY k)).toNat = q.y := by
  obtain ⟨hx, hy⟩ := Point.inRange_iff.1 hq
  rw [State.pWrite, fRead_fWrite_other _ _ (pIdxX_ne_pIdxY k), fRead_fWrite_same, fRead_fWrite_same]
  exact ⟨toNat_ofNat_of_canonical hx, toNat_ofNat_of_canonical hy⟩

/-- R109: the completion of a command that writes the point q to P[pd]: the whole state, the two registers of P[pd], and
the F registers it leaves. -/
theorem result_pWrite (s : State) (pd : RegIdx) {q : Point} (hq : q.inRange = true) :
    ∃ t : State, result 0 (s.pWrite pd q) = .next t ∧ t = succeeded s 0 s.lanes t.f s.dmem ∧
      (t.fRead (pIdxX pd)).toNat = q.x ∧ (t.fRead (pIdxY pd)).toNat = q.y ∧
      ∀ k : RegIdx, k ≠ pIdxX pd → k ≠ pIdxY pd → t.fRead k = s.fRead k := by
  obtain ⟨hx, hy⟩ := toNat_fRead_pWrite s pd hq
  refine ⟨_, rfl, rfl, hx, hy, fun k hkx hky => ?_⟩
  calc (s.pWrite pd q).fRead k
      = (s.fWrite (pIdxX pd) (BitVec.ofNat 448 q.x)).fRead k := fRead_fWrite_other _ _ hky
    _ = s.fRead k := fRead_fWrite_other _ _ hkx

/-! ## The checks (R13) -/

theorem require_pos {cond : Bool} (h : cond = true) (c : ErrCode) (s : State) (k : Unit → Result) :
    require cond c s k = k () := by rw [h, require_true]

theorem require_neg {cond : Bool} (h : ¬ cond = true) (c : ErrCode) (s : State) (k : Unit → Result) :
    require cond c s k = .next (failed s c) := by rw [Bool.eq_false_iff.2 h, require_false, errorComplete_eq_failed]

/-! ## FMUL (R250) -/

theorem execFmul_operandRange {s : State} {fa fb : RegIdx} (fd : RegIdx)
    (h : fieldPrime ≤ (s.fRead fa).toNat ∨ fieldPrime ≤ (s.fRead fb).toNat) :
    execFmul fd fa fb s = .next (failed s .operandRange) := by
  simp only [execFmul]
  refine require_eq_failed fun ha => require_neg (fun hb => ?_) _ _ _
  exact h.elim (Nat.not_le_of_lt (canonical_iff.1 ha)) (Nat.not_le_of_lt (canonical_iff.1 hb))

theorem execFmul_succeeds {s : State} {fa fb : RegIdx} (fd : RegIdx) (ha : (s.fRead fa).toNat < fieldPrime)
    (hb : (s.fRead fb).toNat < fieldPrime) :
    execFmul fd fa fb s = .next (succeeded s 0 s.lanes
      (s.f.set fd.toNat (BitVec.ofNat 448 (fieldMul (s.fRead fa).toNat (s.fRead fb).toNat)) fd.isLt) s.dmem) := by
  simp only [execFmul]
  rw [require_pos (canonical_iff.2 ha), require_pos (canonical_iff.2 hb)]
  exact result_eq_succeeded _ _ _ _ _

/-- Settles O47: the two checks in order, and the product mod p, which fits the register. -/
theorem fmulMeaning : Obligations.FmulMeaning := by
  intro s fd fa fb
  exact ⟨packFields_eq_or _ _ _ _, execFmul_operandRange fd, fun ha hb =>
    ⟨_, toNat_ofNat_of_canonical (fieldMul_lt _ _), execFmul_succeeds fd ha hb⟩⟩

/-! ## PADD and SMUL: the checks of the operands, then a point or none (R251, R252) -/

/-- The part PADD and SMUL share: `range` and `curve` are the checks of their operand points, and `r` is the point they
compute. `exec_padd` and `exec_smul` tie it to the two commands. -/
def pointCommand (range curve : Bool) (r : Option Point) (pd : RegIdx) (s : State) : Result :=
  require range .operandRange s fun _ =>
  require curve .invalidPoint s fun _ =>
  requirePoint r s fun q =>
  result 0 (s.pWrite pd q)

section
variable {range curve : Bool} {r : Option Point} {pd : RegIdx} {s : State}

theorem pointCommand_operandRange (hr : ¬ range = true) :
    pointCommand range curve r pd s = .next (failed s .operandRange) := require_neg hr _ _ _

theorem pointCommand_offCurve (hr : range = true) (hc : ¬ curve = true) :
    pointCommand range curve r pd s = .next (failed s .invalidPoint) := by
  rw [pointCommand, require_pos hr, require_neg hc]

theorem pointCommand_eq_requirePoint (hr : range = true) (hc : curve = true) :
    pointCommand range curve r pd s = requirePoint r s fun q => result 0 (s.pWrite pd q) := by
  rw [pointCommand, require_pos hr, require_pos hc]

end

theorem exec_padd {pd pa pb : RegIdx} (hd : pd < 8) (ha : pa < 8) (hb : pb < 8) (s : State) :
    exec (.padd pd pa pb) s =
      pointCommand ((s.pRead pa).inRange && (s.pRead pb).inRange) (onCurve (s.pRead pa) && onCurve (s.pRead pb))
        (addPoints (s.pRead pa) (s.pRead pb)) pd s := by
  simp only [exec, execPadd, pointCommand, isPIdx_of_lt hd, isPIdx_of_lt ha, isPIdx_of_lt hb, Bool.and_self,
    require_true]

theorem exec_smul {pd pa : RegIdx} (hd : pd < 8) (ha : pa < 8) (fs : RegIdx) (s : State) :
    exec (.smul pd pa fs) s =
      pointCommand (s.pRead pa).inRange (onCurve (s.pRead pa)) (scalarMul (s.fRead fs).toNat (s.pRead pa)) pd s := by
  simp only [exec, execSmul, pointCommand, isPIdx_of_lt hd, isPIdx_of_lt ha, Bool.and_self, require_true]

/-- R240: a coordinate of p or more is out of range. -/
theorem not_inRange {q : Point} (h : fieldPrime ≤ q.x ∨ fieldPrime ≤ q.y) : ¬ q.inRange = true := fun hr =>
  have ⟨hx, hy⟩ := Point.inRange_iff.1 hr
  h.elim (Nat.not_le_of_lt hx) (Nat.not_le_of_lt hy)

/-- Settles O48: PADD is `pointCommand` of the sum, which is canonical. -/
theorem paddMeaning : Obligations.PaddMeaning := by
  intro s pd pa pb q1 q2 hd ha hb hq1 hq2
  obtain rfl : q1 = s.pRead pa := hq1
  obtain rfl : q2 = s.pRead pb := hq2
  rw [exec_padd hd ha hb]
  refine ⟨packFields_eq_or _ _ _ _, fun h => pointCommand_operandRange fun hr => ?_, fun hr1 hr2 h => ?_,
    fun hc1 hc2 h => ?_, fun q3 hc1 hc2 h => ?_⟩
  · obtain ⟨hr1, hr2⟩ := Bool.and_eq_true_iff.1 hr
    rw [← or_assoc] at h
    exact h.elim (fun h1 => not_inRange h1 hr1) (fun h2 => not_inRange h2 hr2)
  · refine pointCommand_offCurve (Bool.and_eq_true_iff.2 ⟨hr1, hr2⟩) fun hc => ?_
    obtain ⟨hc1, hc2⟩ := Bool.and_eq_true_iff.1 hc
    exact h.elim (absurd hc1) (absurd hc2)
  all_goals
    rw [pointCommand_eq_requirePoint (Bool.and_eq_true_iff.2 ⟨inRange_of_onCurve hc1, inRange_of_onCurve hc2⟩)
      (Bool.and_eq_true_iff.2 ⟨hc1, hc2⟩), h]
  · rfl
  · exact result_pWrite s pd (addPoints_inRange h)

/-- Settles O49: SMUL is `pointCommand` of the multiple, which is canonical. -/
theorem smulMeaning : Obligations.SmulMeaning := by
  intro s pd pa fs b hd ha hq
  obtain rfl : b = s.pRead pa := hq
  rw [exec_smul hd ha]
  refine ⟨packFields_eq_or _ _ _ _, fun h => pointCommand_operandRange (not_inRange h), pointCommand_offCurve,
    fun hc h => ?_, fun q hc h => ?_⟩ <;> rw [pointCommand_eq_requirePoint (inRange_of_onCurve hc) hc, h]
  · rfl
  · exact result_pWrite s pd (scalarMul_inRange (inRange_of_onCurve hc) h)

/-! ## LDG (R253) -/

theorem onCurve_generator : onCurve generator = true := by decide +kernel

theorem exec_ldg {pd : RegIdx} (hd : pd < 8) (s : State) : exec (.ldg pd) s = result 0 (s.pWrite pd generator) := by
  simp only [exec, execLdg, isPIdx_of_lt hd, require_true]

/-- Settles O50: G is canonical, so P[pd] reads back as its coordinates. -/
theorem ldgMeaning : Obligations.LdgMeaning := by
  refine ⟨onCurve_generator, fun s pd hd => ⟨?_, ?_⟩⟩
  · rw [encode, packFields_eq_or]
    simp [Instr.opcode]
  · rw [exec_ldg hd]
    obtain ⟨t, hr, ht, hx, hy, hf⟩ := result_pWrite s pd (inRange_of_onCurve onCurve_generator)
    exact ⟨t, hr, ht, BitVec.eq_of_toNat_eq (hx.trans (by decide +kernel)),
      BitVec.eq_of_toNat_eq (hy.trans (by decide +kernel)), hf⟩

end Machine
end Sys2Proof
end

section
/-! Exceptions (R48, R290 to R297): how an illegal word ends, what an error completion changes, and when VIOL changes. -/

namespace Sys2Proof.Machine

/-! ## Illegal words (R295) -/

/-- R106, R295: the issue of an illegal word goes through. -/
theorem issueCommand_illegal {s : State} {w : Word} {r : Reject} (h : decode w = .error r) :
    issueCommand w s = .next (issue w s) :=
  issueCommand_eq fun i hi => by rw [h] at hi; cases hi

/-- R295: at the engine's turn an illegal word in flight fails. -/
theorem engineTurn_illegal {s : State} {r : Reject} (hb : s.status.busy = true) (h : decode s.cmd = .error r) :
    engineTurn s = .next (failed s .illegalCmd) :=
  (engineTurn_busy hb).trans (runCommand_illegal h)

/-- Settles O9: the two states are `issue w s` and its failure with ILLEGAL_CMD. -/
theorem illegalWordCompletes : Obligations.IllegalWordCompletes := by
  refine ⟨fun s w r hb hd => ?_, ⟨.reservedOpcode, rfl⟩, ⟨.badField, rfl⟩, ⟨.reservedBits, rfl⟩⟩
  exact ⟨issue w s, failed (issue w s) .illegalCmd, (takeEvent_cmdStore_idle hb w).trans (issueCommand_illegal hd),
    rfl, rfl, engineTurn_illegal rfl hd, rfl, rfl, rfl, rfl, rfl, rfl, rfl, rfl, rfl, rfl, rfl⟩

/-! ## Precision (R296) -/

/-- Settles O32: a command that ends with ERR newly set is one that failed, since a successful one leaves ERR alone. -/
theorem errorsArePrecise : Obligations.ErrorsArePrecise := by
  intro i s t he h het
  rcases exec_next h with ⟨c, hc, rfl⟩ | ⟨n, lanes, f, dmem, rfl, -⟩
  · exact ⟨hc, rfl, rfl, rfl, rfl, rfl, rfl, rfl, rfl, rfl, rfl, rfl⟩
  · exact absurd (he.symm.trans het) Bool.false_ne_true

/-! ## VIOL (R48, R297) -/

/-- Of the effects of a step, only the ignored write sets VIOL. -/
theorem Effect.of_viol_set {s t : State} (he : Effect s t) (h0 : s.status.viol = false) (h1 : t.status.viol = true) :
    s.status.busy = true ∧ s.host.stopped = none ∧ (∃ pl n v, s.host.inbox.head? = some (.write pl n v)) ∧
      t = { s with status := s.status.violate, host := t.host } := by
  cases he with
  | ignoredWrite pl n v h hs hi hb => exact ⟨hb, hs, ⟨pl, n, v, hi⟩, rfl⟩
  | statusWrite => exact absurd (h0.symm.trans (Bool.and_eq_true_iff.1 h1).1) Bool.false_ne_true
  | reset => cases h1
  | completed _ _ _ hr =>
    obtain ⟨-, -, -, hv, -⟩ := runCommand_frame hr
    exact absurd (h0.symm.trans (hv.symm.trans h1)) Bool.false_ne_true
  | hostOnly | issued | regStored | dmemStored => exact absurd (h0.symm.trans h1) Bool.false_ne_true

/-- Of the effects of a step, only reset and a write of STATUS with bit 3 set clear VIOL. -/
theorem Effect.of_viol_cleared {s t : State} (he : Effect s t) (h1 : s.status.viol = true)
    (h0 : t.status.viol = false) :
    s.host.inbox.head? = some .reset ∨
      ∃ pl n v, s.host.inbox.head? = some (.write pl n v) ∧ pl.locate = some (.reg, 0x008) ∧
        v.getLsbD 3 = true := by
  cases he with
  | reset _ hi => exact .inl hi
  | statusWrite pl n v _ hi hp => exact .inr ⟨pl, n, v, hi, hp, by simpa [h1] using h0⟩
  | ignoredWrite => cases h0
  | completed _ _ _ hr =>
    obtain ⟨-, -, -, hv, -⟩ := runCommand_frame hr
    exact absurd (h0.symm.trans (hv.trans h1)) Bool.false_ne_true
  | hostOnly | issued | regStored | dmemStored => exact absurd (h0.symm.trans h1) Bool.false_ne_true

/-- Settles O30: a step has one of the effects of `step_effect`. -/
theorem violLatch : Obligations.ViolLatch :=
  fun _ _ h => ⟨(step_effect h).of_viol_set, (step_effect h).of_viol_cleared⟩

end Sys2Proof.Machine
end

section
/-! The codes each command can raise (R184, R293), read off the checks of its rule. -/

namespace Sys2Proof.Machine

/-- R293: the codes that the checks of a command's rule name. -/
def Instr.codes : Instr → List ErrCode
  | .keccakf | .sinit | .ldg _ => []
  | .absorb => [.badBlocklen, .outOfBounds]
  | .absorbf | .lenc | .renc => [.outOfBounds]
  | .squeeze => [.badBitlen, .outOfBounds]
  | .sponge | .shake256 | .cshake256 | .kmacxof256 => [.badBitlen, .outOfBounds, .overlap]
  | .encstr => [.outOfBounds, .overlap]
  | .bytepad => [.badWidth, .outOfBounds, .overlap]
  | .fmul _ _ _ => [.operandRange]
  | .padd _ _ _ | .smul _ _ _ => [.operandRange, .invalidPoint]

/-- R184: no command raises ENCODING_RANGE. -/
theorem encodingRange_notMem_codes (i : Instr) : ErrCode.encodingRange ∉ Instr.codes i := by
  cases i <;> simp [Instr.codes]

/-- If the outcome of a command on `s` is a failure, its code is one of `codes`. -/
def FailsWithin (codes : List ErrCode) (s : State) (r : Result) : Prop :=
  ∀ c, c ≠ .noError → r = .next (failed s c) → c ∈ codes

/-! ## The outcomes -/

/-- The code of a failure stands in ECODE. -/
theorem ecode_of_next_eq_failed {s t : State} {c : ErrCode} (h : (.next t : Result) = .next (failed s c)) :
    t.status.ecode = c := by
  injection h with h
  rw [h]; rfl

theorem failsWithin_failed {codes : List ErrCode} {s : State} {c : ErrCode} (hc : c ∈ codes) :
    FailsWithin codes s (.next (failed s c)) :=
  fun _ _ h => ecode_of_next_eq_failed h ▸ hc

/-- R109: a completion leaves ECODE at NONE, so it is no failure. -/
theorem failsWithin_result (codes : List ErrCode) (s t : State) (n : Nat) : FailsWithin codes s (result n t) :=
  fun _ hc h => absurd (ecode_of_next_eq_failed h).symm hc

/-! ## The operations of the command rules (R12, R13) -/

section
variable {codes : List ErrCode} {s : State}

theorem FailsWithin.require {cond : Bool} {c : ErrCode} {k : Unit → Result} (hc : c ∈ codes)
    (h : FailsWithin codes s (k ())) : FailsWithin codes s (require cond c s k) :=
  require_elim (P := FailsWithin codes s) (fun _ => failsWithin_failed hc) fun _ => h

theorem FailsWithin.memRead {a n : Nat} {k : List Byte → Result} (h : ∀ x, FailsWithin codes s (k x)) :
    FailsWithin codes s (memRead s a n k) :=
  memRead_elim (P := FailsWithin codes s) (fun _ _ _ hf => by cases hf) fun x _ _ => h x

theorem FailsWithin.requirePoint {r : Option Point} {k : Point → Result} (hc : .invalidPoint ∈ codes)
    (h : ∀ q, FailsWithin codes s (k q)) : FailsWithin codes s (requirePoint r s k) := by
  cases r with
  | none => exact failsWithin_failed hc
  | some q => exact h q

end

/-! ## The shapes that commands share -/

theorem oneShot1_failsWithin (f : List Byte → Nat → List Byte) (s : State) :
    FailsWithin [.badBitlen, .outOfBounds, .overlap] s (oneShot1 f s) := by
  simp only [oneShot1]
  exact .require (by decide) <| .require (by decide) <| .require (by decide) <| .require (by decide) <|
    .memRead fun _ => failsWithin_result _ _ _ _

theorem oneShot3_failsWithin (f : List Byte → List Byte → List Byte → Nat → List Byte) (s : State) :
    FailsWithin [.badBitlen, .outOfBounds, .overlap] s (oneShot3 f s) := by
  simp only [oneShot3]
  exact .require (by decide) <| .require (by decide) <| .require (by decide) <| .require (by decide) <|
    .require (by decide) <| .require (by decide) <|
      .memRead fun _ => .memRead fun _ => .memRead fun _ => failsWithin_result _ _ _ _

/-- R187, R188: the checks after the value checks. -/
theorem encodeRegion_failsWithin {codes : List ErrCode} (hb : .outOfBounds ∈ codes) (ho : .overlap ∈ codes) (m : Nat)
    (f : List Byte → List Byte) (s : State) : FailsWithin codes s (encodeRegion m f s) := by
  simp only [encodeRegion]
  exact .require hb <| .require hb <| .require ho <| .memRead fun _ => failsWithin_result _ _ _ _

/-- R184: the range check of LENC and RENC passes, so ENCODING_RANGE is not among their codes. -/
theorem encodeInt_failsWithin (enc : Nat → List Byte) (s : State) :
    FailsWithin [.outOfBounds] s (encodeInt enc s) := by
  simp only [encodeInt]
  rw [require_pos (decide_eq_true (arg64_lt_encodingLimit s))]
  exact .require (by decide) (failsWithin_result _ _ _ _)

theorem pointCommand_failsWithin (range curve : Bool) (r : Option Point) (pd : RegIdx) (s : State) :
    FailsWithin [.operandRange, .invalidPoint] s (pointCommand range curve r pd s) := by
  simp only [pointCommand]
  exact .require (by decide) <| .require (by decide) <| .requirePoint (by decide) fun _ => failsWithin_result _ _ _ _

/-! ## Every command -/

/-- R105: a term that is not well formed fails at its first check. -/
theorem exec_illFormed {i : Instr} (h : i.wellFormed = false) (s : State) :
    exec i s = .next (failed s .illegalCmd) := by
  have hn : ¬ i.wellFormed = true := Bool.eq_false_iff.1 h
  cases i with
  | padd | smul | ldg =>
    simp only [exec, execPadd, execSmul, execLdg]
    exact require_neg hn _ _ _
  | keccakf | sinit | absorb | absorbf | squeeze | sponge | lenc | renc | encstr | bytepad | shake256 | cshake256
  | kmacxof256 | fmul => cases h

/-- R293: a well-formed command fails with one of its codes only. -/
theorem exec_failsWithin_codes {i : Instr} (hi : i.wellFormed = true) (s : State) :
    FailsWithin (Instr.codes i) s (exec i s) := by
  cases i with
  | keccakf | sinit => exact failsWithin_result _ _ _ _
  | absorb =>
    simp only [exec, execAbsorb]
    exact .require (by decide) <| .require (by decide) <| .memRead fun _ => failsWithin_result _ _ _ _
  | absorbf =>
    simp only [exec, execAbsorbf]
    exact .require (by decide) <| .memRead fun _ => failsWithin_result _ _ _ _
  | squeeze =>
    simp only [exec, execSqueeze]
    exact .require (by decide) <| .require (by decide) <| failsWithin_result _ _ _ _
  | sponge | shake256 =>
    simp only [exec, execSponge, execShake256]
    exact oneShot1_failsWithin _ s
  | cshake256 | kmacxof256 =>
    simp only [exec, execCshake256, execKmacxof256]
    exact oneShot3_failsWithin _ s
  | lenc | renc =>
    simp only [exec, execLenc, execRenc]
    exact encodeInt_failsWithin _ s
  | encstr =>
    rw [exec_encstr]
    exact encodeRegion_failsWithin (by decide) (by decide) _ _ s
  | bytepad =>
    simp only [exec, execBytepad]
    exact .require (by decide) <| encodeRegion_failsWithin (by decide) (by decide) _ _ s
  | fmul =>
    simp only [exec, execFmul]
    exact .require (by simp [Instr.codes]) <| .require (by simp [Instr.codes]) <| failsWithin_result _ _ _ _
  | padd pd pa pb =>
    simp only [Instr.wellFormed, Bool.and_eq_true, isPIdx_iff] at hi
    obtain ⟨⟨hd, ha⟩, hb⟩ := hi
    rw [exec_padd hd ha hb]
    exact pointCommand_failsWithin _ _ _ _ s
  | smul pd pa fs =>
    simp only [Instr.wellFormed, Bool.and_eq_true, isPIdx_iff] at hi
    obtain ⟨hd, ha⟩ := hi
    rw [exec_smul hd ha]
    exact pointCommand_failsWithin _ _ _ _ s
  | ldg pd =>
    rw [exec_ldg (isPIdx_iff.1 hi)]
    exact failsWithin_result _ _ _ _

/-- Settles O33: the codes of a command are those of `Instr.codes`. -/
theorem codesOfEachCommand : Obligations.CodesOfEachCommand := by
  refine ⟨fun i s h => exec_illFormed h s, fun i s c hi hc h => ?_⟩
  have hmem : c ∈ Instr.codes i := exec_failsWithin_codes hi s c hc h
  refine ⟨fun hr => encodingRange_notMem_codes i (hr ▸ hmem), ?_⟩
  cases i with
  | keccakf | sinit | ldg => exact absurd hmem List.not_mem_nil
  | absorb | absorbf | squeeze | sponge | lenc | renc | encstr | bytepad | shake256 | cshake256 | kmacxof256 | fmul
  | padd | smul => exact hmem

end Sys2Proof.Machine
end

section
/-! Unwritten input (R88, R338): of the three ways a command ends (`exec_cases`), a completion means that every byte of its
input regions was written. -/

namespace Sys2Proof.Machine

/-- A DMEM byte of one of the input regions `rs` has not been written since reset. -/
def UnwrittenIn (rs : List (Fin 8 × Fin 8)) (s : State) : Prop :=
  ∃ r ∈ rs, ∃ j < s.argNat r.2, Mem.byte? s.dmem (s.argNat r.1 + j) = none

theorem unwrittenIn_inputArgs (i : Instr) (s : State) : UnwrittenIn (Instr.inputArgs i) s ↔ ReadsUnwritten i s := Iff.rfl

/-- R88: a region that holds a byte string has no unwritten byte. -/
theorem unwrittenIn_cons_of_holds {rs : List (Fin 8 × Fin 8)} {s : State} {p q : Fin 8} {x : List Byte}
    (hl : x.length = s.argNat q) (hx : HoldsBytes s.dmem (s.argNat p) x) (h : UnwrittenIn ((p, q) :: rs) s) :
    UnwrittenIn rs s := by
  obtain ⟨r, hr, j, hj, hnone⟩ := h
  rcases List.mem_cons.1 hr with rfl | hr
  · have hbyte := hx j (hl.symm ▸ hj)
    rw [hnone] at hbyte
    cases hbyte
  · exact ⟨r, hr, j, hj, hnone⟩

/-- The outcome is a failed check of the command, or a fault if an input region holds an unwritten byte. -/
def FaultsIfUnwritten (rs : List (Fin 8 × Fin 8)) (s : State) (r : Result) : Prop :=
  (∃ c, r = .next (failed s c)) ∨ (UnwrittenIn rs s → r = .fault .unwrittenInput)

/-! ## The operations of the command rules (R12, R13) -/

section
variable {rs : List (Fin 8 × Fin 8)} {s : State}

theorem faultsIfUnwritten_nil (r : Result) : FaultsIfUnwritten [] s r :=
  .inr fun ⟨_, hr, _⟩ => absurd hr List.not_mem_nil

theorem FaultsIfUnwritten.require {cond : Bool} {c : ErrCode} {k : Unit → Result}
    (h : FaultsIfUnwritten rs s (k ())) : FaultsIfUnwritten rs s (require cond c s k) :=
  require_elim (P := FaultsIfUnwritten rs s) (fun _ => .inl ⟨c, rfl⟩) fun _ => h

/-- `MemRead` faults, or leaves the other regions to the rest of the command. -/
theorem FaultsIfUnwritten.memRead {p q : Fin 8} {k : List Byte → Result} (h : ∀ x, FaultsIfUnwritten rs s (k x)) :
    FaultsIfUnwritten ((p, q) :: rs) s (memRead s (s.argNat p) (s.argNat q) k) :=
  memRead_elim (P := FaultsIfUnwritten ((p, q) :: rs) s) (fun _ => .inr fun _ => rfl) fun x hl hx =>
    (h x).imp_right fun hk hu => hk (unwrittenIn_cons_of_holds hl hx hu)

/-! ## The shapes that commands share -/

theorem oneShot1_faultsIfUnwritten (f : List Byte → Nat → List Byte) :
    FaultsIfUnwritten [(0, 1)] s (oneShot1 f s) := by
  simp only [oneShot1]
  exact .require <| .require <| .require <| .require <| .memRead fun _ => faultsIfUnwritten_nil _

theorem oneShot3_faultsIfUnwritten (f : List Byte → List Byte → List Byte → Nat → List Byte) :
    FaultsIfUnwritten [(0, 1), (2, 3), (4, 5)] s (oneShot3 f s) := by
  simp only [oneShot3]
  exact .require <| .require <| .require <| .require <| .require <| .require <|
    .memRead fun _ => .memRead fun _ => .memRead fun _ => faultsIfUnwritten_nil _

theorem encodeRegion_faultsIfUnwritten (m : Nat) (f : List Byte → List Byte) :
    FaultsIfUnwritten [(0, 1)] s (encodeRegion m f s) := by
  simp only [encodeRegion]
  exact .require <| .require <| .require <| .memRead fun _ => faultsIfUnwritten_nil _

end

/-! ## Every command -/

/-- R338: a command whose checks pass reads each of its input regions. -/
theorem exec_faultsIfUnwritten (i : Instr) (s : State) : FaultsIfUnwritten (Instr.inputArgs i) s (exec i s) := by
  cases i with
  | keccakf | sinit | squeeze | lenc | renc | fmul | padd | smul | ldg => exact faultsIfUnwritten_nil _
  | absorb =>
    simp only [exec, execAbsorb]
    exact .require <| .require <| .memRead fun _ => faultsIfUnwritten_nil _
  | absorbf =>
    simp only [exec, execAbsorbf]
    exact .require <| .memRead fun _ => faultsIfUnwritten_nil _
  | sponge | shake256 =>
    simp only [exec, execSponge, execShake256]
    exact oneShot1_faultsIfUnwritten _
  | cshake256 | kmacxof256 =>
    simp only [exec, execCshake256, execKmacxof256]
    exact oneShot3_faultsIfUnwritten _
  | encstr =>
    rw [exec_encstr]
    exact encodeRegion_faultsIfUnwritten _ _
  | bytepad =>
    simp only [exec, execBytepad]
    exact .require <| encodeRegion_faultsIfUnwritten _ _

/-- No command is refused. -/
theorem exec_ne_refused (i : Instr) (s : State) (r : Refusal) : exec i s ≠ .refused r := by
  intro h
  rcases exec_cases i s with ⟨_, -, hr⟩ | ⟨hr, -⟩ | ⟨_, _, _, _, hr, -⟩ <;> rw [h] at hr <;> cases hr

/-- A command that faults has an unwritten byte in an input region. -/
theorem readsUnwritten_of_fault {i : Instr} {s : State} (h : exec i s = .fault .unwrittenInput) : ReadsUnwritten i s := by
  rcases exec_cases i s with ⟨_, -, hr⟩ | ⟨-, hu⟩ | ⟨_, _, _, _, hr, -⟩
  · rw [h] at hr; cases hr
  · exact hu
  · rw [h] at hr; cases hr

/-- R338: a command that faults when it is executed faults at its issue. -/
theorem issueCommand_fault {s : State} {w : Word} {i : Instr} (hd : decode w = .ok i)
    (h : exec i (issue w s) = .fault .unwrittenInput) : issueCommand w s = .fault .unwrittenInput := by
  have hrun : runCommand (issue w s) = .fault .unwrittenInput := (runCommand_legal hd).trans h
  simp only [issueCommand, hrun]

/-- Settles O11: the fault is one of the three ways of `exec_cases`, and `exec_faultsIfUnwritten` shuts out the other two. -/
theorem faultsExactlyOnUnwrittenInput : Obligations.FaultsExactlyOnUnwrittenInput := by
  refine ⟨fun i s => ⟨exec_ne_refused i s, fun h => ⟨fun c hc => ?_, readsUnwritten_of_fault h⟩, fun ⟨hnf, hu⟩ => ?_⟩,
    fun s w i hb hd h => (takeEvent_cmdStore_idle hb w).trans (issueCommand_fault hd h)⟩
  · rw [h] at hc; cases hc
  · rcases exec_faultsIfUnwritten i s with ⟨c, hc⟩ | hf
    · exact absurd hc (hnf c)
    · exact hf ((unwrittenIn_inputArgs i s).2 hu)

end Sys2Proof.Machine
end

section
/-! The ends of a WAIT and of a run (R113, R339, R341): a run has one last state (`Leads.last_unique`), it gets there because
every step shortens what is left of it (`step_left`), and the last state says how the run ends. -/

namespace Sys2Proof.Machine

/-! ## WAIT (R113, R339) -/

/-- A WAIT on an idle engine is taken, and changes nothing else. -/
theorem step_wait_idle {s : State} {rest : List HostOp} (hs : s.host.stopped = none)
    (hi : s.host.inbox = .wait :: rest) (hb : s.status.busy = false) :
    step s = .next { s with host := { s.host with inbox := rest } } := by
  have hb' : (popInbox s).status.busy = false := hb
  rw [step_event hs hi, ← popInbox_cons hi]
  simp only [takeEvent, hb', Bool.false_eq_true, if_false]

/-- A WAIT on a command that completes: one step completes it, the next takes the WAIT. -/
theorem run_wait {s u : State} {rest : List HostOp} (hs : s.host.stopped = none) (hi : s.host.inbox = .wait :: rest)
    (hb : s.status.busy = true) (hu : runCommand s = .next u) :
    Host.Core.run core 2 s = .next { u with host := { u.host with inbox := rest } } := by
  obtain ⟨hh, -, -, -, hub⟩ := runCommand_frame hu
  have h1 : core.step s = .next u := (step_wait_busy hs hi hb).trans hu
  have h2 : core.step u = .next { u with host := { u.host with inbox := rest } } :=
    step_wait_idle (hh ▸ hs) (hh ▸ hi) hub
  simp only [Host.Core.run, h1, h2]

/-! ## The last state of a run (R341) -/

/-- A run goes no further: it is over, or its step faults or is refused. -/
def State.Last (s : State) : Prop := s.over ∨ ¬ s.SafeStep

/-- Every run gets to a last state. -/
theorem exists_leads_last (s : State) : ∃ t, Leads s t ∧ t.Last := by
  by_cases hlast : s.Last
  · exact ⟨s, .refl, hlast⟩
  · obtain ⟨hover, hsafe⟩ := not_or.1 hlast
    obtain ⟨u, hu⟩ := not_not.1 hsafe
    have hs : s.host.stopped = none := Option.eq_none_iff_forall_ne_some.2 fun e he => hover (.inr ⟨e, he⟩)
    have hless : u.left < s.left := (step_left hu hs).resolve_left fun hc => hover (.inl hc)
    obtain ⟨t, hl, ht⟩ := exists_leads_last u
    exact ⟨t, hl.head hover hu, ht⟩
termination_by s.left

/-! ## How a run ends at its last state -/

/-- The end of a run whose last state is `t`, read off what a step from `t` does. -/
def State.runEnd (t : State) : RunEnd :=
  match t.host.stopped, step t with
  | some e, _ => .expectStopped t.final e
  | none, .next _ => .completed t.final
  | none, .fault r => .faulted r
  | none, .refused r => .refused r

section
variable {t : State}

theorem runEnd_of_completed (h : t.completed) : t.runEnd = .completed t.final := by
  obtain ⟨u, hu⟩ := step_completed h
  obtain ⟨-, hs, -⟩ := h
  simp only [State.runEnd, hs, hu]

theorem runEnd_of_expectStopped {e : Expectation} (h : t.expectStopped e) : t.runEnd = .expectStopped t.final e := by
  have hs : t.host.stopped = some e := h
  simp only [State.runEnd, hs]

/-- A state that does not step safely is not expect-stopped. -/
theorem stopped_eq_none_of_not_safeStep (h : ¬ t.SafeStep) : t.host.stopped = none :=
  Option.eq_none_iff_forall_ne_some.2 fun _ he => h ⟨t, step_stopped he⟩

theorem not_safeStep_of_faulted {r : Fault} (h : t.faulted r) : ¬ t.SafeStep :=
  fun ⟨u, hu⟩ => by rw [State.faulted, hu] at h; cases h

theorem not_safeStep_of_refused {r : Refusal} (h : t.refused r) : ¬ t.SafeStep :=
  fun ⟨u, hu⟩ => by rw [State.refused, hu] at h; cases h

theorem runEnd_of_faulted {r : Fault} (h : t.faulted r) : t.runEnd = .faulted r := by
  have hstep : step t = .fault r := h
  simp only [State.runEnd, stopped_eq_none_of_not_safeStep (not_safeStep_of_faulted h), hstep]

theorem runEnd_of_refused {r : Refusal} (h : t.refused r) : t.runEnd = .refused r := by
  have hstep : step t = .refused r := h
  simp only [State.runEnd, stopped_eq_none_of_not_safeStep (not_safeStep_of_refused h), hstep]

/-- R341: a run that gets to a last state ends there, in the way of `runEnd`. -/
theorem ends_runEnd {s : State} (hl : Leads s t) (ht : t.Last) : s.Ends t.runEnd := by
  rcases ht with (hc | ⟨e, he⟩) | hsafe
  · rw [runEnd_of_completed hc]; exact .completed hl hc
  · rw [runEnd_of_expectStopped he]; exact .expectStopped hl he
  · cases hstep : step t with
    | next u => exact absurd ⟨u, hstep⟩ hsafe
    | fault r => rw [runEnd_of_faulted hstep]; exact .faulted hl hstep
    | refused r => rw [runEnd_of_refused hstep]; exact .refused hl hstep

end

/-- R341: a run ends only in the way of a last state it gets to. -/
theorem State.Ends.exists_last {s : State} {e : RunEnd} (h : s.Ends e) : ∃ t, Leads s t ∧ t.Last ∧ e = t.runEnd := by
  cases h with
  | completed hl hc => exact ⟨_, hl, .inl (.inl hc), (runEnd_of_completed hc).symm⟩
  | expectStopped hl he => exact ⟨_, hl, .inl (.inr ⟨_, he⟩), (runEnd_of_expectStopped he).symm⟩
  | faulted hl hf => exact ⟨_, hl, .inr (not_safeStep_of_faulted hf), (runEnd_of_faulted hf).symm⟩
  | refused hl hr => exact ⟨_, hl, .inr (not_safeStep_of_refused hr), (runEnd_of_refused hr).symm⟩

/-- Settles O12: a WAIT is `run_wait`; a run gets to a last state, and has no other. -/
theorem waitsAndRunsEnd : Obligations.WaitsAndRunsEnd := by
  refine ⟨fun s u rest hs hi hb hu => ?_, fun s => ?_⟩
  · obtain ⟨-, -, -, -, hub⟩ := runCommand_frame hu
    exact ⟨_, run_wait hs hi hb hu, rfl, hub, rfl⟩
  · obtain ⟨t, hl, ht⟩ := exists_leads_last s
    refine ⟨t.runEnd, ends_runEnd hl ht, fun e' he' => ?_⟩
    obtain ⟨t', hl', ht', rfl⟩ := he'.exists_last
    rw [hl'.last_unique hl ht' ht]

end Sys2Proof.Machine
end

section
/-! The host's accesses while a command is in flight (R334, R335): which writes set VIOL, and what reads return. -/

namespace Sys2Proof.Machine

/-! ## Writes (R334) -/

section
variable {s : State} (hb : s.status.busy = true)
include hb

theorem whenIdle_busy (t : State) : whenIdle s t = { s with status := s.status.violate } := by
  simp only [whenIdle, hb, if_true]

/-- A busy write of ARG, STATE or F sets VIOL only. -/
theorem regWrite_operand_busy (v : Word) {loc : RegLoc} (hl : loc.isOperand = true) :
    regWrite s v loc = { s with status := s.status.violate } := by
  cases loc with
  | arg | lane | fword => exact whenIdle_busy hb _
  | id | dmemsz | status | cmd | rlen | reserved => cases hl

/-- A busy write of CMD sets VIOL only. -/
theorem takeEvent_cmdStore_busy (v : Word) :
    takeEvent (regStore 0x00C v) s = .next { s with status := s.status.violate } := by
  rw [takeEvent_regStore (by decide) (by decide)]
  simp only [hostWrite, regAt_eq_cmd.2, if_true, cmdWrite, hb]

end

/-- Settles O14: the operand registers and DMEM are guarded by `whenIdle`; what is ignored without VIOL while busy is so at
any time (`constantAndReservedRegisters`). -/
theorem busyWritesIgnored : Obligations.BusyWritesIgnored := by
  intro s v hb
  obtain ⟨-, -, hreserved, hfixed⟩ := constantAndReservedRegisters s
  obtain ⟨hid, hdmemsz, hrlen⟩ := hfixed v
  refine ⟨fun off ha hoff => ?_, fun a n hn ha hlt => ?_, ?_, fun off ha hoff => ?_⟩
  · rcases hoff with rfl | hoff
    · exact takeEvent_cmdStore_busy hb v
    · rw [takeEvent_regStore_ne_cmd ha (by omega) (by omega), regWrite_operand_busy hb v (isOperand_regAt hoff)]
      rfl
  · rw [takeEvent_dmemStore hn ha hlt, dmemWrite, whenIdle_busy hb]
    rfl
  · exact takeEvent_regStore_ne_cmd (by decide) (by decide) (by decide) v s
  · have hsplit : off = 0x000 ∨ off = 0x004 ∨ off = 0x010 ∨
        ((0x014 ≤ off ∧ off < 0x020) ∨ (0x040 ≤ off ∧ off < 0x100) ∨ (0x1C8 ≤ off ∧ off < 0x200) ∨
          (0x200 ≤ off ∧ off < 0x600 ∧ 56 ≤ off % 64) ∨ (0x600 ≤ off ∧ off < 0x1000)) := by omega
    rcases hsplit with rfl | rfl | rfl | hr
    · exact hid
    · exact hdmemsz
    · exact hrlen
    · exact (hreserved off ha hr).2 v

/-! ## Reads with a defined value (R335) -/

/-- R36, R335: STATUS while busy, in a state of a run. -/
theorem statusWord_busy {s : State} (hb : s.status.busy = true) (hi : s.StatusInv) :
    s.status.word = if s.status.viol then 9 else 1 := by
  obtain ⟨hd, he, hc, -⟩ := hi.busy_clear hb
  simp only [Status.word, hb, hd, he, hc]
  cases s.status.viol <;> rfl

/-! ## Reads with a free value (R335, log entry 7) -/

/-- The low n bytes of the free word drawn. -/
def freeLow (n draws : Nat) : Word := BitVec.ofNat 32 ((Config.freeWord draws).toNat % 256 ^ n)

/-- The four bytes of a word are the word. -/
theorem freeLow_four (draws : Nat) : freeLow 4 draws = Config.freeWord draws := by
  rw [freeLow, pow_256_eq, Nat.mod_eq_of_lt (Config.freeWord draws).isLt, BitVec.ofNat_toNat, BitVec.setWidth_eq]

/-- R11: the bytes of a word, taken one by one, are its little-endian encoding. -/
theorem map_extractLsb'_range {w : Nat} (v : BitVec w) (n : Nat) :
    ((List.range n).map fun i => v.extractLsb' (8 * i) 8) = leBytes v.toNat n := by
  refine List.ext_getElem (by simp) fun i _ h => ?_
  rw [getElem_leBytes_toNat v h, List.getElem_map, List.getElem_range]

section
variable {s : State} (hb : s.status.busy = true)
include hb

/-- A busy read of STATE or F has no value. -/
theorem regValue_busy {loc : RegLoc} (h : (∃ k w, loc = .lane k w) ∨ ∃ n w, loc = .fword n w) :
    regValue s loc = none := by
  rcases h with ⟨k, w, rfl⟩ | ⟨n, w, rfl⟩ <;> simp only [regValue, hb, if_true]

/-- A busy read of DMEM draws each of its bytes. -/
theorem drawnValue_busy (a n : Nat) : drawnValue s (Config.freeWord s.host.draws) a n = freeLow n s.host.draws := by
  have hbyte : drawnByte s (Config.freeWord s.host.draws) a =
      fun i => (Config.freeWord s.host.draws).extractLsb' (8 * i) 8 := by
    funext i; simp only [drawnByte, hb, if_true]
  rw [drawnValue, hbyte, map_extractLsb'_range, leInt_leBytes, freeLow]

theorem hostRead_reg_busy {off : Nat}
    (h : (0x100 ≤ off ∧ off < 0x1C8) ∨ (0x200 ≤ off ∧ off < 0x600 ∧ off % 64 < 56)) :
    hostRead s 4 .reg off = replyDrawn (freeLow 4 s.host.draws) s := by
  have hv : regValue s (regAt off) = none := regValue_busy hb <|
    h.imp (fun h => ⟨_, _, regAt_lane h⟩) fun h => ⟨_, _, regAt_fword h⟩
  simp only [hostRead, hv, freeLow_four]

theorem hostRead_dmem_busy (a n : Nat) : hostRead s n .dmem a = replyDrawn (freeLow n s.host.draws) s := by
  have hv : dmemValue s a n = none := by simp only [dmemValue, hb, if_true]
  simp only [hostRead, hv, drawnValue_busy hb]

end

/-- Settles O19: the registers with a value are read as at any time, and the free value is `freeLow`. -/
theorem busyReads : Obligations.BusyReads := by
  refine ⟨fun s hb hi => ?_, freeLow, fun s hb => ⟨fun off ha hoff => ?_, fun a n hn ha hlt => ?_⟩⟩
  · obtain ⟨-, -, -, hrlen⟩ := hi.busy_clear hb
    obtain ⟨hid, hdmemsz, hreserved, -⟩ := constantAndReservedRegisters s
    refine ⟨?_, ?_, ?_, hid, hdmemsz, fun off ha hr => (hreserved off ha hr).1, fun i => ?_⟩
    · exact takeEvent_regLoad_offset (loc := .status) (by simp) (congrArg some (statusWord_busy hb hi))
    · exact takeEvent_regLoad_offset (loc := .cmd) (by simp) rfl
    · exact takeEvent_regLoad_offset (loc := .rlen) (by simp) (congrArg some hrlen)
    · exact takeEvent_regLoad_offset (loc := .arg i) (by simp) rfl
  · rw [takeEvent_regLoad ha (by omega), hostRead_reg_busy hb hoff]
  · rw [takeEvent_dmemLoad hn ha hlt, hostRead_dmem_busy hb]

end Sys2Proof.Machine
end
